-- ==== Sys2Proof/Word.lean ====
section
/-!
DEFINITION. The words of HUFFCORE and the two kinds of table entry (spec 00_scope R6, R7, 10_state R32, R37).
-/
namespace Sys2Proof

/-- One bit of a bit stream (20_memory R65). -/
abbrev Bit := Bool

/-- One input or output byte, `SYM_BITS` = 8 (R6). -/
abbrev Byte := BitVec 8

/-- A symbol field, `SYMF_W` = 9: 0 to 255 the byte symbols, 256 the sentinel (R6, R15). -/
abbrev Sym := BitVec 9

/-- One frequency count, `CNT_W` = 32 (R7). -/
abbrev Count := BitVec 32

/-- A node weight, `W_W` = 41 (R7). -/
abbrev Weight := BitVec 41

/-- A node index, `IDX_W` = 10 (R7). -/
abbrev NodeIdx := BitVec 10

/-- A code length, `LEN_W` = 9 (R7). -/
abbrev CodeLen := BitVec 9

/-- A code value, `VAL_W` = 256 (R7). -/
abbrev CodeVal := BitVec 256

/-- One entry of the node memory (R32). -/
structure NodeRec where
  leaf   : Bool
  sym    : Sym
  weight : Weight
  left   : NodeIdx
  right  : NodeIdx
deriving DecidableEq, Repr, Inhabited

/-- One entry of the code table (R37). -/
structure CodeRec where
  len : CodeLen
  val : CodeVal
deriving DecidableEq, Repr, Inhabited

end Sys2Proof
end

