-- ==== Sys2Proof/Config.lean ====
section
/-!
DEFINITION. What is fixed for one block: the constants of 00_scope R6 and R7, the open parameter `MAGIC`, and the free values
(uninterpreted: nothing in Lean can evaluate one).
-/
namespace Sys2Proof.Config

/-- `EOS`, the sentinel symbol (R6). -/
def eos : Nat := 256

/-- `NSYM`, entries of FREQ and of CODE (R6). -/
def nsym : Nat := 257

/-- `NNODE`, entries of the node memory (R7). -/
def nnode : Nat := 513

/-- `MAXLEN`, greatest code length in bits (R7). -/
def maxlen : Nat := 256

/-- `MAGIC`, the open parameter (R7, R97, 92_eei_decisions D3). Log 2. -/
opaque magic : BitVec 32

/-- Content of entry `i` of NODE the `e`-th time a table's content becomes unspecified (R33, R46, 93 U1). Log 3. -/
opaque freeNode (e i : Nat) : NodeRec

/-- Content of entry `i` of CODE the `e`-th time a table's content becomes unspecified (R38, R46, 93 U2). Log 3. -/
opaque freeCode (e i : Nat) : CodeRec

/-- What an index outside NODE's extent reads as; no run reads one (R34(c), R63). Log 4. -/
opaque absentNode (i : Nat) : NodeRec

/-- What an index outside CODE's extent reads as; no run reads one (R63). Log 4. -/
opaque absentCode (i : Nat) : CodeRec

/-- Where a reset while BUSY leaves an input cursor (R261, 93 U5). Log 12. -/
opaque abandonedPos (e : Nat) : Nat

/-- The bits a command abandoned by a reset has appended to BOUT (R261, 93 U5). Log 12. -/
opaque abandonedBits (e : Nat) : List Bit

/-- The bytes a command abandoned by a reset has appended to SOUT (R261, 93 U5). Log 12. -/
opaque abandonedBytes (e : Nat) : List Byte

/-- A node memory whose every entry is unspecified (R33). -/
def freeNodes (e : Nat) : Vector NodeRec 513 :=
  ⟨((List.range 513).map (freeNode e)).toArray, by simp⟩

/-- A code table whose every entry is unspecified (R38). -/
def freeCodes (e : Nat) : Vector CodeRec 257 :=
  ⟨((List.range 257).map (freeCode e)).toArray, by simp⟩

end Sys2Proof.Config
end

