-- ==== Sys2Proof/Syntax.lean ====
section
/-!
DEFINITION. The instructions: one constructor per row of spec/opcode_table.json. Thirteen are the commands of 30_encoding R92,
three are the container records of R97 and R99, which the table lists beside them.
-/
namespace Sys2Proof

/-- The rows of the opcode table. -/
inductive Instr where
  /-- CLEAR, 0x01 (R200). -/
  | clear
  /-- COUNT, 0x02 (R120). -/
  | count
  /-- BUILD, 0x03 (R130). -/
  | build
  /-- DERIVE, 0x04 (R150). -/
  | derive
  /-- HDRW, 0x05 (R162). -/
  | hdrw
  /-- HDRR, 0x06 (R166). -/
  | hdrr
  /-- ENC, 0x07 (R180). -/
  | enc
  /-- DEC, 0x08 (R190). -/
  | dec
  /-- MAGW, 0x09 (R160). -/
  | magw
  /-- MAGR, 0x0A (R164). -/
  | magr
  /-- REWIND, 0x0B (R202). -/
  | rewind
  /-- COMPRESS, 0x0C (R204). -/
  | compress
  /-- DECOMPRESS, 0x0D (R206). -/
  | decompress
  /-- .MAGIC, the first field of a container: 32 bits (R97). -/
  | magicField (m : BitVec 32)
  /-- .NODE, the record of an internal node: the bit 0 (R99, format H0). -/
  | nodeRecord
  /-- .LEAF, the record of a leaf: the bit 1 and a 9-bit symbol (R99, format H1). -/
  | leafRecord (s : Sym)
deriving DecidableEq, Repr

/-- The two encoding spaces of spec 30_encoding: a word written to CMD, and the bits of a container record in stream order. -/
inductive Encoding where
  | command (w : Byte)
  | record (bits : List Bit)
deriving DecidableEq, Repr

/-- Why an encoding is no instruction, by name. -/
inductive DecodeError where
  /-- One of the 243 words outside the opcode map (R94). -/
  | illegalCommand (w : Byte)
  /-- A leaf record whose symbol field is 257 to 511 (R100). -/
  | reservedSymbol (s : Sym)
  /-- Bits that are none of the three record formats (R97, R99). -/
  | notARecord
deriving DecidableEq, Repr

end Sys2Proof
end

