-- ==== Sys2Proof/WellFormed.lean ====
section
/-!
DEFINITION. Which instructions are well formed. The commands carry no operand (R90); a leaf record's symbol is 0 to 256 (R100).
-/
namespace Sys2Proof

/-- Well-formedness; the one check is R100's on the symbol field of a leaf record. -/
def Instr.wf : Instr → Bool
  | .clear => true
  | .count => true
  | .build => true
  | .derive => true
  | .hdrw => true
  | .hdrr => true
  | .enc => true
  | .dec => true
  | .magw => true
  | .magr => true
  | .rewind => true
  | .compress => true
  | .decompress => true
  | .magicField _ => true
  | .nodeRecord => true
  | .leafRecord s => decide (s.toNat ≤ Config.eos)

end Sys2Proof
end

