-- ==== Sys2Proof/Decode.lean ====
section
/-!
DEFINITION. Decoding and, after it, encoding (spec 30_encoding). A command word is matched against all eight bits (R92, R94); a
container record is recognised by its width and tag bit (R97, R99, R100).
-/
namespace Sys2Proof

/-- `bits_n(v)`: bits n-1 down to 0 of `v`, most significant first (R10). -/
def bitsN : Nat → Nat → List Bit
  | 0, _ => []
  | n + 1, v => v.testBit n :: bitsN n v

/-- The unsigned integer a bit sequence denotes, first bit most significant (R10, R69). -/
def bitsVal (bits : List Bit) : Nat :=
  bits.foldl (fun r b => 2 * r + b.toNat) 0

/-- One row of the opcode map: the words `w` with `w &&& mask = value` are `instr` (R92). -/
structure OpRow where
  mask  : Byte
  value : Byte
  instr : Instr
deriving DecidableEq, Repr

/-- The opcode map, complete (R92). -/
def opcodeMap : List OpRow := [
  ⟨0xFF, 0x01, .clear⟩,
  ⟨0xFF, 0x02, .count⟩,
  ⟨0xFF, 0x03, .build⟩,
  ⟨0xFF, 0x04, .derive⟩,
  ⟨0xFF, 0x05, .hdrw⟩,
  ⟨0xFF, 0x06, .hdrr⟩,
  ⟨0xFF, 0x07, .enc⟩,
  ⟨0xFF, 0x08, .dec⟩,
  ⟨0xFF, 0x09, .magw⟩,
  ⟨0xFF, 0x0A, .magr⟩,
  ⟨0xFF, 0x0B, .rewind⟩,
  ⟨0xFF, 0x0C, .compress⟩,
  ⟨0xFF, 0x0D, .decompress⟩]

/-- The command a word written to CMD names; every word outside the map is illegal (R92, R94). -/
def decodeCommand (w : Byte) : Except DecodeError Instr :=
  match opcodeMap.find? (fun r => w &&& r.mask == r.value) with
  | some r => .ok r.instr
  | none => .error (.illegalCommand w)

/-- The container record a bit sequence is: format M by its 32 bits (R97), H0 and H1 by the tag bit (R99); a reserved symbol is
refused (R100). -/
def decodeRecord (bits : List Bit) : Except DecodeError Instr :=
  if bits.length = 32 then .ok (.magicField (BitVec.ofNat 32 (bitsVal bits)))
  else
    match bits with
    | [false] => .ok .nodeRecord
    | true :: field =>
      if field.length = 9 then
        if bitsVal field ≤ Config.eos then .ok (.leafRecord (BitVec.ofNat 9 (bitsVal field)))
        else .error (.reservedSymbol (BitVec.ofNat 9 (bitsVal field)))
      else .error .notARecord
    | _ => .error .notARecord

/-- The decoder, total on both encoding spaces. -/
def decode : Encoding → Except DecodeError Instr
  | .command w => decodeCommand w
  | .record bits => decodeRecord bits

/-- The encoding of an instruction, from R92's first column and R97, R99. -/
def encode : Instr → Encoding
  | .clear => .command 0x01
  | .count => .command 0x02
  | .build => .command 0x03
  | .derive => .command 0x04
  | .hdrw => .command 0x05
  | .hdrr => .command 0x06
  | .enc => .command 0x07
  | .dec => .command 0x08
  | .magw => .command 0x09
  | .magr => .command 0x0A
  | .rewind => .command 0x0B
  | .compress => .command 0x0C
  | .decompress => .command 0x0D
  | .magicField m => .record (bitsN 32 m.toNat)
  | .nodeRecord => .record [false]
  | .leafRecord s => .record (true :: bitsN 9 s.toNat)

/-- How the opcode table numbers an encoding's bits: a command word is its 8 bits, a record of `k` bits is the number whose bit
`k-1` is the first bit of the stream; none where the word has a bit above its row's. The word 0 of one byte is the row `.NODE`,
the only row it can be (log 7): written to CMD it stays illegal (`decodeCommand`). -/
def tableEncoding (nbits w : Nat) : Option Encoding :=
  if nbits ≤ 8 then
    if w = 0 then some (.record [false])
    else if w < 2 ^ 8 then some (.command (BitVec.ofNat 8 w))
    else none
  else if nbits ≤ 16 then
    if w < 2 ^ 10 then some (.record (bitsN 10 w)) else none
  else if w < 2 ^ 32 then some (.record (bitsN 32 w))
  else none

/-- The instruction the decoder reads from a word of the opcode table; none where it refuses. -/
def decodeTableWord (nbits w : Nat) : Option Instr :=
  match tableEncoding nbits w with
  | some e => (decode e).toOption
  | none => none

end Sys2Proof
end

