-- ==== Sys2Proof/Machine/State.lean ====
section
/-!
DEFINITION. The state of the block and of its environment as plain data (spec 10_state, 20_memory R65), the host's moves, the
reasons a step can stop, and the state after reset.
-/
namespace Sys2Proof.Machine

/-- STATE, the sequencer state (R23). -/
inductive Seq where
  | idle | busy | done | error
deriving DecidableEq, Repr

/-- The causes of an error (60_exceptions R231). -/
inductive ErrKind where
  | illCmd | seq | fmtMagic | fmtEosMagic | fmtEosTree | fmtEosPayload | fmtSym | fmtRootLeaf | fmtTreeOvf | noCode | cntOvf
deriving DecidableEq, Repr

/-- What a host read answers: the whole register or the whole table entry (R61, R62). -/
inductive HostData where
  | reg8 (v : BitVec 8)
  | reg32 (v : BitVec 32)
  | reg64 (v : BitVec 64)
  | freq (c : Count)
  | node (r : NodeRec)
  | code (r : CodeRec)
deriving DecidableEq, Repr

/-- One move of the host or of the environment behind a stream. -/
inductive HostAction where
  /-- Read of register number `n` (R61). -/
  | readReg (n : Nat)
  /-- Write of register number `n`; a narrower register takes the low bits (R61). Number 0 is CMD: it starts a command (R95). -/
  | writeReg (n : Nat) (v : BitVec 64)
  /-- Table accesses by index (R62). -/
  | readFreq (i : Nat)
  | writeFreq (i : Nat) (c : Count)
  | readNode (i : Nat)
  | writeNode (i : Nat) (r : NodeRec)
  | readCode (i : Nat)
  | writeCode (i : Nat) (r : CodeRec)
  /-- Hardware reset, the port `rst` (R260, R261). -/
  | reset
  /-- The SIN collaborator is presented with this content, its cursor at byte 0 (R65, R262). -/
  | presentSin (bytes : List Byte)
  /-- The BIN collaborator is presented with this content, its cursor at bit 0 (R65, R262). -/
  | presentBin (bits : List Bit)
  /-- These bits, a container record where they are one, are delivered at the end of BIN (R65; log 6, log 11). -/
  | deliver (bits : List Bit)
  /-- An empty BOUT collaborator (R262). -/
  | freshBout
  /-- An empty SOUT collaborator (R262). -/
  | freshSout
  /-- The host closes BOUT: the partial byte is flushed (R75, R272). -/
  | closeBout
  /-- The host closes SOUT (R75). -/
  | closeSout
deriving DecidableEq, Repr

/-- Why the machine stops with a fault. -/
inductive Fault where
  /-- DERIVE or HDRW: the node memory holds no tree of at most 257 levels below ROOT, so the walk has no end there. Safe: no run
  reaches it (R34, R35; log 5). -/
  | walkDoesNotEnd
deriving DecidableEq, Repr

/-- Why a step has no meaning. -/
inductive Refusal where
  /-- `exec`, for an instruction that has no meaning yet. Safe. -/
  | notModelled (mnemonic : String)
  /-- Any host access but a read of STATUS while STATE is BUSY (R64, R263, 93 U4). Safe. -/
  | accessWhileBusy
  /-- A register number above 0x0C (R47, R63, 93 U3). Safe. -/
  | noSuchRegister (n : Nat)
  /-- A table index outside the extent of R60 (R63, 93 U3). Safe. -/
  | noSuchEntry (i : Nat)
  /-- A stream's content or cursor moved by another agent while a command runs (R65, R83). Safe. -/
  | streamMoveWhileBusy
deriving DecidableEq, Repr

/-- The block (10_state), its streams (20_memory R65), and the host's pending moves. -/
structure State where
  /-- CMD (R21). -/
  cmd       : Byte
  /-- STATE (R23). -/
  seq       : Seq
  /-- TREE_VALID (R39). -/
  treeValid : Bool
  /-- CODE_VALID (R40). -/
  codeValid : Bool
  /-- CTRL[0] = IE; the other bits of CTRL hold nothing (R25). -/
  ie        : Bool
  /-- ERR[7:0]; the other bits of ERR read zero (R26). -/
  err       : BitVec 8
  /-- EINFO (R27). -/
  einfo     : BitVec 32
  /-- ROOT[9:0]; the other bits read zero (R28). -/
  root      : NodeIdx
  /-- NCOUNT[9:0]; the other bits read zero (R28). -/
  ncount    : BitVec 10
  /-- CUR[9:0]; the other bits read zero (R29). -/
  cur       : NodeIdx
  /-- SIN_CNT, BIN_CNT, BOUT_CNT, SOUT_CNT (R41). -/
  sinCnt    : BitVec 64
  binCnt    : BitVec 64
  boutCnt   : BitVec 64
  soutCnt   : BitVec 64
  /-- MAGIC: the parameter this block is configured with; no step writes it (R42, R7; log 2). -/
  magic     : BitVec 32
  /-- FREQ[0] to FREQ[255] (R30); FREQ[256] is hard-wired (R31). -/
  freq      : Vector Count 256
  /-- NODE (R32). -/
  node      : Vector NodeRec 513
  /-- CODE (R37). -/
  code      : Vector CodeRec 257
  /-- PQ, BUILD's hidden working set of node indices (R43). -/
  pq        : List NodeIdx
  /-- SIN: content and cursor (R65). -/
  sin       : List Byte
  sinPos    : Nat
  /-- BIN: content and cursor (R65). -/
  bin       : List Bit
  binPos    : Nat
  /-- BOUT and SOUT: what has been written (R65). -/
  bout      : List Bit
  sout      : List Byte
  /-- The host's moves still to come, the next one first (R16, R107; log 8). -/
  host      : List HostAction
  /-- What the last host read answered (R61, R62; log 9). -/
  hostData  : Option HostData
  /-- Selects the free values (log 3): the model's own field. -/
  freeCtr   : Nat
deriving DecidableEq, Repr

/-- The state after reset (R46, R260), with nothing on the streams (log 10) and no host move pending (log 8). -/
def State.reset : State where
  cmd := 0
  seq := .idle
  treeValid := false
  codeValid := false
  ie := false
  err := 0
  einfo := 0
  root := 0
  ncount := 0
  cur := 0
  sinCnt := 0
  binCnt := 0
  boutCnt := 0
  soutCnt := 0
  magic := Config.magic
  freq := Vector.replicate 256 0
  node := Config.freeNodes 0
  code := Config.freeCodes 1
  pq := []
  sin := []
  sinPos := 0
  bin := []
  binPos := 0
  bout := []
  sout := []
  host := []
  hostData := none
  freeCtr := 2

end Sys2Proof.Machine
end

