-- ==== Sys2Proof/Machine/Operands.lean ====
section
/-!
DEFINITION. How data is reached (spec 20_memory): the three tables by index and the seven stream primitives, with the bit groups
of R69 and R71 and the byte packing of R74. The commands have no other operand form (R90).
-/
namespace Sys2Proof.Machine

/-! ## Tables (R11, R30 to R38) -/

/-- `FREQ[i]`; entry 256 is hard-wired to 1 (R31). Every index from 256 on answers 1; only 256 is asked for. -/
def State.freqAt (s : State) (i : Nat) : Count :=
  if h : i < 256 then s.freq[i] else 1

/-- `FREQ[i] <- c`; a write of entry 256 is ignored (R31). -/
def State.setFreq (s : State) (i : Nat) (c : Count) : State :=
  { s with freq := s.freq.setIfInBounds i c }

/-- `NODE[i]`; an index that does not exist reads as a free value (log 4). -/
def State.nodeAt (s : State) (i : NodeIdx) : NodeRec :=
  if h : i.toNat < 513 then s.node[i.toNat] else Config.absentNode i.toNat

/-- `NODE[i] <- r`. -/
def State.setNode (s : State) (i : NodeIdx) (r : NodeRec) : State :=
  { s with node := s.node.setIfInBounds i.toNat r }

/-- `CODE[i]`; an index that does not exist reads as a free value (log 4). -/
def State.codeAt (s : State) (i : Nat) : CodeRec :=
  if h : i < 257 then s.code[i] else Config.absentCode i

/-- `CODE[i] <- r`. -/
def State.setCode (s : State) (i : Nat) (r : CodeRec) : State :=
  { s with code := s.code.setIfInBounds i r }

/-- The node record of a leaf as BUILD and HDRR write it (R32: children 0). -/
def leafRec (sym : Sym) (weight : Weight) : NodeRec :=
  { leaf := true, sym := sym, weight := weight, left := 0, right := 0 }

/-- The node record of an internal node as BUILD and HDRR write it (R32: symbol 0). -/
def internalRec (weight : Weight) (left right : NodeIdx) : NodeRec :=
  { leaf := false, sym := 0, weight := weight, left := left, right := right }

/-! ## SIN (R66, R67) -/

/-- The bytes of SIN from the cursor on. -/
def State.sinRest (s : State) : List Byte := s.sin.drop s.sinPos

/-- The cursor and the counter move past one byte. -/
def State.advanceSin (s : State) : State :=
  { s with sinPos := s.sinPos + 1, sinCnt := s.sinCnt + 1 }

/-- `SymRead()` (R66); `none` is END. -/
def State.symRead (s : State) : Option Byte × State :=
  match s.sinRest with
  | [] => (none, s)
  | x :: _ => (some x, s.advanceSin)

/-- `SymRewind()` (R67). -/
def State.symRewind (s : State) : State :=
  { s with sinPos := 0, sinCnt := 0 }

/-! ## BIN (R68, R69) -/

/-- The bits of BIN from the cursor on. -/
def State.binRest (s : State) : List Bit := s.bin.drop s.binPos

/-- The cursor and the counter move past one bit. -/
def State.advanceBin (s : State) : State :=
  { s with binPos := s.binPos + 1, binCnt := s.binCnt + 1 }

/-- `BitRead()` (R68); `none` is END. -/
def State.bitRead (s : State) : Option Bit × State :=
  match s.binRest with
  | [] => (none, s)
  | b :: _ => (some b, s.advanceBin)

/-- What a group read answers. -/
inductive BitsResult where
  /-- The unsigned integer read (R69). -/
  | value (v : Nat) (s : State)
  /-- END, after `k` bits of the group had been read. -/
  | ended (k : Nat) (s : State)

/-- The loop of `BitsRead`: `m` bits still to read, `k` read so far, `r` their value (R69). -/
def bitsReadFrom : Nat → Nat → Nat → State → BitsResult
  | 0, _, r, s => .value r s
  | m + 1, k, r, s =>
    match s.bitRead with
    | (none, s') => .ended k s'
    | (some b, s') => bitsReadFrom m (k + 1) (2 * r + b.toNat) s'

/-- `BitsRead(n)` (R69). -/
def State.bitsRead (s : State) (n : Nat) : BitsResult := bitsReadFrom n 0 0 s

/-! ## BOUT and SOUT (R70, R71, R72) -/

/-- `BitWrite(b)` (R70). -/
def State.bitWrite (s : State) (b : Bit) : State :=
  { s with bout := s.bout ++ [b], boutCnt := s.boutCnt + 1 }

/-- `BitsWrite(n, v)`: bit-serial, most significant bit first (R71). -/
def State.bitsWrite (s : State) (n v : Nat) : State :=
  (bitsN n v).foldl State.bitWrite s

/-- `SymWrite(b)` (R72). -/
def State.symWrite (s : State) (b : Byte) : State :=
  { s with sout := s.sout ++ [b], soutCnt := s.soutCnt + 1 }

/-! ## Bits in bytes (R74) -/

/-- How many zero bits the last byte is filled up with (R74). -/
def padLen (q : List Bit) : Nat := (8 - q.length % 8) % 8

/-- `q` followed by its padding (R74). -/
def padded (q : List Bit) : List Bit := q ++ List.replicate (padLen q) false

/-- The first `n` bytes of a bit sequence, the first bit of each in its bit 7. -/
def packBytes : Nat → List Bit → List Byte
  | 0, _ => []
  | n + 1, q => BitVec.ofNat 8 (bitsVal (q.take 8)) :: packBytes n (q.drop 8)

/-- `Pack(q)` (R74). -/
def pack (q : List Bit) : List Byte := packBytes ((padded q).length / 8) (padded q)

/-- `Unpack(B)` (R74). -/
def unpack (bytes : List Byte) : List Bit := bytes.flatMap (fun b => bitsN 8 b.toNat)

end Sys2Proof.Machine
end

