-- ==== Sys2Proof/Machine/Flags.lean ====
section
/-!
DEFINITION. The flags: the two valid flags with what their clearing does to the tables, the interrupt output, and the registers
put together from fields (spec 10_state R22, R25 to R29, R39, R40; 60_exceptions R247). There are no condition codes (R40).
-/
namespace Sys2Proof.Machine

/-- The encoding of STATE in STATUS[1:0] (R23). -/
def Seq.code : Seq → BitVec 2
  | .idle => 0
  | .busy => 1
  | .done => 2
  | .error => 3

/-- The interrupt output: IE and STATE one of DONE, ERROR (R247). -/
def State.irq (s : State) : Bool :=
  s.ie && (s.seq == .done || s.seq == .error)

/-- STATUS: STATE in bits 1:0, TREE_VALID 2, CODE_VALID 3, IRQ 4, the rest zero (R22). -/
def State.status (s : State) : BitVec 32 :=
  (BitVec.ofBool s.irq ++ BitVec.ofBool s.codeValid ++ BitVec.ofBool s.treeValid ++ s.seq.code).setWidth 32

/-- CTRL as it reads: bit 0 is IE, the reserved bits are zero (R25). -/
def State.ctrl (s : State) : BitVec 32 := (BitVec.ofBool s.ie).setWidth 32

/-- A write of CTRL: only bit 0 is stored (R25). -/
def State.writeCtrl (s : State) (v : BitVec 32) : State := { s with ie := v.getLsbD 0 }

/-- `TREE_VALID <- 0`: every NODE entry becomes unspecified (R33, R39; log 3). -/
def State.dropTree (s : State) : State :=
  { s with treeValid := false, node := Config.freeNodes s.freeCtr, freeCtr := s.freeCtr + 1 }

/-- `CODE_VALID <- 0`: every CODE entry becomes unspecified (R38, R40; log 3). -/
def State.dropCodes (s : State) : State :=
  { s with codeValid := false, code := Config.freeCodes s.freeCtr, freeCtr := s.freeCtr + 1 }

end Sys2Proof.Machine
end

