-- ==== Sys2Proof/Machine/Ops.lean ====
section
/-!
DEFINITION. The shared operations: raising an error and the return from it, what a hardware reset does, accepting and running a
command (spec 60_exceptions R231 to R243, 70_reset R260, R261, 30_encoding R95, 46_orchestration R200).
-/
namespace Sys2Proof.Machine

/-- The error codes (R231). -/
def ErrKind.code : ErrKind → BitVec 8
  | .illCmd => 0x01
  | .seq => 0x02
  | .fmtMagic => 0x10
  | .fmtEosMagic => 0x11
  | .fmtEosTree => 0x12
  | .fmtEosPayload => 0x13
  | .fmtSym => 0x14
  | .fmtRootLeaf => 0x15
  | .fmtTreeOvf => 0x16
  | .noCode => 0x20
  | .cntOvf => 0x21

/-- `raise E(info)`, the one error entry: ERR, EINFO, STATE, and nothing else (R13, R240). -/
def State.raiseError (s : State) (e : ErrKind) (info : BitVec 32) : State :=
  { s with err := e.code, einfo := info, seq := .error }

/-- The registers, tables and flags of the block at their reset values, but for CTRL (R46, R200). -/
def State.clearBlock (s : State) : State :=
  { s.dropTree.dropCodes with
    cmd := 0, err := 0, einfo := 0, root := 0, ncount := 0, cur := 0,
    sinCnt := 0, binCnt := 0, boutCnt := 0, soutCnt := 0,
    freq := Vector.replicate 256 0, pq := [] }

/-- What a reset leaves of the streams of a command it abandons: input cursors somewhere inside the content, some output
appended (R261, 93 U5; log 12). -/
def State.abandonStreams (s : State) : State :=
  { s with
    sinPos := Config.abandonedPos s.freeCtr % (s.sin.length + 1),
    binPos := Config.abandonedPos (s.freeCtr + 1) % (s.bin.length + 1),
    bout := s.bout ++ Config.abandonedBits s.freeCtr,
    sout := s.sout ++ Config.abandonedBytes s.freeCtr,
    freeCtr := s.freeCtr + 2 }

/-- Hardware reset in any STATE (R260, R277); the collaborators are not reset (R261). -/
def State.hardReset (s : State) : State :=
  let s' := if s.seq = .busy then s.abandonStreams else s
  { s'.clearBlock with seq := .idle, ie := false }

/-- What the steps of a command come to. -/
inductive Run where
  /-- All steps ran. -/
  | ok (s : State)
  /-- A step raised; `s` is the state the steps before it made (R241). -/
  | raised (e : ErrKind) (info : BitVec 32) (s : State)
  /-- A tree walk without an end (log 5). -/
  | stuck

/-- One part of a command after another; the first raise ends it (R208, R238). -/
def Run.andThen (r : Run) (f : State → Run) : Run :=
  match r with
  | .ok s => f s
  | .raised e info s => .raised e info s
  | .stuck => .stuck

/-- The end of command `w`: STATE is IDLE after CLEAR, DONE after any other, ERROR after a raise (R95, R240). -/
def finish (w : Byte) (r : Run) : Host.Outcome State Fault Refusal :=
  match r with
  | .ok s => .next { s with seq := if w = 0x01 then .idle else .done }
  | .raised e info s => .next (s.raiseError e info)
  | .stuck => .fault .walkDoesNotEnd

/-- A command word accepted: CMD and STATE are written, the precondition is checked, the steps run (R95, R235). -/
def accept (w : Byte) (pre : State → Bool) (body : State → Run) (s : State) : Host.Outcome State Fault Refusal :=
  let s' := { s with cmd := w, seq := .busy }
  if pre s' then finish w (body s') else .next (s'.raiseError .seq (w.setWidth 32))

/-- A command word written to CMD, by the STATE it meets (R95, R64, R244). -/
def runCommand (w : Byte) (pre : State → Bool) (body : State → Run) (s : State) : Host.Outcome State Fault Refusal :=
  match s.seq with
  | .busy => .refused .accessWhileBusy
  | .error => if w = 0x01 then accept w pre body s else .next s
  | .idle => accept w pre body s
  | .done => accept w pre body s

/-- The precondition of a command that has none (R235). -/
def always (_ : State) : Bool := true

/-- An illegal command word (R94, R95): accepted, and E_ILLCMD with the word. -/
def illegalCommand (w : Byte) (s : State) : Host.Outcome State Fault Refusal :=
  runCommand w always (fun t => .raised .illCmd (w.setWidth 32) t) s

/-- Bits delivered at the end of BIN by the environment (R65; log 6, log 11). -/
def deliverBits (bits : List Bit) (s : State) : Host.Outcome State Fault Refusal :=
  if s.seq = .busy then .refused .streamMoveWhileBusy else .next { s with bin := s.bin ++ bits }

end Sys2Proof.Machine
end

