-- ==== Sys2Proof/Machine/Builder.lean ====
section
/-!
DEFINITION. BUILD, the tree builder (spec 41_tree_builder R130 to R140). PQ is a list of node indices; any structure with the
same extraction order conforms (R137).
-/
namespace Sys2Proof.Machine

/-- `PQ.insert(i)` (R130). -/
def State.pqInsert (s : State) (i : NodeIdx) : State := { s with pq := i :: s.pq }

/-- The extraction order: the lower weight first, among equal weights the lower index (R132). -/
def State.keyLt (s : State) (i j : NodeIdx) : Bool :=
  decide ((s.nodeAt i).weight < (s.nodeAt j).weight) ||
    ((s.nodeAt i).weight == (s.nodeAt j).weight && decide (i < j))

/-- The index of least key in PQ (R132). -/
def State.pqMin (s : State) : Option NodeIdx :=
  match s.pq with
  | [] => none
  | i :: rest => some (rest.foldl (fun m j => if s.keyLt j m then j else m) i)

/-- `PQ.extractMin()` (R132); none where PQ is empty. -/
def State.extractMin (s : State) : Option (NodeIdx × State) :=
  match s.pqMin with
  | none => none
  | some i => some (i, { s with pq := s.pq.erase i })

/-- The leaves, one for each listed symbol whose count is not zero, on the indices from `n` on; answers the next free index
(R131). -/
def buildLeaves : List Nat → Nat → State → Nat × State
  | [], n, s => (n, s)
  | x :: xs, n, s =>
    if s.freqAt x = 0 then buildLeaves xs n s
    else
      buildLeaves xs (n + 1)
        ((s.setNode (BitVec.ofNat 10 n) (leafRec (BitVec.ofNat 9 x) ((s.freqAt x).setWidth 41))).pqInsert (BitVec.ofNat 10 n))

/-- The second sentinel leaf where the scan made one leaf only (R134). -/
def buildGuard (n : Nat) (s : State) : Nat × State :=
  if n = 1 then (2, (s.setNode 1 (leafRec 256 0)).pqInsert 1) else (n, s)

/-- The merge loop, while PQ holds more than one index; the first extracted is the left child (R133). The first argument bounds
the passes: each leaves PQ one shorter (R135). -/
def buildMerge : Nat → Nat → State → Nat × State
  | 0, n, s => (n, s)
  | fuel + 1, n, s =>
    match s.extractMin with
    | none => (n, s)
    | some (a, s1) =>
      match s1.extractMin with
      | none => (n, s)
      | some (b, s2) =>
        buildMerge fuel (n + 1)
          ((s2.setNode (BitVec.ofNat 10 n)
            (internalRec ((s2.nodeAt a).weight + (s2.nodeAt b).weight) a b)).pqInsert (BitVec.ofNat 10 n))

/-- The end of BUILD: ROOT, NCOUNT, TREE_VALID (R130). PQ is never empty here, since the sentinel always has a leaf (R131). -/
def buildEnd (n : Nat) (s : State) : State :=
  match s.extractMin with
  | none => { s with ncount := BitVec.ofNat 10 n, treeValid := true }
  | some (r, s') => { s' with root := r, ncount := BitVec.ofNat 10 n, treeValid := true }

/-- The steps of BUILD (R130). -/
def buildBody (s : State) : Run :=
  let leaves := buildLeaves (List.range Config.nsym) 0 { s.dropTree.dropCodes with pq := [] }
  let guarded := buildGuard leaves.1 leaves.2
  let merged := buildMerge guarded.2.pq.length guarded.1 guarded.2
  .ok (buildEnd merged.1 merged.2)

/-- BUILD, 0x03 (R130). -/
def execBuild (s : State) : Host.Outcome State Fault Refusal := runCommand 0x03 always buildBody s

end Sys2Proof.Machine
end

