-- ==== Sys2Proof/Machine/Counter.lean ====
section
/-!
DEFINITION. COUNT, the frequency counter (spec 40_frequency_counter R120 to R123).
-/
namespace Sys2Proof.Machine

/-- The loop of COUNT over the bytes SIN still holds; the empty list is the END answer (R120). A count of 2^32 - 1 is tested
before the increment, so none wraps (R123). -/
def countLoop : List Byte → State → Run
  | [], s => .ok s
  | x :: xs, s =>
    let s := s.advanceSin
    if s.freqAt x.toNat = BitVec.allOnes 32 then .raised .cntOvf (x.setWidth 32) s
    else countLoop xs (s.setFreq x.toNat (s.freqAt x.toNat + 1))

/-- The steps of COUNT (R120). -/
def countBody (s : State) : Run :=
  countLoop s.sinRest { s with freq := Vector.replicate 256 0 }

/-- COUNT, 0x02 (R120). -/
def execCount (s : State) : Host.Outcome State Fault Refusal := runCommand 0x02 always countBody s

end Sys2Proof.Machine
end

