-- ==== Sys2Proof/Machine/Deriver.lean ====
section
/-!
DEFINITION. DERIVE, the code-table deriver (spec 42_code_table_deriver R150 to R156).
-/
namespace Sys2Proof.Machine

/-- The levels a tree can have: depth at most 256 (R35), so 257 with the root's. -/
def walkLevels : Nat := Config.maxlen + 1

/-- `walk(i, len, val)`: left first with bit 0, then right with bit 1 (R150). The first argument bounds the levels (log 5). -/
def walk : Nat → NodeIdx → CodeLen → CodeVal → State → Run
  | 0, _, _, _, _ => .stuck
  | levels + 1, i, len, val, s =>
    if (s.nodeAt i).leaf then .ok (s.setCode (s.nodeAt i).sym.toNat { len := len, val := val })
    else
      (walk levels (s.nodeAt i).left (len + 1) (val <<< 1) s).andThen
        (walk levels (s.nodeAt i).right (len + 1) (val <<< 1 ||| 1))

/-- The steps of DERIVE (R150). -/
def deriveBody (s : State) : Run :=
  (walk walkLevels s.root 0 0 { s.dropCodes with code := Vector.replicate 257 { len := 0, val := 0 } }).andThen
    (fun t => .ok { t with codeValid := true })

/-- DERIVE, 0x04 (R150). -/
def execDerive (s : State) : Host.Outcome State Fault Refusal := runCommand 0x04 State.treeValid deriveBody s

end Sys2Proof.Machine
end

