-- ==== Sys2Proof/Machine/Header.lean ====
section
/-!
DEFINITION. The header codec: MAGW, HDRW, MAGR, HDRR (spec 43_header_codec R160 to R172), and the container records of
30_encoding R97, R99 as items delivered on BIN (log 6).
-/
namespace Sys2Proof.Machine

/-- The steps of MAGW (R160). -/
def magwBody (s : State) : Run := .ok (s.bitsWrite 32 s.magic.toNat)

/-- MAGW, 0x09 (R160). -/
def execMagw (s : State) : Host.Outcome State Fault Refusal := runCommand 0x09 always magwBody s

/-- `emit(i)`: pre-order, 1 and the symbol for a leaf, 0 for an internal node (R162). The first argument bounds the levels
(log 5). -/
def emit : Nat → NodeIdx → State → Run
  | 0, _, _ => .stuck
  | levels + 1, i, s =>
    if (s.nodeAt i).leaf then .ok ((s.bitWrite true).bitsWrite 9 (s.nodeAt i).sym.toNat)
    else
      (emit levels (s.nodeAt i).left (s.bitWrite false)).andThen
        (emit levels (s.nodeAt i).right)

/-- The steps of HDRW (R162). -/
def hdrwBody (s : State) : Run := emit walkLevels s.root s

/-- HDRW, 0x05 (R162). -/
def execHdrw (s : State) : Host.Outcome State Fault Refusal := runCommand 0x05 State.treeValid hdrwBody s

/-- The steps of MAGR (R164); the end of the stream is found before the comparison (R238). -/
def magrBody (s : State) : Run :=
  match s.bitsRead 32 with
  | .ended k t => .raised .fmtEosMagic (BitVec.ofNat 32 k) t
  | .value v t =>
    if BitVec.ofNat 32 v = t.magic then .ok t else .raised .fmtMagic (BitVec.ofNat 32 v) t

/-- MAGR, 0x0A (R164). -/
def execMagr (s : State) : Host.Outcome State Fault Refusal := runCommand 0x0A always magrBody s

/-- What `rd()` comes to. -/
inductive RdResult where
  /-- The index of the node read, and the number of nodes allocated. -/
  | ok (i : NodeIdx) (n : Nat) (s : State)
  | raised (e : ErrKind) (info : BitVec 32) (s : State)

/-- `rd()` with `n` nodes allocated so far; the checks in the order of R170 (R166). The first argument bounds the levels: on
level 514 all 513 nodes are allocated, so the capacity check has ended the read before (R172; log 5). -/
def rd : Nat → Nat → State → RdResult
  | 0, _, s => .raised .fmtTreeOvf 513 s
  | levels + 1, n, s =>
    match s.bitRead with
    | (none, s1) => .raised .fmtEosTree (BitVec.ofNat 32 n) s1
    | (some tag, s1) =>
      if n = Config.nnode then .raised .fmtTreeOvf 513 s1
      else if tag then
        match s1.bitsRead 9 with
        | .ended _ s2 => .raised .fmtEosTree (BitVec.ofNat 32 (n + 1)) s2
        | .value v s2 =>
          if Config.eos < v then .raised .fmtSym (BitVec.ofNat 32 v) s2
          else .ok (BitVec.ofNat 10 n) (n + 1) (s2.setNode (BitVec.ofNat 10 n) (leafRec (BitVec.ofNat 9 v) 0))
      else
        match rd levels (n + 1) s1 with
        | .raised e info s2 => .raised e info s2
        | .ok l n2 s2 =>
          match rd levels n2 s2 with
          | .raised e info s3 => .raised e info s3
          | .ok r n3 s3 => .ok (BitVec.ofNat 10 n) n3 (s3.setNode (BitVec.ofNat 10 n) (internalRec 0 l r))

/-- The steps of HDRR (R166); after any of its errors NODE is unspecified (R241, 93 U6). -/
def hdrrBody (s : State) : Run :=
  match rd (Config.nnode + 1) 0 s.dropTree.dropCodes with
  | .raised e info t => .raised e info t.dropTree
  | .ok r n t =>
    if (t.nodeAt r).leaf then .raised .fmtRootLeaf ((t.nodeAt r).sym.setWidth 32) t.dropTree
    else .ok { t with root := r, ncount := BitVec.ofNat 10 n, treeValid := true }

/-- HDRR, 0x06 (R166). -/
def execHdrr (s : State) : Host.Outcome State Fault Refusal := runCommand 0x06 always hdrrBody s

/-- .MAGIC: the field is delivered on BIN (R97; log 6). -/
def execMagicField (m : BitVec 32) (s : State) : Host.Outcome State Fault Refusal := deliverBits (bitsN 32 m.toNat) s

/-- .NODE: the record is delivered on BIN (R99; log 6). -/
def execNodeRecord (s : State) : Host.Outcome State Fault Refusal := deliverBits [false] s

/-- .LEAF: the record is delivered on BIN (R99; log 6). -/
def execLeafRecord (sym : Sym) (s : State) : Host.Outcome State Fault Refusal := deliverBits (true :: bitsN 9 sym.toNat) s

end Sys2Proof.Machine
end

