-- ==== Sys2Proof/Machine/Payload.lean ====
section
/-!
DEFINITION. The payload codec: ENC (spec 44_payload_encoder R180 to R183) and DEC (spec 45_payload_decoder R190 to R196).
-/
namespace Sys2Proof.Machine

/-- The code of symbol `x` written to BOUT, or E_NOCODE where it has none (R180, R104). -/
def writeCode (x : Nat) (s : State) : Run :=
  if (s.codeAt x).len = 0 then .raised .noCode (BitVec.ofNat 32 x) s
  else .ok (s.bitsWrite (s.codeAt x).len.toNat (s.codeAt x).val.toNat)

/-- The loop of ENC over the bytes SIN still holds, and the sentinel's code at END (R180). -/
def encLoop : List Byte → State → Run
  | [], s => writeCode Config.eos s
  | x :: xs, s => (writeCode x.toNat s.advanceSin).andThen (encLoop xs)

/-- The steps of ENC (R180). -/
def encBody (s : State) : Run := encLoop s.sinRest s

/-- ENC, 0x07 (R180). -/
def execEnc (s : State) : Host.Outcome State Fault Refusal := runCommand 0x07 State.codeValid encBody s

/-- `CUR <- i` (R29). -/
def State.setCur (s : State) (i : NodeIdx) : State := { s with cur := i }

/-- One tree step from CUR: 0 to the left child, 1 to the right (R190, R191). -/
def State.stepCur (s : State) (b : Bit) : State :=
  s.setCur (if b then (s.nodeAt s.cur).right else (s.nodeAt s.cur).left)

/-- The loop of DEC over the bits BIN still holds; the empty list is the END answer (R190). -/
def decLoop : List Bit → State → Run
  | [], s => .raised .fmtEosPayload (s.cur.setWidth 32) s
  | b :: bs, s =>
    let t := s.advanceBin.stepCur b
    if (t.nodeAt t.cur).leaf then
      if (t.nodeAt t.cur).sym = 256 then .ok t
      else decLoop bs ((t.symWrite ((t.nodeAt t.cur).sym.setWidth 8)).setCur t.root)
    else decLoop bs t

/-- The steps of DEC (R190). -/
def decBody (s : State) : Run := decLoop s.binRest (s.setCur s.root)

/-- DEC, 0x08 (R190). -/
def execDec (s : State) : Host.Outcome State Fault Refusal := runCommand 0x08 State.treeValid decBody s

end Sys2Proof.Machine
end

