-- ==== Sys2Proof/Machine/System.lean ====
section
/-!
DEFINITION. CLEAR and REWIND (spec 46_orchestration R200, R202).
-/
namespace Sys2Proof.Machine

/-- The steps of CLEAR (R200): the return from an error (R243). -/
def clearBody (s : State) : Run := .ok s.clearBlock

/-- CLEAR, 0x01 (R200). -/
def execClear (s : State) : Host.Outcome State Fault Refusal := runCommand 0x01 always clearBody s

/-- The steps of REWIND (R202). -/
def rewindBody (s : State) : Run := .ok s.symRewind

/-- REWIND, 0x0B (R202). -/
def execRewind (s : State) : Host.Outcome State Fault Refusal := runCommand 0x0B always rewindBody s

end Sys2Proof.Machine
end

