-- ==== Sys2Proof/Machine/Sequences.lean ====
section
/-!
DEFINITION. COMPRESS and DECOMPRESS: the steps of other commands run in place (spec 46_orchestration R204 to R208).
-/
namespace Sys2Proof.Machine

/-- The steps of COMPRESS (R204). -/
def compressBody (s : State) : Run :=
  ((((((countBody s).andThen buildBody).andThen deriveBody).andThen magwBody).andThen hdrwBody).andThen rewindBody).andThen encBody

/-- COMPRESS, 0x0C (R204). -/
def execCompress (s : State) : Host.Outcome State Fault Refusal := runCommand 0x0C always compressBody s

/-- The steps of DECOMPRESS (R206). -/
def decompressBody (s : State) : Run :=
  ((magrBody s).andThen hdrrBody).andThen decBody

/-- DECOMPRESS, 0x0D (R206). -/
def execDecompress (s : State) : Host.Outcome State Fault Refusal := runCommand 0x0D always decompressBody s

end Sys2Proof.Machine
end

