-- ==== Sys2Proof/Machine/Dispatch.lean ====
section
/-!
DEFINITION. The dispatch: one arm per constructor of Instr (spec 30_encoding R92, R99).
-/
namespace Sys2Proof.Machine

def exec (i : Instr) (s : State) : Host.Outcome State Fault Refusal :=
  match i with
  | .clear => Sys2Proof.Machine.execClear s
  | .count => Sys2Proof.Machine.execCount s
  | .build => Sys2Proof.Machine.execBuild s
  | .derive => Sys2Proof.Machine.execDerive s
  | .hdrw => Sys2Proof.Machine.execHdrw s
  | .hdrr => Sys2Proof.Machine.execHdrr s
  | .enc => Sys2Proof.Machine.execEnc s
  | .dec => Sys2Proof.Machine.execDec s
  | .magw => Sys2Proof.Machine.execMagw s
  | .magr => Sys2Proof.Machine.execMagr s
  | .rewind => Sys2Proof.Machine.execRewind s
  | .compress => Sys2Proof.Machine.execCompress s
  | .decompress => Sys2Proof.Machine.execDecompress s
  | .magicField m => Sys2Proof.Machine.execMagicField m s
  | .nodeRecord => Sys2Proof.Machine.execNodeRecord s
  | .leafRecord sym => Sys2Proof.Machine.execLeafRecord sym s

end Sys2Proof.Machine
end

