-- ==== Sys2Proof/Machine/HostPort.lean ====
section
/-!
DEFINITION. The host port and the environment's moves (spec 20_memory R61 to R65, R75, 10_state R47, 70_reset R260 to R263).
-/
namespace Sys2Proof.Machine

/-- What a read of register `n` answers (R47); none where there is no such register. -/
def State.readReg (s : State) (n : Nat) : Option HostData :=
  match n with
  | 0x00 => some (.reg8 s.cmd)
  | 0x01 => some (.reg32 s.status)
  | 0x02 => some (.reg32 s.ctrl)
  | 0x03 => some (.reg32 (s.err.setWidth 32))
  | 0x04 => some (.reg32 s.einfo)
  | 0x05 => some (.reg32 (s.root.setWidth 32))
  | 0x06 => some (.reg32 (s.ncount.setWidth 32))
  | 0x07 => some (.reg32 (s.cur.setWidth 32))
  | 0x08 => some (.reg64 s.sinCnt)
  | 0x09 => some (.reg64 s.binCnt)
  | 0x0A => some (.reg64 s.boutCnt)
  | 0x0B => some (.reg64 s.soutCnt)
  | 0x0C => some (.reg32 s.magic)
  | _ => none

/-- A command word written to CMD: the decoded command's meaning, or E_ILLCMD (R95). -/
def writeCmd (w : Byte) (s : State) : Host.Outcome State Fault Refusal :=
  match decodeCommand w with
  | .ok i => exec i s
  | .error _ => illegalCommand w s

/-- A write of register `n` (R61): CMD starts a command, CTRL is stored, the others are read-only and ignore it. -/
def writeReg (n : Nat) (v : BitVec 64) (s : State) : Host.Outcome State Fault Refusal :=
  if s.seq = .busy then .refused .accessWhileBusy
  else if n = 0x00 then writeCmd (v.setWidth 8) s
  else if n = 0x02 then .next (s.writeCtrl (v.setWidth 32))
  else if n ≤ 0x0C then .next s
  else .refused (.noSuchRegister n)

/-- A read of register `n`: STATUS in every STATE, the others in every STATE but BUSY (R64). -/
def readReg (n : Nat) (s : State) : Host.Outcome State Fault Refusal :=
  if s.seq = .busy ∧ n ≠ 0x01 then .refused .accessWhileBusy
  else
    match s.readReg n with
    | some d => .next { s with hostData := some d }
    | none => .refused (.noSuchRegister n)

/-- An access to entry `i` of a table of `size` entries that does `f` (R62, R63, R64). -/
def tableAccess (size i : Nat) (f : State → State) (s : State) : Host.Outcome State Fault Refusal :=
  if s.seq = .busy then .refused .accessWhileBusy
  else if i < size then .next (f s)
  else .refused (.noSuchEntry i)

/-- A host write of FREQ: ignored for entry 256 (R31) and in ERROR (R64). -/
def State.hostSetFreq (s : State) (i : Nat) (c : Count) : State :=
  if s.seq = .error then s else s.setFreq i c

/-- A move of the environment on a stream; none while a command runs (R65, R83). -/
def streamMove (f : State → State) (s : State) : Host.Outcome State Fault Refusal :=
  if s.seq = .busy then .refused .streamMoveWhileBusy else .next (f s)

/-- Bits delivered at the end of BIN: a container record's meaning where they are one (R97, R99; log 6). -/
def deliver (bits : List Bit) (s : State) : Host.Outcome State Fault Refusal :=
  match decodeRecord bits with
  | .ok i => exec i s
  | .error _ => deliverBits bits s

/-- One move of the host or the environment. -/
def hostMove (a : HostAction) (s : State) : Host.Outcome State Fault Refusal :=
  match a with
  | .readReg n => readReg n s
  | .writeReg n v => writeReg n v s
  | .readFreq i => tableAccess Config.nsym i (fun t => { t with hostData := some (.freq (t.freqAt i)) }) s
  | .writeFreq i c => tableAccess Config.nsym i (fun t => t.hostSetFreq i c) s
  | .readNode i => tableAccess Config.nnode i (fun t => { t with hostData := some (.node (t.nodeAt (BitVec.ofNat 10 i))) }) s
  | .writeNode i _ => tableAccess Config.nnode i (fun t => t) s
  | .readCode i => tableAccess Config.nsym i (fun t => { t with hostData := some (.code (t.codeAt i)) }) s
  | .writeCode i _ => tableAccess Config.nsym i (fun t => t) s
  | .reset => .next s.hardReset
  | .presentSin bytes => streamMove (fun t => { t with sin := bytes, sinPos := 0 }) s
  | .presentBin bits => streamMove (fun t => { t with bin := bits, binPos := 0 }) s
  | .deliver bits => deliver bits s
  | .freshBout => streamMove (fun t => { t with bout := [] }) s
  | .freshSout => streamMove (fun t => { t with sout := [] }) s
  | .closeBout => streamMove (fun t => { t with bout := padded t.bout }) s
  | .closeSout => streamMove (fun t => t) s

/-- The host's move that carries an encoding: a write of CMD, or a delivery on BIN. -/
def moveOf : Encoding → HostAction
  | .command w => .writeReg 0x00 (w.setWidth 64)
  | .record bits => .deliver bits

/-- The state whose next host move is the given word of the opcode table; the state itself where the table has no such word. -/
def State.placeWord (s : State) (nbits w : Nat) : State :=
  match tableEncoding nbits w with
  | some e => { s with host := moveOf e :: s.host }
  | none => s

end Sys2Proof.Machine
end

