-- ==== Sys2Proof/Machine/Step.lean ====
section
/-!
DEFINITION. One step: the first of the host's pending moves. There is no program counter (spec 10_state R24): the host orders the
commands, and with none pending the block does nothing (70_reset R260; log 8, log 16).
-/
namespace Sys2Proof.Machine

/-- One step of the block with its host (R16, R95). -/
def step (s : State) : Host.Outcome State Fault Refusal :=
  match s.host with
  | [] => .next s
  | a :: rest => hostMove a { s with host := rest }

/-- The state whose next step runs the given word of the opcode table (log 16). -/
def State.withFetchWord (s : State) (nbits w : Nat) : State := s.placeWord nbits w

end Sys2Proof.Machine
end

