-- ==== Sys2Proof/Safety.lean ====
section
/-!
DEFINITION. The terms claims are stated in: abstract trees and what a state's node memory holds (spec 00_scope R14, 10_state R34),
the container (30_encoding R96 to R104), and the invariant of the block.
-/
namespace Sys2Proof

/-- Abstract trees (R14). -/
inductive Tree where
  | leaf (sym : Sym)
  | node (left right : Tree)
deriving DecidableEq, Repr

/-- The serialisation of a tree (R98). -/
def Tree.ser : Tree → List Bit
  | .leaf x => true :: bitsN 9 x.toNat
  | .node l r => false :: (l.ser ++ r.ser)

/-- The leaf symbols, left to right (R14). -/
def Tree.leaves : Tree → List Sym
  | .leaf x => [x]
  | .node l r => l.leaves ++ r.leaves

/-- Depth (R14). -/
def Tree.depth : Tree → Nat
  | .leaf _ => 0
  | .node l r => max l.depth r.depth + 1

/-- The number of nodes, leaves and internal nodes together. -/
def Tree.size : Tree → Nat
  | .leaf _ => 1
  | .node l r => l.size + r.size + 1

/-- Whether the root is an internal node (R34(b)). -/
def Tree.isNode : Tree → Bool
  | .leaf _ => false
  | .node _ _ => true

/-- Whether every leaf symbol is at most 256 (R34(e)). -/
def Tree.symsOk (t : Tree) : Bool := t.leaves.all (fun x => decide (x.toNat ≤ Config.eos))

/-- The code of a symbol: the path to its leaf, 0 left and 1 right (R151); of several leaves the last in pre-order (R153). -/
def Tree.code : Tree → Sym → Option (List Bit)
  | .leaf x, y => if x = y then some [] else none
  | .node l r, y =>
    match r.code y with
    | some p => some (true :: p)
    | none => (l.code y).map (false :: ·)

/-- The subtree at the end of a path from the root, 0 left and 1 right; none where the path leaves the tree (R151, R191). -/
def Tree.reach : Tree → List Bit → Option Tree
  | t, [] => some t
  | .leaf _, _ :: _ => none
  | .node l r, b :: p => (if b then r else l).reach p

/-- The records of a header, in the order they are read (R99). -/
inductive HeaderRec where
  | node
  | leaf (sym : Sym)
deriving DecidableEq, Repr

/-- The bits of a record (R99). -/
def HeaderRec.bits : HeaderRec → List Bit
  | .node => [false]
  | .leaf x => true :: bitsN 9 x.toNat

/-- Whether the symbol of a record is not reserved (R100). -/
def HeaderRec.symOk : HeaderRec → Bool
  | .node => true
  | .leaf x => decide (x.toNat ≤ Config.eos)

/-- The bits of records one after another. -/
def recBits (rs : List HeaderRec) : List Bit := rs.flatMap HeaderRec.bits

/-- How many subtrees are still to be read after the records, of `k` before them: a record of an internal node stands for one of
them and opens two, a leaf's is one (R98). -/
def pending : Nat → List HeaderRec → Nat
  | k, [] => k
  | 0, _ :: _ => 0
  | k + 1, .node :: rs => pending (k + 2) rs
  | k + 1, .leaf _ :: rs => pending k rs

/-- What is read of a header before its tree is complete: at least one subtree is still to be read, and no symbol read so far is
reserved. -/
abbrev Unfinished (rs : List HeaderRec) : Prop := 0 < pending 1 rs ∧ rs.all HeaderRec.symOk = true

/-- The records of a tree's header, in pre-order (R98). -/
def Tree.recs : Tree → List HeaderRec
  | .leaf x => [.leaf x]
  | .node l r => .node :: (l.recs ++ r.recs)

/-- The entry of the code table that holds a code; `{0, 0}` where there is none (R37, R150). -/
def codeEntry : Option (List Bit) → CodeRec
  | none => { len := 0, val := 0 }
  | some p => { len := BitVec.ofNat 9 p.length, val := BitVec.ofNat 256 (bitsVal p) }

/-- The payload of the bytes `xs` under the codes of a tree (R102). -/
def Tree.payload (t : Tree) (xs : List Byte) : List Bit :=
  xs.flatMap (fun x => (t.code (x.setWidth 9)).getD []) ++ (t.code 256).getD []

/-- Whether the tree has a code for each of the bytes and for the sentinel. -/
def Tree.codes (t : Tree) (xs : List Byte) : Bool :=
  xs.all (fun x => (t.code (x.setWidth 9)).isSome) && (t.code 256).isSome

namespace Machine

/-- STATE is IDLE or DONE: a command may be issued (R23). -/
abbrev Ready (s : State) : Prop := s.seq = .idle ∨ s.seq = .done

/-- Whether the node memory holds the tree at an index (R14). -/
def holds (s : State) : NodeIdx → Tree → Bool
  | i, .leaf x => (s.nodeAt i).leaf && ((s.nodeAt i).sym == x)
  | i, .node l r => !(s.nodeAt i).leaf && (holds s (s.nodeAt i).left l && holds s (s.nodeAt i).right r)

/-- The indices a tree occupies from an index on, in pre-order. -/
def indices (s : State) : NodeIdx → Tree → List NodeIdx
  | i, .leaf _ => [i]
  | i, .node l r => i :: (indices s (s.nodeAt i).left l ++ indices s (s.nodeAt i).right r)

/-- The indices 0 to n-1. -/
def nodeRange (n : Nat) : List NodeIdx := (List.range n).map (BitVec.ofNat 10)

/-- The tree the block holds: at ROOT, on exactly the indices below NCOUNT, each once, with an internal root and symbols up to
256. This is R34: its clauses (a), (c), (d) follow (obligation `TreeMeetsEachClauseOfR34`). -/
abbrev TreeIs (s : State) (t : Tree) : Prop :=
  holds s s.root t = true ∧ (indices s s.root t).Perm (nodeRange s.ncount.toNat) ∧ s.ncount.toNat ≤ Config.nnode ∧
    t.isNode = true ∧ t.symsOk = true

/-- Tree well-formedness (R34). -/
def TreeOk (s : State) : Prop := ∃ t, TreeIs s t

/-- The code table is the one DERIVE makes from the tree (R38, R150). -/
def CodesOk (s : State) : Prop :=
  ∀ t, TreeIs s t → ∀ x : Nat, x ≤ Config.eos → s.codeAt x = codeEntry (t.code (BitVec.ofNat 9 x))

/-- The bits of the code of symbol `x` in the code table (R37, R104). -/
def codeBits (s : State) (x : Nat) : List Bit := bitsN (s.codeAt x).len.toNat (s.codeAt x).val.toNat

/-- HDRR ends in ERROR with this code and detail after consuming `k` bits: both flags are 0, what NODE and CODE hold is open, and
nothing else changes (R166). -/
def HdrrRaises (s : State) (k : Nat) (err : BitVec 8) (info : Nat) : Prop :=
  ∃ u, exec .hdrr s = .next u ∧
    u = { s with cmd := 0x06, seq := .error, err := err, einfo := BitVec.ofNat 32 info, treeValid := false, codeValid := false,
                 node := u.node, code := u.code, binPos := s.binPos + k, binCnt := s.binCnt + BitVec.ofNat 64 k,
                 freeCtr := u.freeCtr }

/-- The payload of the bytes `xs` under the code table (R102). -/
def payloadBits (s : State) (xs : List Byte) : List Bit :=
  xs.flatMap (fun x => codeBits s x.toNat) ++ codeBits s Config.eos

/-- The container of the bytes `xs`: magic, tree, payload (R96). -/
def container (magic : BitVec 32) (t : Tree) (payload : List Bit) : List Bit :=
  bitsN 32 magic.toNat ++ t.ser ++ payload

/-- The symbols whose count is not zero, ascending (R131). -/
def liveSyms (s : State) : List Nat := (List.range Config.nsym).filter (fun x => decide (s.freqAt x ≠ 0))

/-- The number of leaves BUILD makes (R135). -/
def leafCount (s : State) : Nat := max (liveSyms s).length 2

/-- Instructions one after another. -/
def execAll : List Instr → State → Host.Outcome State Fault Refusal
  | [], s => .next s
  | i :: is, s =>
    match exec i s with
    | .next t => execAll is t
    | .fault f => .fault f
    | .refused r => .refused r

/-- What every step keeps. -/
structure Inv (s : State) : Prop where
  /-- A command is one atomic step (R95). -/
  notBusy : s.seq ≠ .busy
  /-- PQ is empty when BUILD ends (R43). -/
  pqEmpty : s.pq = []
  /-- While STATE is not ERROR, ERR and EINFO are 0 (R26, R27). -/
  noError : s.seq ≠ .error → s.err = 0 ∧ s.einfo = 0
  /-- In ERROR, ERR holds one of the codes of R231. -/
  errCode : s.seq = .error → ∃ e : ErrKind, s.err = e.code
  /-- Cursors stay inside their streams (R65). -/
  sinRange : s.sinPos ≤ s.sin.length
  binRange : s.binPos ≤ s.bin.length
  /-- TREE_VALID means a well-formed tree (R34). -/
  tree : s.treeValid = true → TreeOk s
  /-- CODE_VALID means a tree and its codes (R38, R40). -/
  codes : s.codeValid = true → s.treeValid = true ∧ CodesOk s

end Machine
end Sys2Proof
end

