-- ==== Sys2Proof/Certificates/Slice0/Obligations.lean ====
section
/-!
DEFINITION. The statements for the provers. Each docstring names the rules of spec/ it formalises. The statements about a next
state give it as the old state with the changed fields named: whatever is not named is unchanged.
-/
open Sys2Proof Sys2Proof.Machine

/-! ## Encodings -/

/-- R92: the opcode map, complete; a decoder matches the full 8 bits. -/
def Obligations.OpcodeMapIsExact : Prop :=
  ∀ (w : Byte) (i : Instr), decodeCommand w = .ok i ↔
    (w, i) ∈ ([(0x01, .clear), (0x02, .count), (0x03, .build), (0x04, .derive), (0x05, .hdrw), (0x06, .hdrr), (0x07, .enc),
      (0x08, .dec), (0x09, .magw), (0x0A, .magr), (0x0B, .rewind), (0x0C, .compress), (0x0D, .decompress)] :
      List (Byte × Instr))

/-- R94: every other word is illegal, 243 in all, and writing one in IDLE or DONE raises E_ILLCMD with the word in EINFO. -/
def Obligations.IllegalWordsRaiseIllcmd : Prop :=
  (∀ w : Byte, w = 0 ∨ 0x0D < w →
    decodeCommand w = .error (.illegalCommand w) ∧
    ∀ s : State, Ready s → ∀ v : BitVec 64, v.setWidth 8 = w →
      hostMove (.writeReg 0x00 v) s =
        .next { s with cmd := w, seq := .error, err := 0x01, einfo := w.setWidth 32 }) ∧
  ((List.range 256).filter (fun w => decide (decodeCommand (BitVec.ofNat 8 w) =
    .error (.illegalCommand (BitVec.ofNat 8 w))))).length = 243

/-- 30_encoding sections 1 and 3: decoding the encoding of a well-formed instruction gives it back, with every operand. -/
def Obligations.DecodeInvertsEncode : Prop :=
  ∀ i : Instr, i.wf = true → decode (encode i) = .ok i

/-- 30_encoding sections 1 and 3: what decodes is the encoding of a well-formed instruction. -/
def Obligations.DecodedIsTheEncodingOfItsInstruction : Prop :=
  ∀ (e : Encoding) (i : Instr), decode e = .ok i → i.wf = true ∧ encode i = e

/-- 30_encoding section 3, the spec's inferences: `ser` is injective and prefix-free; a header of L leaves has 11 L - 1 bits: 21
for two leaves, 2826 for 257. -/
def Obligations.HeaderIsSelfDelimitingAndSized : Prop :=
  (∀ (t u : Tree) (a b : List Bit), t.ser ++ a = u.ser ++ b → t = u ∧ a = b) ∧
  (∀ t : Tree, t.ser.length + 1 = 11 * t.leaves.length ∧ t.size + 1 = 2 * t.leaves.length) ∧
  (∀ t : Tree, t.leaves.length = 2 → t.ser.length = 21) ∧
  (∀ t : Tree, t.leaves.length = 257 → t.ser.length = 2826)

/-- R74: `Pack` and `Unpack`: zero padding to whole bytes, stream bit i in byte i/8 at bit position 7 - i mod 8. -/
def Obligations.PackCarriesBitsFirstBitHighest : Prop :=
  ∀ q : List Bit,
    padded q = q ++ List.replicate ((8 - q.length % 8) % 8) false ∧
    8 * (pack q).length = (padded q).length ∧
    unpack (pack q) = padded q ∧
    ∀ (i : Nat) (b : Bit), q[i]? = some b →
      ∃ c : Byte, (pack q)[i / 8]? = some c ∧ c.getLsbD (7 - i % 8) = b

/-! ## Steps, the host port, reset -/

/-- A step is the host's next move: a write of CMD or a delivery on BIN whose bits decode to an instruction runs `exec` of it, with
that move taken off the queue; with no move pending the block does nothing. The queue is the model's (log 8, log 16). -/
def Obligations.StepRunsDecodedInstruction : Prop :=
  (∀ (s : State) (v : BitVec 64) (rest : List HostAction) (i : Instr),
    s.seq ≠ .busy → s.host = .writeReg 0x00 v :: rest → decodeCommand (v.setWidth 8) = .ok i →
      step s = exec i { s with host := rest }) ∧
  (∀ (s : State) (bits : List Bit) (rest : List HostAction) (i : Instr),
    s.host = .deliver bits :: rest → decodeRecord bits = .ok i → step s = exec i { s with host := rest }) ∧
  (∀ (s : State) (a : HostAction) (rest : List HostAction), s.host = a :: rest → step s = hostMove a { s with host := rest }) ∧
  (∀ s : State, s.host = [] → step s = .next s)

/-- A word of the opcode table, placed as the next host move, is what the next step runs, in every state. Placing a word is the
model's choice (log 16), and so is reading the word 0 as the row `.NODE` (log 7). -/
def Obligations.PlacedWordRunsNext : Prop :=
  ∀ (s : State) (nbits w : Nat) (i : Instr),
    decodeTableWord nbits w = some i → step (s.withFetchWord nbits w) = exec i s

/-- R244: in ERROR every word but CLEAR's has no effect at all, and CLEAR raises nothing. -/
def Obligations.ErrorsDoNotNest : Prop :=
  ∀ s : State, s.seq = .error →
    (∀ v : BitVec 64, v.setWidth 8 ≠ (0x01 : Byte) → hostMove (.writeReg 0x00 v) s = .next s) ∧
    ∃ t, exec .clear s = .next t ∧ t.seq = .idle ∧ t.err = 0 ∧ t.einfo = 0

/-- R263: while BUSY the host reads STATUS only; the model refuses any other access. -/
def Obligations.BusyAllowsOnlyStatus : Prop :=
  ∀ s : State, s.seq = .busy →
    hostMove (.readReg 0x01) s = .next { s with hostData := some (.reg32 s.status) } ∧
    (∀ n, n ≠ 0x01 → hostMove (.readReg n) s = .refused .accessWhileBusy) ∧
    (∀ n v, hostMove (.writeReg n v) s = .refused .accessWhileBusy) ∧
    (∀ i, hostMove (.readFreq i) s = .refused .accessWhileBusy ∧ hostMove (.readNode i) s = .refused .accessWhileBusy ∧
      hostMove (.readCode i) s = .refused .accessWhileBusy) ∧
    (∀ i c, hostMove (.writeFreq i c) s = .refused .accessWhileBusy) ∧
    (∀ i r, hostMove (.writeNode i r) s = .refused .accessWhileBusy) ∧
    (∀ i r, hostMove (.writeCode i r) s = .refused .accessWhileBusy)

/-- R47: the control register map, what each register reads as, the read-only ones, and the numbers that do not exist. -/
def Obligations.RegisterMapIsComplete : Prop :=
  (∀ s : State, s.seq ≠ .busy →
    (∀ nd ∈ ([(0x00, .reg8 s.cmd), (0x01, .reg32 s.status), (0x02, .reg32 s.ctrl), (0x03, .reg32 (s.err.setWidth 32)),
        (0x04, .reg32 s.einfo), (0x05, .reg32 (s.root.setWidth 32)), (0x06, .reg32 (s.ncount.setWidth 32)),
        (0x07, .reg32 (s.cur.setWidth 32)), (0x08, .reg64 s.sinCnt), (0x09, .reg64 s.binCnt), (0x0A, .reg64 s.boutCnt),
        (0x0B, .reg64 s.soutCnt), (0x0C, .reg32 s.magic)] : List (Nat × HostData)),
      hostMove (.readReg nd.1) s = .next { s with hostData := some nd.2 }) ∧
    (∀ v, hostMove (.writeReg 0x00 v) s = writeCmd (v.setWidth 8) s) ∧
    (∀ v, hostMove (.writeReg 0x02 v) s = .next (s.writeCtrl (v.setWidth 32))) ∧
    (∀ n v, n = 0x01 ∨ (0x03 ≤ n ∧ n ≤ 0x0C) → hostMove (.writeReg n v) s = .next s) ∧
    (∀ n v, 0x0D ≤ n → hostMove (.readReg n) s = .refused (.noSuchRegister n) ∧
      hostMove (.writeReg n v) s = .refused (.noSuchRegister n))) ∧
  (State.reset.readReg 0x00 = some (.reg8 0) ∧ (∀ n, 0x01 ≤ n → n ≤ 0x07 → State.reset.readReg n = some (.reg32 0)) ∧
    (∀ n, 0x08 ≤ n → n ≤ 0x0B → State.reset.readReg n = some (.reg64 0)) ∧
    State.reset.readReg 0x0C = some (.reg32 Config.magic))

/-- R22: the fields of STATUS, IRQ the level of the interrupt output (IE and STATE one of DONE, ERROR), the bits that read zero, the
ignored write, the reset value. -/
def Obligations.StatusFieldsAndInterruptLevel : Prop :=
  (∀ s : State,
    s.status.extractLsb' 0 2 = (match s.seq with | .idle => 0 | .busy => 1 | .done => 2 | .error => 3) ∧
    s.status.getLsbD 2 = s.treeValid ∧ s.status.getLsbD 3 = s.codeValid ∧ s.status.getLsbD 4 = s.irq ∧
    (s.irq = true ↔ s.ie = true ∧ (s.seq = .done ∨ s.seq = .error)) ∧
    (∀ k, 5 ≤ k → s.status.getLsbD k = false) ∧
    (s.seq ≠ .busy → ∀ v, hostMove (.writeReg 0x01 v) s = .next s)) ∧
  State.reset.status = 0

/-- R25: CTRL stores bit 0 only, which gates the interrupt output, reads zero elsewhere, is writable in every STATE but BUSY, is 0 at reset, and CLEAR keeps it. -/
def Obligations.CtrlHoldsInterruptEnable : Prop :=
  (∀ (s : State) (v : BitVec 64), s.seq ≠ .busy →
    ∃ t, hostMove (.writeReg 0x02 v) s = .next t ∧ t = { s with ie := v.getLsbD 0 } ∧
      t.irq = (v.getLsbD 0 && (s.seq == .done || s.seq == .error)) ∧
      t.ctrl.getLsbD 0 = v.getLsbD 0 ∧ ∀ k, 1 ≤ k → t.ctrl.getLsbD k = false) ∧
  (∀ s t : State, exec .clear s = .next t → t.ctrl = s.ctrl) ∧
  State.reset.ctrl = 0

/-- R31: `FREQ[256]` reads as 1 always, a host write to it is ignored, COUNT never changes it. -/
def Obligations.SentinelCountIsOne : Prop :=
  ∀ s : State,
    s.freqAt Config.eos = 1 ∧
    (∀ c, s.seq ≠ .busy → hostMove (.writeFreq 256 c) s = .next s) ∧
    (s.seq ≠ .busy → hostMove (.readFreq 256) s = .next { s with hostData := some (.freq 1) }) ∧
    (∀ t, exec .count s = .next t → t.freqAt Config.eos = 1)

/-- R62: host accesses to the tables by index; with what a write does in ERROR, and the indices that do not exist. -/
def Obligations.TablePortAccesses : Prop :=
  ∀ s : State, s.seq ≠ .busy →
    (∀ i, i < 257 → hostMove (.readFreq i) s = .next { s with hostData := some (.freq (s.freqAt i)) } ∧
      hostMove (.readCode i) s = .next { s with hostData := some (.code (s.codeAt i)) }) ∧
    (∀ i : Nat, i < 513 → hostMove (.readNode i) s = .next { s with hostData := some (.node (s.nodeAt (BitVec.ofNat 10 i))) }) ∧
    (∀ i c, i < 256 → Ready s → ∃ t, hostMove (.writeFreq i c) s = .next t ∧ t = { s with freq := t.freq } ∧
      t.freqAt i = c ∧ ∀ j, j ≠ i → t.freqAt j = s.freqAt j) ∧
    (s.freqAt 256 = 1 ∧ ∀ c, hostMove (.writeFreq 256 c) s = .next s) ∧
    (∀ i c, i < 257 → s.seq = .error → hostMove (.writeFreq i c) s = .next s) ∧
    (∀ i r, i < 513 → hostMove (.writeNode i r) s = .next s) ∧
    (∀ i r, i < 257 → hostMove (.writeCode i r) s = .next s) ∧
    (∀ i c r, 257 ≤ i → hostMove (.readFreq i) s = .refused (.noSuchEntry i) ∧
      hostMove (.writeFreq i c) s = .refused (.noSuchEntry i) ∧ hostMove (.readCode i) s = .refused (.noSuchEntry i) ∧
      hostMove (.writeCode i r) s = .refused (.noSuchEntry i)) ∧
    (∀ i r, 513 ≤ i → hostMove (.readNode i) s = .refused (.noSuchEntry i) ∧
      hostMove (.writeNode i r) s = .refused (.noSuchEntry i))

/-- 10_state section 7 and 70_reset section 1: the state after reset; the same values after a hardware reset in any STATE. That the
step from `State.reset` changes nothing rests on the host's queue being empty there, the model's choice (log 8). -/
def Obligations.ResetValues : Prop :=
  (∀ s : State, s = State.reset ∨ (∃ u, hostMove .reset u = .next s) →
    s.cmd = 0 ∧ s.seq = .idle ∧ s.treeValid = false ∧ s.codeValid = false ∧ s.irq = false ∧ s.ctrl = 0 ∧ s.err = 0 ∧
    s.einfo = 0 ∧ s.root = 0 ∧ s.ncount = 0 ∧ s.cur = 0 ∧ s.sinCnt = 0 ∧ s.binCnt = 0 ∧ s.boutCnt = 0 ∧ s.soutCnt = 0 ∧
    (∀ x, x < 256 → s.freqAt x = 0) ∧ s.freqAt 256 = 1 ∧ s.pq = []) ∧
  step State.reset = .next State.reset

/-- 70_reset section 1, the spec's inference "Reset and CLEAR differ in two points only": CTRL, and BUSY. -/
def Obligations.ResetAndClearDifferInTwoPoints : Prop :=
  ∀ s : State,
    (s.seq ≠ .busy → ∃ t, exec .clear s = .next t ∧ hostMove .reset s = .next { t with ie := false } ∧ t.ie = s.ie) ∧
    (s.seq = .busy → exec .clear s = .refused .accessWhileBusy ∧ ∃ t, hostMove .reset s = .next t ∧ t.seq = .idle)

/-- R42: register 0x0C reads the configured MAGIC, ignores writes, and no step changes it, reset or not. -/
def Obligations.MagicNeverChanges : Prop :=
  (∀ s t : State, step s = .next t → t.magic = s.magic) ∧
  (∀ s : State, s.seq ≠ .busy → hostMove (.readReg 0x0C) s = .next { s with hostData := some (.reg32 s.magic) } ∧
    ∀ v, hostMove (.writeReg 0x0C v) s = .next s)

/-- Every step keeps the invariant of the block (R26, R34, R38, R40, R43, R65, R95). -/
def Obligations.StepKeepsInvariant : Prop :=
  ∀ s t : State, Inv s → step s = .next t → Inv t

/-- The invariant holds after reset. -/
def Obligations.ResetMeetsInvariant : Prop := Inv State.reset

/-- No step faults from a state that meets the invariant: the walk of DERIVE and HDRW always ends (R152, R163). -/
def Obligations.NoFaultUnderInvariant : Prop :=
  ∀ (s : State) (f : Fault), Inv s → step s ≠ .fault f

/-! ## Stream primitives -/

/-- 20_memory R66, R67, R68, R70 to R73: the unit reads, at END nothing changes; the rewind; the writes append, `BitsWrite(n, v)` the
low n bits of v, most significant first. -/
def Obligations.StreamPrimitives : Prop :=
  ∀ s : State,
    (∀ (x : Byte) (xs : List Byte), s.sinRest = x :: xs →
      s.symRead = (some x, { s with sinPos := s.sinPos + 1, sinCnt := s.sinCnt + 1 }) ∧ s.symRead.2.sinRest = xs) ∧
    (s.sinRest = [] → s.symRead = (none, s)) ∧
    s.symRewind = { s with sinPos := 0, sinCnt := 0 } ∧ s.symRewind.sinRest = s.sin ∧
    (∀ (b : Bit) (bs : List Bit), s.binRest = b :: bs →
      s.bitRead = (some b, { s with binPos := s.binPos + 1, binCnt := s.binCnt + 1 }) ∧ s.bitRead.2.binRest = bs) ∧
    (s.binRest = [] → s.bitRead = (none, s)) ∧
    (∀ n v : Nat,
      s.bitsWrite n v = { s with bout := s.bout ++ bitsN n v, boutCnt := s.boutCnt + BitVec.ofNat 64 n } ∧
      (bitsN n v).length = n ∧ ∀ k, k < n → (bitsN n v)[k]? = some (v.testBit (n - 1 - k))) ∧
    (∀ b : Byte, s.symWrite b = { s with sout := s.sout ++ [b], soutCnt := s.soutCnt + 1 })

/-- R69: `BitsRead(n)`: the n bits as an unsigned number, first bit most significant; where fewer are left, END, and they have been
consumed. -/
def Obligations.GroupReadIsMostSignificantFirst : Prop :=
  ∀ (s : State) (n : Nat),
    (∀ p rest : List Bit, s.binRest = p ++ rest → p.length = n →
      s.bitsRead n = .value (bitsVal p) { s with binPos := s.binPos + n, binCnt := s.binCnt + BitVec.ofNat 64 n } ∧
      bitsVal p < 2 ^ n ∧ bitsN n (bitsVal p) = p) ∧
    (s.binRest.length < n →
      ∃ t, s.bitsRead n = .ended s.binRest.length t ∧ t.binRest = [] ∧
        t = { s with binPos := s.binPos + s.binRest.length, binCnt := s.binCnt + BitVec.ofNat 64 s.binRest.length })

/-! ## Errors -/

/-- R13: `raise` writes ERR (with the codes of R231), EINFO and STATE, the command stops, and nothing else changes. -/
def Obligations.RaiseWritesErrEinfoState : Prop :=
  ([.illCmd, .seq, .fmtMagic, .fmtEosMagic, .fmtEosTree, .fmtEosPayload, .fmtSym, .fmtRootLeaf, .fmtTreeOvf, .noCode, .cntOvf].map
    ErrKind.code = [0x01, 0x02, 0x10, 0x11, 0x12, 0x13, 0x14, 0x15, 0x16, 0x20, 0x21]) ∧
  ∀ (s t : State) (w : Byte) (body : State → Run) (e : ErrKind) (info : BitVec 32),
    Ready s → body { s with cmd := w, seq := .busy } = .raised e info t →
      runCommand w always body s = .next { t with err := e.code, einfo := info, seq := .error }

/-- R235: the preconditions of DERIVE, HDRW, DEC and ENC; where one fails E_SEQ is raised with the word and nothing else
changes. -/
def Obligations.PreconditionFailsRaiseSeq : Prop :=
  ∀ s : State, Ready s →
    (s.treeValid = false →
      exec .derive s = .next { s with cmd := 0x04, seq := .error, err := 0x02, einfo := 0x04 } ∧
      exec .hdrw s = .next { s with cmd := 0x05, seq := .error, err := 0x02, einfo := 0x05 } ∧
      exec .dec s = .next { s with cmd := 0x08, seq := .error, err := 0x02, einfo := 0x08 }) ∧
    (s.codeValid = false →
      exec .enc s = .next { s with cmd := 0x07, seq := .error, err := 0x02, einfo := 0x07 }) ∧
    (∀ i ∈ ([.clear, .count, .build, .hdrr, .magw, .magr, .rewind, .compress, .decompress] : List Instr),
      ∀ t, exec i s = .next t → t.err ≠ 0x02 ∨ s.err = 0x02)

/-! ## System commands and the magic -/

/-- R200: CLEAR, from every STATE but BUSY. -/
def Obligations.ClearResult : Prop :=
  decodeCommand 0x01 = .ok .clear ∧
  ∀ s : State, s.seq ≠ .busy →
    ∃ t, exec .clear s = .next t ∧ t.irq = false ∧
      t = { s with
        cmd := 0, seq := .idle, treeValid := false, codeValid := false, err := 0, einfo := 0, root := 0, ncount := 0,
        cur := 0, sinCnt := 0, binCnt := 0, boutCnt := 0, soutCnt := 0, freq := Vector.replicate 256 0,
        node := t.node, code := t.code, pq := [], freeCtr := t.freeCtr }

/-- R202: REWIND. -/
def Obligations.RewindResult : Prop :=
  decodeCommand 0x0B = .ok .rewind ∧
  ∀ s : State, Ready s → exec .rewind s = .next { s with cmd := 0x0B, seq := .done, sinPos := 0, sinCnt := 0 }

/-- R160: MAGW writes the 32 bits of MAGIC, most significant first. -/
def Obligations.MagwResult : Prop :=
  decodeCommand 0x09 = .ok .magw ∧
  ∀ s : State, Ready s →
    exec .magw s = .next { s with
      cmd := 0x09, seq := .done, bout := s.bout ++ bitsN 32 s.magic.toNat, boutCnt := s.boutCnt + 32 }

/-- R164: MAGR reads 32 bits and compares them with MAGIC; fewer bits raise E_FMT_EOS_MAGIC, other bits E_FMT_MAGIC. -/
def Obligations.MagrResult : Prop :=
  decodeCommand 0x0A = .ok .magr ∧
  ∀ s : State, Ready s →
    (∀ (m : BitVec 32) (rest : List Bit), s.binRest = bitsN 32 m.toNat ++ rest →
      (m = s.magic → exec .magr s = .next { s with
        cmd := 0x0A, seq := .done, binPos := s.binPos + 32, binCnt := s.binCnt + 32 }) ∧
      (m ≠ s.magic → exec .magr s = .next { s with
        cmd := 0x0A, seq := .error, err := 0x10, einfo := m, binPos := s.binPos + 32, binCnt := s.binCnt + 32 })) ∧
    (s.binRest.length < 32 → exec .magr s = .next { s with
      cmd := 0x0A, seq := .error, err := 0x11, einfo := BitVec.ofNat 32 s.binRest.length,
      binPos := s.binPos + s.binRest.length, binCnt := s.binCnt + BitVec.ofNat 64 s.binRest.length })

/-- The container records: each is delivered at the end of BIN, bit for bit as R97 and R99 lay it out. That this is their effect
as members of the opcode table is the model's choice (log 6). -/
def Obligations.RecordsAreDeliveredOnBin : Prop :=
  ∀ s : State, s.seq ≠ .busy →
    (∀ m : BitVec 32, exec (.magicField m) s = .next { s with bin := s.bin ++ bitsN 32 m.toNat }) ∧
    exec .nodeRecord s = .next { s with bin := s.bin ++ [false] } ∧
    (∀ x : Sym, exec (.leafRecord x) s = .next { s with bin := s.bin ++ (true :: bitsN 9 x.toNat) })

/-! ## COUNT -/

/-- 40_frequency_counter: COUNT over the rest of SIN leaves the cursor at the end and does not rewind (R121). It completes where no
byte occurs 2^32 times (R120); the spec's inference R122: every count is the byte's number of occurrences, and the counts sum to the
number of bytes read. -/
def Obligations.CountResult : Prop :=
  ∀ s : State, Ready s → (∀ x : Byte, s.sinRest.count x < 2 ^ 32) →
    ∃ t, exec .count s = .next t ∧
      t = { s with cmd := 0x02, seq := .done, freq := t.freq, sinPos := s.sinPos + s.sinRest.length,
                   sinCnt := s.sinCnt + BitVec.ofNat 64 s.sinRest.length } ∧
      (∀ x : Byte, (t.freqAt x.toNat).toNat = s.sinRest.count x) ∧
      ((List.range 256).map (fun x => (t.freqAt x).toNat)).sum = s.sinRest.length

/-- R123: the byte that would be counted a 2^32-th time raises E_CNT_OVF; the counts hold the
occurrences before it, no count wraps. -/
def Obligations.CountOverflowRaises : Prop :=
  ∀ (s : State) (before after : List Byte) (x : Byte), Ready s → s.sinRest = before ++ x :: after →
    (∀ y : Byte, before.count y < 2 ^ 32) → before.count x = 2 ^ 32 - 1 →
      ∃ t, exec .count s = .next t ∧
        t = { s with cmd := 0x02, seq := .error, err := 0x21, einfo := x.setWidth 32, freq := t.freq,
                     sinPos := s.sinPos + before.length + 1,
                     sinCnt := s.sinCnt + BitVec.ofNat 64 (before.length + 1) } ∧
        ∀ y : Byte, (t.freqAt y.toNat).toNat = before.count y

/-! ## BUILD -/

/-- R132: `extractMin` removes the index of least (weight, index). -/
def Obligations.ExtractMinIsLeastKey : Prop :=
  (∀ s : State, s.extractMin = none ↔ s.pq = []) ∧
  ∀ (s t : State) (i : NodeIdx), s.extractMin = some (i, t) →
    i ∈ s.pq ∧ t = { s with pq := s.pq.erase i } ∧
    ∀ j ∈ s.pq, j ≠ i →
      (s.nodeAt i).weight < (s.nodeAt j).weight ∨ ((s.nodeAt i).weight = (s.nodeAt j).weight ∧ i < j)

/-- 41_tree_builder, the spec's inference "Termination and result": BUILD always completes; with L' = max(L, 2) leaves the internal nodes are L' to 2L'-2, ROOT = NCOUNT - 1 = 2L' - 2. -/
def Obligations.BuildResult : Prop :=
  ∀ s : State, Ready s →
    ∃ t, exec .build s = .next t ∧
      t = { s with cmd := 0x03, seq := .done, treeValid := true, codeValid := false, root := t.root, ncount := t.ncount,
                   node := t.node, code := t.code, pq := [], freeCtr := t.freeCtr } ∧
      t.root.toNat = 2 * leafCount s - 2 ∧ t.ncount.toNat = 2 * leafCount s - 1 ∧
      3 ≤ t.ncount.toNat ∧ t.ncount.toNat ≤ 513 ∧
      (∀ k, k < leafCount s → (t.nodeAt (BitVec.ofNat 10 k)).leaf = true) ∧
      (∀ k, leafCount s ≤ k → k < t.ncount.toNat → (t.nodeAt (BitVec.ofNat 10 k)).leaf = false)

/-- R131: the leaves, in ascending symbol order on the indices from 0; the sentinel's is the last. -/
def Obligations.BuildLeavesInSymbolOrder : Prop :=
  ∀ s t : State, Ready s → exec .build s = .next t →
    (∀ (k x : Nat), (liveSyms s)[k]? = some x →
      t.nodeAt (BitVec.ofNat 10 k) = leafRec (BitVec.ofNat 9 x) ((s.freqAt x).setWidth 41)) ∧
    (liveSyms s).getLast? = some 256

/-- 41_tree_builder, the spec's inferences on one merge and on child indices: each internal node weighs what its children do together, its left child has the lesser key,
and both children have lower indices. -/
def Obligations.BuildMergesInKeyOrder : Prop :=
  ∀ s t : State, Ready s → exec .build s = .next t →
    ∀ k, leafCount s ≤ k → k < t.ncount.toNat →
      ∃ l r : NodeIdx,
        t.nodeAt (BitVec.ofNat 10 k) = internalRec ((t.nodeAt l).weight + (t.nodeAt r).weight) l r ∧
        l.toNat < k ∧ r.toNat < k ∧ t.keyLt l r = true ∧
        (t.nodeAt l).weight.toNat + (t.nodeAt r).weight.toNat < 2 ^ 41

/-- 41_tree_builder, the spec's inferences (c) and (d) on the result: internal weights do not decrease in creation order, and the root weighs the sum of all 257
counts, exactly. -/
def Obligations.BuildWeightsMonotoneAndExact : Prop :=
  ∀ s t : State, Ready s → exec .build s = .next t →
    (∀ j k, leafCount s ≤ j → j ≤ k → k < t.ncount.toNat →
      (t.nodeAt (BitVec.ofNat 10 j)).weight.toNat ≤ (t.nodeAt (BitVec.ofNat 10 k)).weight.toNat) ∧
    (t.nodeAt t.root).weight.toNat = ((List.range Config.nsym).map (fun x => (s.freqAt x).toNat)).sum

/-- 41_tree_builder, the spec's inferences (a) and (e) on the result: BUILD leaves a well-formed tree (R34) whose leaves are the symbols with a count, each once,
but for the degenerate tree. -/
def Obligations.BuildMakesWellFormedTree : Prop :=
  ∀ s t : State, Ready s → exec .build s = .next t →
    ∃ u : Tree, TreeIs t u ∧
      (1 < (liveSyms s).length → u.leaves.Perm ((liveSyms s).map (BitVec.ofNat 9))) ∧
      ((liveSyms s).length = 1 → u.leaves = [256, 256])

/-- R134: all byte counts zero: the second sentinel leaf of weight 0 at index 1, and the root over both. -/
def Obligations.BuildOfEmptyInput : Prop :=
  ∀ s : State, Ready s → (∀ x, x < 256 → s.freqAt x = 0) →
    ∃ t, exec .build s = .next t ∧
      t.nodeAt 0 = leafRec 256 1 ∧ t.nodeAt 1 = leafRec 256 0 ∧ t.nodeAt 2 = internalRec 1 1 0 ∧
      t.root = 2 ∧ t.ncount = 3 ∧ TreeIs t (.node (.leaf 256) (.leaf 256))

/-- 41_tree_builder, the spec's inference (g) on the result: BUILD is a function of FREQ. -/
def Obligations.BuildDependsOnFreqOnly : Prop :=
  ∀ a b t u : State, Ready a → Ready b → a.freq = b.freq → exec .build a = .next t → exec .build b = .next u →
    t.root = u.root ∧ t.ncount = u.ncount ∧
    ∀ k, k < t.ncount.toNat → t.nodeAt (BitVec.ofNat 10 k) = u.nodeAt (BitVec.ofNat 10 k)

/-! ## Trees a valid flag vouches for -/

/-- 10_state section 3, the spec's inference on well-formedness (R34): its clauses (a) to (e), each, for a tree the block holds; `tree(ROOT)` is the only one. -/
def Obligations.TreeMeetsEachClauseOfR34 : Prop :=
  ∀ (s : State) (t : Tree), TreeIs s t →
    (3 ≤ s.ncount.toNat ∧ s.ncount.toNat ≤ 513 ∧ s.ncount.toNat % 2 = 1) ∧
    (s.root.toNat < s.ncount.toNat ∧ (s.nodeAt s.root).leaf = false) ∧
    (∀ i : NodeIdx, i.toNat < s.ncount.toNat → (s.nodeAt i).leaf = false →
      (s.nodeAt i).left.toNat < s.ncount.toNat ∧ (s.nodeAt i).right.toNat < s.ncount.toNat ∧
      (s.nodeAt i).left ≠ (s.nodeAt i).right) ∧
    (∀ j : NodeIdx, j.toNat < s.ncount.toNat →
      ((nodeRange s.ncount.toNat).filter (fun i => !(s.nodeAt i).leaf &&
        ((s.nodeAt i).left == j || (s.nodeAt i).right == j))).length = if j = s.root then 0 else 1) ∧
    (t.size = s.ncount.toNat ∧ 2 * t.leaves.length = s.ncount.toNat + 1) ∧
    (∀ i : NodeIdx, i.toNat < s.ncount.toNat → (s.nodeAt i).leaf = true → (s.nodeAt i).sym.toNat ≤ 256) ∧
    (∀ u : Tree, TreeIs s u → u = t)

/-- 10_state section 3, the spec's inference "Depth bound": whenever TREE_VALID is 1 the depth is at most (NCOUNT - 1)/2, at most 256. -/
def Obligations.ValidTreeDepthBound : Prop :=
  ∀ s : State, Inv s → s.treeValid = true →
    ∃ t, TreeIs s t ∧ t.depth ≤ (s.ncount.toNat - 1) / 2 ∧ (s.ncount.toNat - 1) / 2 ≤ 256

/-! ## DERIVE -/

/-- 42_code_table_deriver: DERIVE on the tree the block holds (R150); the spec's inferences R151 and R152: every entry of CODE is the
path to the symbol's last leaf, 1 to 256 bits. A symbol on no leaf has `{0, 0}`; without a tree E_SEQ and nothing else. -/
def Obligations.DeriveResult : Prop :=
  decodeCommand 0x04 = .ok .derive ∧
  (∀ s : State, Ready s → s.treeValid = false →
    exec .derive s = .next { s with cmd := 0x04, seq := .error, err := 0x02, einfo := 0x04 }) ∧
  ∀ (s : State) (t : Tree), Ready s → s.treeValid = true → TreeIs s t →
    ∃ u, exec .derive s = .next u ∧
      u = { s with cmd := 0x04, seq := .done, codeValid := true, code := u.code, freeCtr := u.freeCtr } ∧
      (∀ x : Nat, x ≤ 256 → u.codeAt x = codeEntry (t.code (BitVec.ofNat 9 x))) ∧
      (∀ (x : Nat) (p : List Bit), t.code (BitVec.ofNat 9 x) = some p → 1 ≤ p.length ∧ p.length ≤ 256) ∧
      ∀ x : Nat, x ≤ 256 → codeBits u x = (t.code (BitVec.ofNat 9 x)).getD []

/-- 42_code_table_deriver, "Prefix-freedom": after DERIVE no code is a prefix of another symbol's. -/
def Obligations.DerivedCodesArePrefixFree : Prop :=
  ∀ (s u : State) (t : Tree), Ready s → s.treeValid = true → TreeIs s t → exec .derive s = .next u →
    ∀ a b : Nat, a ≤ 256 → b ≤ 256 → a ≠ b → (u.codeAt a).len ≠ 0 → (u.codeAt b).len ≠ 0 →
      ¬ codeBits u a <+: codeBits u b

/-! ## The header codec -/

/-- 43_header_codec section 1: HDRW (R162); the spec's inference R163: it writes exactly the pre-order serialisation of the tree the
block holds, 11 L - 1 bits, no reserved symbol. Without a tree E_SEQ and nothing else. -/
def Obligations.HdrwResult : Prop :=
  decodeCommand 0x05 = .ok .hdrw ∧
  (∀ s : State, Ready s → s.treeValid = false →
    exec .hdrw s = .next { s with cmd := 0x05, seq := .error, err := 0x02, einfo := 0x05 }) ∧
  ∀ (s : State) (t : Tree), Ready s → s.treeValid = true → TreeIs s t →
    exec .hdrw s = .next { s with
      cmd := 0x05, seq := .done, bout := s.bout ++ t.ser, boutCnt := s.boutCnt + BitVec.ofNat 64 (11 * t.leaves.length - 1) } ∧
    t.ser.length = 11 * t.leaves.length - 1 ∧ ∀ x ∈ t.leaves, x.toNat ≤ 256

/-- 43_header_codec section 2, the spec's inference "HDRR inverts HDRW": HDRR on the serialisation of a tree restores the tree, numbered in pre-order from 0, consumes exactly its bits,
and leaves every weight 0; so it restores the tree another block's HDRW wrote. -/
def Obligations.HdrrInvertsHdrw : Prop :=
  (∀ (s : State) (t : Tree) (rest : List Bit), Ready s → t.isNode = true → t.size ≤ 513 → t.symsOk = true →
    s.binRest = t.ser ++ rest →
      ∃ u, exec .hdrr s = .next u ∧
        u = { s with cmd := 0x06, seq := .done, treeValid := true, codeValid := false, root := 0,
                     ncount := BitVec.ofNat 10 t.size, node := u.node, code := u.code,
                     binPos := s.binPos + t.ser.length, binCnt := s.binCnt + BitVec.ofNat 64 t.ser.length,
                     freeCtr := u.freeCtr } ∧
        TreeIs u t ∧ indices u 0 t = nodeRange t.size ∧
        ∀ k, k < t.size → (u.nodeAt (BitVec.ofNat 10 k)).weight = 0) ∧
  (∀ (a a' b : State) (t : Tree) (written rest : List Bit), Ready a → a.treeValid = true → TreeIs a t →
    exec .hdrw a = .next a' → a'.bout = a.bout ++ written → Ready b → b.binRest = written ++ rest →
      ∃ u, exec .hdrr b = .next u ∧ TreeIs u t)

/-- R171: a BIN that ends before the tree is complete raises E_FMT_EOS_TREE with the number of nodes allocated, all of BIN consumed:
after any records of an unfinished header, at most 513, where a tag bit is missing (END comes before the capacity, R170), and
inside the symbol field of a further leaf, whose node is allocated. -/
def Obligations.HdrrTruncatedRaises : Prop :=
  ∀ (s : State) (rs : List HeaderRec), Ready s → Unfinished rs →
    (rs.length ≤ 513 → s.binRest = recBits rs → HdrrRaises s (recBits rs).length 0x12 rs.length) ∧
    (∀ field : List Bit, rs.length < 513 → field.length < 9 → s.binRest = recBits rs ++ true :: field →
      HdrrRaises s ((recBits rs).length + 1 + field.length) 0x12 (rs.length + 1))

/-- 43_header_codec R166, R170: a lone leaf of a symbol that is not reserved raises E_FMT_ROOTLEAF with it; the first leaf of a
reserved symbol, lone or in any unfinished header, raises E_FMT_SYM with the symbol, its nine bits consumed; the tag bit of a 514th
node raises E_FMT_TREE_OVF with 513, that bit the last consumed, whatever follows it. -/
def Obligations.HdrrRejectsLoneLeafAndOversizeTree : Prop :=
  (∀ (s : State) (x : Sym) (rest : List Bit), Ready s → x.toNat ≤ 256 → s.binRest = true :: bitsN 9 x.toNat ++ rest →
    HdrrRaises s 10 0x15 x.toNat) ∧
  (∀ (s : State) (rs : List HeaderRec) (x : Sym) (rest : List Bit), Ready s → Unfinished rs → rs.length < 513 → 256 < x.toNat →
    s.binRest = recBits rs ++ (true :: bitsN 9 x.toNat) ++ rest → HdrrRaises s ((recBits rs).length + 10) 0x14 x.toNat) ∧
  (∀ (s : State) (rs : List HeaderRec) (tag : Bit) (rest : List Bit), Ready s → Unfinished rs → rs.length = 513 →
    s.binRest = recBits rs ++ tag :: rest → HdrrRaises s ((recBits rs).length + 1) 0x16 513)

/-! ## The payload codec -/

/-- 44_payload_encoder: ENC starts at the present cursor and does not rewind (R182); the spec's inference R181: it appends exactly the
codes of the bytes read, in input order, then the sentinel's (alone where SIN is at its end), and their length. -/
def Obligations.EncResult : Prop :=
  ∀ s : State, Ready s → s.codeValid = true → (∀ x ∈ s.sinRest, (s.codeAt x.toNat).len ≠ 0) → (s.codeAt 256).len ≠ 0 →
    exec .enc s = .next { s with
      cmd := 0x07, seq := .done, sinPos := s.sinPos + s.sinRest.length,
      sinCnt := s.sinCnt + BitVec.ofNat 64 s.sinRest.length, bout := s.bout ++ payloadBits s s.sinRest,
      boutCnt := s.boutCnt + BitVec.ofNat 64 (payloadBits s s.sinRest).length } ∧
    (payloadBits s s.sinRest).length =
      (s.sinRest.map (fun x => (s.codeAt x.toNat).len.toNat)).sum + (s.codeAt 256).len.toNat

/-- 44_payload_encoder R180: the first byte without a code raises E_NOCODE after the codes before it are written; the sentinel
without one raises it at the end. -/
def Obligations.EncWithoutCodeRaises : Prop :=
  ∀ s : State, Ready s → s.codeValid = true →
    (∀ (before after : List Byte) (x : Byte), s.sinRest = before ++ x :: after →
      (∀ y ∈ before, (s.codeAt y.toNat).len ≠ 0) → (s.codeAt x.toNat).len = 0 →
        exec .enc s = .next { s with
          cmd := 0x07, seq := .error, err := 0x20, einfo := x.setWidth 32, sinPos := s.sinPos + before.length + 1,
          sinCnt := s.sinCnt + BitVec.ofNat 64 (before.length + 1),
          bout := s.bout ++ before.flatMap (fun y => codeBits s y.toNat),
          boutCnt := s.boutCnt + BitVec.ofNat 64 (before.flatMap (fun y => codeBits s y.toNat)).length }) ∧
    ((∀ y ∈ s.sinRest, (s.codeAt y.toNat).len ≠ 0) → (s.codeAt 256).len = 0 →
        exec .enc s = .next { s with
          cmd := 0x07, seq := .error, err := 0x20, einfo := 256, sinPos := s.sinPos + s.sinRest.length,
          sinCnt := s.sinCnt + BitVec.ofNat 64 s.sinRest.length,
          bout := s.bout ++ s.sinRest.flatMap (fun y => codeBits s y.toNat),
          boutCnt := s.boutCnt + BitVec.ofNat 64 (s.sinRest.flatMap (fun y => codeBits s y.toNat)).length })

/-- 45_payload_decoder, the spec's inference "DEC inverts ENC": DEC on the payload of bytes under the tree's codes writes exactly those bytes, consumes
exactly those bits, and ends at a sentinel leaf. -/
def Obligations.DecInvertsEnc : Prop :=
  ∀ (s : State) (t : Tree) (xs : List Byte) (rest : List Bit), Ready s → s.treeValid = true → TreeIs s t →
    t.codes xs = true → s.binRest = t.payload xs ++ rest →
      ∃ u, exec .dec s = .next u ∧
        u = { s with cmd := 0x08, seq := .done, cur := u.cur, binPos := s.binPos + (t.payload xs).length,
                     binCnt := s.binCnt + BitVec.ofNat 64 (t.payload xs).length, sout := s.sout ++ xs,
                     soutCnt := s.soutCnt + BitVec.ofNat 64 xs.length } ∧
        (u.nodeAt u.cur).leaf = true ∧ (u.nodeAt u.cur).sym = 256

/-- 45_payload_decoder, the end of the spec's inference "DEC inverts ENC": on a strict prefix of a payload DEC writes a prefix of the bytes and raises E_FMT_EOS_PAYLOAD with
CUR, an internal node. -/
def Obligations.DecTruncatedRaises : Prop :=
  ∀ (s : State) (t : Tree) (xs : List Byte) (p : List Bit), Ready s → s.treeValid = true → TreeIs s t →
    t.codes xs = true → s.binRest = p → p <+: t.payload xs → p.length < (t.payload xs).length →
      ∃ (u : State) (ys : List Byte), exec .dec s = .next u ∧ ys <+: xs ∧
        u = { s with cmd := 0x08, seq := .error, err := 0x13, einfo := u.cur.setWidth 32, cur := u.cur,
                     binPos := s.binPos + p.length, binCnt := s.binCnt + BitVec.ofNat 64 p.length, sout := s.sout ++ ys,
                     soutCnt := s.soutCnt + BitVec.ofNat 64 ys.length } ∧
        (u.nodeAt u.cur).leaf = false

/-- R194: DEC always ends, whatever BIN holds. It reads the paths of leaves and writes the byte of each, then either the path of a
sentinel leaf, where it ends in DONE, or, with BIN at its end, a path that stops at an internal node, where it raises
E_FMT_EOS_PAYLOAD. On a tree without a sentinel leaf it always raises. -/
def Obligations.DecAlwaysEnds : Prop :=
  ∀ (s : State) (t : Tree), Ready s → s.treeValid = true → TreeIs s t →
    ∃ (u : State) (walks : List (List Bit × Sym)) (path rest : List Bit) (v : Tree),
      exec .dec s = .next u ∧ s.binRest = walks.flatMap Prod.fst ++ path ++ rest ∧
      (∀ w ∈ walks, t.reach w.1 = some (.leaf w.2) ∧ w.2.toNat < 256) ∧
      t.reach path = some v ∧ holds u u.cur v = true ∧
      u = { s with
        cmd := 0x08, seq := u.seq, err := u.err, einfo := u.einfo, cur := u.cur,
        binPos := s.binPos + (walks.flatMap Prod.fst ++ path).length,
        binCnt := s.binCnt + BitVec.ofNat 64 (walks.flatMap Prod.fst ++ path).length,
        sout := s.sout ++ walks.map (fun w => w.2.setWidth 8), soutCnt := s.soutCnt + BitVec.ofNat 64 walks.length } ∧
      ((v = .leaf 256 ∧ u.seq = .done ∧ u.err = s.err ∧ u.einfo = s.einfo) ∨
        (v.isNode = true ∧ rest = [] ∧ u.seq = .error ∧ u.err = 0x13 ∧ u.einfo = u.cur.setWidth 32)) ∧
      ((256 : Sym) ∉ t.leaves → u.seq = .error)

/-! ## The sequences -/

/-- 46_orchestration section 1: COMPRESS and DECOMPRESS do what their steps do, issued one by one, errors included; only
CMD differs. -/
def Obligations.SequencesEqualTheirSteps : Prop :=
  ∀ s u : State, Ready s →
    (execAll [.count, .build, .derive, .magw, .hdrw, .rewind, .enc] s = .next u →
      exec .compress s = .next { u with cmd := 0x0C }) ∧
    (execAll [.magr, .hdrr, .dec] s = .next u → exec .decompress s = .next { u with cmd := 0x0D })

/-- 46_orchestration section 1, the spec's inference "Result of COMPRESS": COMPRESS appends exactly the container of the bytes of SIN: the magic, the tree BUILD makes from their counts, their
codes in the table DERIVE makes from it, and the sentinel's. -/
def Obligations.CompressWritesTheContainer : Prop :=
  ∀ s : State, Ready s → s.sinPos = 0 → (∀ x : Byte, s.sin.count x < 2 ^ 32) →
    ∃ (u : State) (t : Tree), exec .compress s = .next u ∧ TreeIs u t ∧ t.codes s.sin = true ∧
      u = { s with cmd := 0x0C, seq := .done, treeValid := true, codeValid := true, freq := u.freq, node := u.node,
                   code := u.code, root := u.root, ncount := u.ncount, pq := [], sinPos := s.sin.length,
                   sinCnt := BitVec.ofNat 64 s.sin.length,
                   bout := s.bout ++ container s.magic t (payloadBits u s.sin),
                   boutCnt := s.boutCnt + BitVec.ofNat 64 (container s.magic t (payloadBits u s.sin)).length,
                   freeCtr := u.freeCtr } ∧
      (∀ x : Byte, (u.freqAt x.toNat).toNat = s.sin.count x) ∧
      (∀ b b' : State, Ready b → b.freq = u.freq → exec .build b = .next b' → TreeIs b' t) ∧
      payloadBits u s.sin = t.payload s.sin

/-- 46_orchestration, the spec's inference "Sentinel termination": DECOMPRESS of a container writes exactly its bytes, consumes exactly its bits, and leaves
CODE_VALID 0. -/
def Obligations.DecompressReadsTheContainer : Prop :=
  ∀ (s : State) (t : Tree) (xs : List Byte) (rest : List Bit), Ready s → t.isNode = true → t.size ≤ 513 →
    t.symsOk = true → t.codes xs = true → s.binRest = container s.magic t (t.payload xs) ++ rest →
      ∃ u, exec .decompress s = .next u ∧ TreeIs u t ∧
        u = { s with cmd := 0x0D, seq := .done, treeValid := true, codeValid := false, root := 0,
                     ncount := BitVec.ofNat 10 t.size, node := u.node, code := u.code, cur := u.cur,
                     binPos := s.binPos + (container s.magic t (t.payload xs)).length,
                     binCnt := s.binCnt + BitVec.ofNat 64 (container s.magic t (t.payload xs)).length,
                     sout := s.sout ++ xs, soutCnt := s.soutCnt + BitVec.ofNat 64 xs.length, freeCtr := u.freeCtr }

/-- 46_orchestration section 2, "Round trip": DECOMPRESS of what COMPRESS wrote, packed into bytes and unpacked, gives SIN back. -/
def Obligations.RoundTrip : Prop :=
  ∀ a a' b : State, Ready a → a.sinPos = 0 → a.bout = [] → (∀ x : Byte, a.sin.count x < 2 ^ 32) →
    exec .compress a = .next a' → Ready b → b.magic = a.magic → b.sout = [] → b.binRest = unpack (pack a'.bout) →
      ∃ b', exec .decompress b = .next b' ∧ b'.seq = .done ∧ b'.sout = a.sin

/-- 46_orchestration section 2, "Corruption detection by truncation": a container cut at a byte boundary before its last bit raises a format error, by where it was cut. -/
def Obligations.TruncatedContainerRaises : Prop :=
  ∀ (a a' b : State) (t : Tree) (m : Nat), Ready a → a.sinPos = 0 → a.bout = [] → (∀ x : Byte, a.sin.count x < 2 ^ 32) →
    exec .compress a = .next a' → TreeIs a' t → 8 * m < a'.bout.length →
    Ready b → b.magic = a.magic → b.binRest = unpack ((pack a'.bout).take m) →
      ∃ b', exec .decompress b = .next b' ∧ b'.seq = .error ∧
        b'.err = (if 8 * m < 32 then 0x11 else if 8 * m < 32 + t.ser.length then 0x12 else 0x13)

/-- R217: empty input is not an error: the minimal container, which decompresses to nothing. -/
def Obligations.EmptyInputContainer : Prop :=
  ∀ s : State, Ready s → s.sinPos = 0 → s.sin = [] →
    (∃ u, exec .compress s = .next u ∧ u.seq = .done ∧
      u.bout = s.bout ++ (bitsN 32 s.magic.toNat ++ [false] ++ (true :: bitsN 9 256) ++ (true :: bitsN 9 256) ++ [true])) ∧
    ∀ (b : State) (rest : List Bit), Ready b →
      b.binRest = bitsN 32 b.magic.toNat ++ [false] ++ (true :: bitsN 9 256) ++ (true :: bitsN 9 256) ++ [true] ++ rest →
      ∃ b', exec .decompress b = .next b' ∧ b'.seq = .done ∧ b'.sout = b.sout
end

