-- ==== Sys2Proof/Laws/State.lean ====
section
/-!
SUPPORT. Each update of State by field, true by rfl, so that no later proof unfolds one.
-/
namespace Sys2Proof.Machine

variable (s : State)

/-! ## setFreq -/

@[simp] theorem State.setFreq_cmd (i : Nat) (c : Count) : (s.setFreq i c).cmd = s.cmd := rfl
@[simp] theorem State.setFreq_seq (i : Nat) (c : Count) : (s.setFreq i c).seq = s.seq := rfl
@[simp] theorem State.setFreq_treeValid (i : Nat) (c : Count) : (s.setFreq i c).treeValid = s.treeValid := rfl
@[simp] theorem State.setFreq_codeValid (i : Nat) (c : Count) : (s.setFreq i c).codeValid = s.codeValid := rfl
@[simp] theorem State.setFreq_ie (i : Nat) (c : Count) : (s.setFreq i c).ie = s.ie := rfl
@[simp] theorem State.setFreq_err (i : Nat) (c : Count) : (s.setFreq i c).err = s.err := rfl
@[simp] theorem State.setFreq_einfo (i : Nat) (c : Count) : (s.setFreq i c).einfo = s.einfo := rfl
@[simp] theorem State.setFreq_root (i : Nat) (c : Count) : (s.setFreq i c).root = s.root := rfl
@[simp] theorem State.setFreq_ncount (i : Nat) (c : Count) : (s.setFreq i c).ncount = s.ncount := rfl
@[simp] theorem State.setFreq_cur (i : Nat) (c : Count) : (s.setFreq i c).cur = s.cur := rfl
@[simp] theorem State.setFreq_sinCnt (i : Nat) (c : Count) : (s.setFreq i c).sinCnt = s.sinCnt := rfl
@[simp] theorem State.setFreq_binCnt (i : Nat) (c : Count) : (s.setFreq i c).binCnt = s.binCnt := rfl
@[simp] theorem State.setFreq_boutCnt (i : Nat) (c : Count) : (s.setFreq i c).boutCnt = s.boutCnt := rfl
@[simp] theorem State.setFreq_soutCnt (i : Nat) (c : Count) : (s.setFreq i c).soutCnt = s.soutCnt := rfl
@[simp] theorem State.setFreq_magic (i : Nat) (c : Count) : (s.setFreq i c).magic = s.magic := rfl
@[simp] theorem State.setFreq_freq (i : Nat) (c : Count) : (s.setFreq i c).freq = s.freq.setIfInBounds i c := rfl
@[simp] theorem State.setFreq_node (i : Nat) (c : Count) : (s.setFreq i c).node = s.node := rfl
@[simp] theorem State.setFreq_code (i : Nat) (c : Count) : (s.setFreq i c).code = s.code := rfl
@[simp] theorem State.setFreq_pq (i : Nat) (c : Count) : (s.setFreq i c).pq = s.pq := rfl
@[simp] theorem State.setFreq_sin (i : Nat) (c : Count) : (s.setFreq i c).sin = s.sin := rfl
@[simp] theorem State.setFreq_sinPos (i : Nat) (c : Count) : (s.setFreq i c).sinPos = s.sinPos := rfl
@[simp] theorem State.setFreq_bin (i : Nat) (c : Count) : (s.setFreq i c).bin = s.bin := rfl
@[simp] theorem State.setFreq_binPos (i : Nat) (c : Count) : (s.setFreq i c).binPos = s.binPos := rfl
@[simp] theorem State.setFreq_bout (i : Nat) (c : Count) : (s.setFreq i c).bout = s.bout := rfl
@[simp] theorem State.setFreq_sout (i : Nat) (c : Count) : (s.setFreq i c).sout = s.sout := rfl
@[simp] theorem State.setFreq_host (i : Nat) (c : Count) : (s.setFreq i c).host = s.host := rfl
@[simp] theorem State.setFreq_hostData (i : Nat) (c : Count) : (s.setFreq i c).hostData = s.hostData := rfl
@[simp] theorem State.setFreq_freeCtr (i : Nat) (c : Count) : (s.setFreq i c).freeCtr = s.freeCtr := rfl

/-! ## setNode -/

@[simp] theorem State.setNode_cmd (i : NodeIdx) (r : NodeRec) : (s.setNode i r).cmd = s.cmd := rfl
@[simp] theorem State.setNode_seq (i : NodeIdx) (r : NodeRec) : (s.setNode i r).seq = s.seq := rfl
@[simp] theorem State.setNode_treeValid (i : NodeIdx) (r : NodeRec) : (s.setNode i r).treeValid = s.treeValid := rfl
@[simp] theorem State.setNode_codeValid (i : NodeIdx) (r : NodeRec) : (s.setNode i r).codeValid = s.codeValid := rfl
@[simp] theorem State.setNode_ie (i : NodeIdx) (r : NodeRec) : (s.setNode i r).ie = s.ie := rfl
@[simp] theorem State.setNode_err (i : NodeIdx) (r : NodeRec) : (s.setNode i r).err = s.err := rfl
@[simp] theorem State.setNode_einfo (i : NodeIdx) (r : NodeRec) : (s.setNode i r).einfo = s.einfo := rfl
@[simp] theorem State.setNode_root (i : NodeIdx) (r : NodeRec) : (s.setNode i r).root = s.root := rfl
@[simp] theorem State.setNode_ncount (i : NodeIdx) (r : NodeRec) : (s.setNode i r).ncount = s.ncount := rfl
@[simp] theorem State.setNode_cur (i : NodeIdx) (r : NodeRec) : (s.setNode i r).cur = s.cur := rfl
@[simp] theorem State.setNode_sinCnt (i : NodeIdx) (r : NodeRec) : (s.setNode i r).sinCnt = s.sinCnt := rfl
@[simp] theorem State.setNode_binCnt (i : NodeIdx) (r : NodeRec) : (s.setNode i r).binCnt = s.binCnt := rfl
@[simp] theorem State.setNode_boutCnt (i : NodeIdx) (r : NodeRec) : (s.setNode i r).boutCnt = s.boutCnt := rfl
@[simp] theorem State.setNode_soutCnt (i : NodeIdx) (r : NodeRec) : (s.setNode i r).soutCnt = s.soutCnt := rfl
@[simp] theorem State.setNode_magic (i : NodeIdx) (r : NodeRec) : (s.setNode i r).magic = s.magic := rfl
@[simp] theorem State.setNode_freq (i : NodeIdx) (r : NodeRec) : (s.setNode i r).freq = s.freq := rfl
@[simp] theorem State.setNode_node (i : NodeIdx) (r : NodeRec) : (s.setNode i r).node = s.node.setIfInBounds i.toNat r := rfl
@[simp] theorem State.setNode_code (i : NodeIdx) (r : NodeRec) : (s.setNode i r).code = s.code := rfl
@[simp] theorem State.setNode_pq (i : NodeIdx) (r : NodeRec) : (s.setNode i r).pq = s.pq := rfl
@[simp] theorem State.setNode_sin (i : NodeIdx) (r : NodeRec) : (s.setNode i r).sin = s.sin := rfl
@[simp] theorem State.setNode_sinPos (i : NodeIdx) (r : NodeRec) : (s.setNode i r).sinPos = s.sinPos := rfl
@[simp] theorem State.setNode_bin (i : NodeIdx) (r : NodeRec) : (s.setNode i r).bin = s.bin := rfl
@[simp] theorem State.setNode_binPos (i : NodeIdx) (r : NodeRec) : (s.setNode i r).binPos = s.binPos := rfl
@[simp] theorem State.setNode_bout (i : NodeIdx) (r : NodeRec) : (s.setNode i r).bout = s.bout := rfl
@[simp] theorem State.setNode_sout (i : NodeIdx) (r : NodeRec) : (s.setNode i r).sout = s.sout := rfl
@[simp] theorem State.setNode_host (i : NodeIdx) (r : NodeRec) : (s.setNode i r).host = s.host := rfl
@[simp] theorem State.setNode_hostData (i : NodeIdx) (r : NodeRec) : (s.setNode i r).hostData = s.hostData := rfl
@[simp] theorem State.setNode_freeCtr (i : NodeIdx) (r : NodeRec) : (s.setNode i r).freeCtr = s.freeCtr := rfl

/-! ## setCode -/

@[simp] theorem State.setCode_cmd (i : Nat) (r : CodeRec) : (s.setCode i r).cmd = s.cmd := rfl
@[simp] theorem State.setCode_seq (i : Nat) (r : CodeRec) : (s.setCode i r).seq = s.seq := rfl
@[simp] theorem State.setCode_treeValid (i : Nat) (r : CodeRec) : (s.setCode i r).treeValid = s.treeValid := rfl
@[simp] theorem State.setCode_codeValid (i : Nat) (r : CodeRec) : (s.setCode i r).codeValid = s.codeValid := rfl
@[simp] theorem State.setCode_ie (i : Nat) (r : CodeRec) : (s.setCode i r).ie = s.ie := rfl
@[simp] theorem State.setCode_err (i : Nat) (r : CodeRec) : (s.setCode i r).err = s.err := rfl
@[simp] theorem State.setCode_einfo (i : Nat) (r : CodeRec) : (s.setCode i r).einfo = s.einfo := rfl
@[simp] theorem State.setCode_root (i : Nat) (r : CodeRec) : (s.setCode i r).root = s.root := rfl
@[simp] theorem State.setCode_ncount (i : Nat) (r : CodeRec) : (s.setCode i r).ncount = s.ncount := rfl
@[simp] theorem State.setCode_cur (i : Nat) (r : CodeRec) : (s.setCode i r).cur = s.cur := rfl
@[simp] theorem State.setCode_sinCnt (i : Nat) (r : CodeRec) : (s.setCode i r).sinCnt = s.sinCnt := rfl
@[simp] theorem State.setCode_binCnt (i : Nat) (r : CodeRec) : (s.setCode i r).binCnt = s.binCnt := rfl
@[simp] theorem State.setCode_boutCnt (i : Nat) (r : CodeRec) : (s.setCode i r).boutCnt = s.boutCnt := rfl
@[simp] theorem State.setCode_soutCnt (i : Nat) (r : CodeRec) : (s.setCode i r).soutCnt = s.soutCnt := rfl
@[simp] theorem State.setCode_magic (i : Nat) (r : CodeRec) : (s.setCode i r).magic = s.magic := rfl
@[simp] theorem State.setCode_freq (i : Nat) (r : CodeRec) : (s.setCode i r).freq = s.freq := rfl
@[simp] theorem State.setCode_node (i : Nat) (r : CodeRec) : (s.setCode i r).node = s.node := rfl
@[simp] theorem State.setCode_code (i : Nat) (r : CodeRec) : (s.setCode i r).code = s.code.setIfInBounds i r := rfl
@[simp] theorem State.setCode_pq (i : Nat) (r : CodeRec) : (s.setCode i r).pq = s.pq := rfl
@[simp] theorem State.setCode_sin (i : Nat) (r : CodeRec) : (s.setCode i r).sin = s.sin := rfl
@[simp] theorem State.setCode_sinPos (i : Nat) (r : CodeRec) : (s.setCode i r).sinPos = s.sinPos := rfl
@[simp] theorem State.setCode_bin (i : Nat) (r : CodeRec) : (s.setCode i r).bin = s.bin := rfl
@[simp] theorem State.setCode_binPos (i : Nat) (r : CodeRec) : (s.setCode i r).binPos = s.binPos := rfl
@[simp] theorem State.setCode_bout (i : Nat) (r : CodeRec) : (s.setCode i r).bout = s.bout := rfl
@[simp] theorem State.setCode_sout (i : Nat) (r : CodeRec) : (s.setCode i r).sout = s.sout := rfl
@[simp] theorem State.setCode_host (i : Nat) (r : CodeRec) : (s.setCode i r).host = s.host := rfl
@[simp] theorem State.setCode_hostData (i : Nat) (r : CodeRec) : (s.setCode i r).hostData = s.hostData := rfl
@[simp] theorem State.setCode_freeCtr (i : Nat) (r : CodeRec) : (s.setCode i r).freeCtr = s.freeCtr := rfl

/-! ## advanceSin -/

@[simp] theorem State.advanceSin_cmd : s.advanceSin.cmd = s.cmd := rfl
@[simp] theorem State.advanceSin_seq : s.advanceSin.seq = s.seq := rfl
@[simp] theorem State.advanceSin_treeValid : s.advanceSin.treeValid = s.treeValid := rfl
@[simp] theorem State.advanceSin_codeValid : s.advanceSin.codeValid = s.codeValid := rfl
@[simp] theorem State.advanceSin_ie : s.advanceSin.ie = s.ie := rfl
@[simp] theorem State.advanceSin_err : s.advanceSin.err = s.err := rfl
@[simp] theorem State.advanceSin_einfo : s.advanceSin.einfo = s.einfo := rfl
@[simp] theorem State.advanceSin_root : s.advanceSin.root = s.root := rfl
@[simp] theorem State.advanceSin_ncount : s.advanceSin.ncount = s.ncount := rfl
@[simp] theorem State.advanceSin_cur : s.advanceSin.cur = s.cur := rfl
@[simp] theorem State.advanceSin_sinCnt : s.advanceSin.sinCnt = s.sinCnt + 1 := rfl
@[simp] theorem State.advanceSin_binCnt : s.advanceSin.binCnt = s.binCnt := rfl
@[simp] theorem State.advanceSin_boutCnt : s.advanceSin.boutCnt = s.boutCnt := rfl
@[simp] theorem State.advanceSin_soutCnt : s.advanceSin.soutCnt = s.soutCnt := rfl
@[simp] theorem State.advanceSin_magic : s.advanceSin.magic = s.magic := rfl
@[simp] theorem State.advanceSin_freq : s.advanceSin.freq = s.freq := rfl
@[simp] theorem State.advanceSin_node : s.advanceSin.node = s.node := rfl
@[simp] theorem State.advanceSin_code : s.advanceSin.code = s.code := rfl
@[simp] theorem State.advanceSin_pq : s.advanceSin.pq = s.pq := rfl
@[simp] theorem State.advanceSin_sin : s.advanceSin.sin = s.sin := rfl
@[simp] theorem State.advanceSin_sinPos : s.advanceSin.sinPos = s.sinPos + 1 := rfl
@[simp] theorem State.advanceSin_bin : s.advanceSin.bin = s.bin := rfl
@[simp] theorem State.advanceSin_binPos : s.advanceSin.binPos = s.binPos := rfl
@[simp] theorem State.advanceSin_bout : s.advanceSin.bout = s.bout := rfl
@[simp] theorem State.advanceSin_sout : s.advanceSin.sout = s.sout := rfl
@[simp] theorem State.advanceSin_host : s.advanceSin.host = s.host := rfl
@[simp] theorem State.advanceSin_hostData : s.advanceSin.hostData = s.hostData := rfl
@[simp] theorem State.advanceSin_freeCtr : s.advanceSin.freeCtr = s.freeCtr := rfl

/-! ## symRewind -/

@[simp] theorem State.symRewind_cmd : s.symRewind.cmd = s.cmd := rfl
@[simp] theorem State.symRewind_seq : s.symRewind.seq = s.seq := rfl
@[simp] theorem State.symRewind_treeValid : s.symRewind.treeValid = s.treeValid := rfl
@[simp] theorem State.symRewind_codeValid : s.symRewind.codeValid = s.codeValid := rfl
@[simp] theorem State.symRewind_ie : s.symRewind.ie = s.ie := rfl
@[simp] theorem State.symRewind_err : s.symRewind.err = s.err := rfl
@[simp] theorem State.symRewind_einfo : s.symRewind.einfo = s.einfo := rfl
@[simp] theorem State.symRewind_root : s.symRewind.root = s.root := rfl
@[simp] theorem State.symRewind_ncount : s.symRewind.ncount = s.ncount := rfl
@[simp] theorem State.symRewind_cur : s.symRewind.cur = s.cur := rfl
@[simp] theorem State.symRewind_sinCnt : s.symRewind.sinCnt = 0 := rfl
@[simp] theorem State.symRewind_binCnt : s.symRewind.binCnt = s.binCnt := rfl
@[simp] theorem State.symRewind_boutCnt : s.symRewind.boutCnt = s.boutCnt := rfl
@[simp] theorem State.symRewind_soutCnt : s.symRewind.soutCnt = s.soutCnt := rfl
@[simp] theorem State.symRewind_magic : s.symRewind.magic = s.magic := rfl
@[simp] theorem State.symRewind_freq : s.symRewind.freq = s.freq := rfl
@[simp] theorem State.symRewind_node : s.symRewind.node = s.node := rfl
@[simp] theorem State.symRewind_code : s.symRewind.code = s.code := rfl
@[simp] theorem State.symRewind_pq : s.symRewind.pq = s.pq := rfl
@[simp] theorem State.symRewind_sin : s.symRewind.sin = s.sin := rfl
@[simp] theorem State.symRewind_sinPos : s.symRewind.sinPos = 0 := rfl
@[simp] theorem State.symRewind_bin : s.symRewind.bin = s.bin := rfl
@[simp] theorem State.symRewind_binPos : s.symRewind.binPos = s.binPos := rfl
@[simp] theorem State.symRewind_bout : s.symRewind.bout = s.bout := rfl
@[simp] theorem State.symRewind_sout : s.symRewind.sout = s.sout := rfl
@[simp] theorem State.symRewind_host : s.symRewind.host = s.host := rfl
@[simp] theorem State.symRewind_hostData : s.symRewind.hostData = s.hostData := rfl
@[simp] theorem State.symRewind_freeCtr : s.symRewind.freeCtr = s.freeCtr := rfl

/-! ## advanceBin -/

@[simp] theorem State.advanceBin_cmd : s.advanceBin.cmd = s.cmd := rfl
@[simp] theorem State.advanceBin_seq : s.advanceBin.seq = s.seq := rfl
@[simp] theorem State.advanceBin_treeValid : s.advanceBin.treeValid = s.treeValid := rfl
@[simp] theorem State.advanceBin_codeValid : s.advanceBin.codeValid = s.codeValid := rfl
@[simp] theorem State.advanceBin_ie : s.advanceBin.ie = s.ie := rfl
@[simp] theorem State.advanceBin_err : s.advanceBin.err = s.err := rfl
@[simp] theorem State.advanceBin_einfo : s.advanceBin.einfo = s.einfo := rfl
@[simp] theorem State.advanceBin_root : s.advanceBin.root = s.root := rfl
@[simp] theorem State.advanceBin_ncount : s.advanceBin.ncount = s.ncount := rfl
@[simp] theorem State.advanceBin_cur : s.advanceBin.cur = s.cur := rfl
@[simp] theorem State.advanceBin_sinCnt : s.advanceBin.sinCnt = s.sinCnt := rfl
@[simp] theorem State.advanceBin_binCnt : s.advanceBin.binCnt = s.binCnt + 1 := rfl
@[simp] theorem State.advanceBin_boutCnt : s.advanceBin.boutCnt = s.boutCnt := rfl
@[simp] theorem State.advanceBin_soutCnt : s.advanceBin.soutCnt = s.soutCnt := rfl
@[simp] theorem State.advanceBin_magic : s.advanceBin.magic = s.magic := rfl
@[simp] theorem State.advanceBin_freq : s.advanceBin.freq = s.freq := rfl
@[simp] theorem State.advanceBin_node : s.advanceBin.node = s.node := rfl
@[simp] theorem State.advanceBin_code : s.advanceBin.code = s.code := rfl
@[simp] theorem State.advanceBin_pq : s.advanceBin.pq = s.pq := rfl
@[simp] theorem State.advanceBin_sin : s.advanceBin.sin = s.sin := rfl
@[simp] theorem State.advanceBin_sinPos : s.advanceBin.sinPos = s.sinPos := rfl
@[simp] theorem State.advanceBin_bin : s.advanceBin.bin = s.bin := rfl
@[simp] theorem State.advanceBin_binPos : s.advanceBin.binPos = s.binPos + 1 := rfl
@[simp] theorem State.advanceBin_bout : s.advanceBin.bout = s.bout := rfl
@[simp] theorem State.advanceBin_sout : s.advanceBin.sout = s.sout := rfl
@[simp] theorem State.advanceBin_host : s.advanceBin.host = s.host := rfl
@[simp] theorem State.advanceBin_hostData : s.advanceBin.hostData = s.hostData := rfl
@[simp] theorem State.advanceBin_freeCtr : s.advanceBin.freeCtr = s.freeCtr := rfl

/-! ## bitWrite -/

@[simp] theorem State.bitWrite_cmd (b : Bit) : (s.bitWrite b).cmd = s.cmd := rfl
@[simp] theorem State.bitWrite_seq (b : Bit) : (s.bitWrite b).seq = s.seq := rfl
@[simp] theorem State.bitWrite_treeValid (b : Bit) : (s.bitWrite b).treeValid = s.treeValid := rfl
@[simp] theorem State.bitWrite_codeValid (b : Bit) : (s.bitWrite b).codeValid = s.codeValid := rfl
@[simp] theorem State.bitWrite_ie (b : Bit) : (s.bitWrite b).ie = s.ie := rfl
@[simp] theorem State.bitWrite_err (b : Bit) : (s.bitWrite b).err = s.err := rfl
@[simp] theorem State.bitWrite_einfo (b : Bit) : (s.bitWrite b).einfo = s.einfo := rfl
@[simp] theorem State.bitWrite_root (b : Bit) : (s.bitWrite b).root = s.root := rfl
@[simp] theorem State.bitWrite_ncount (b : Bit) : (s.bitWrite b).ncount = s.ncount := rfl
@[simp] theorem State.bitWrite_cur (b : Bit) : (s.bitWrite b).cur = s.cur := rfl
@[simp] theorem State.bitWrite_sinCnt (b : Bit) : (s.bitWrite b).sinCnt = s.sinCnt := rfl
@[simp] theorem State.bitWrite_binCnt (b : Bit) : (s.bitWrite b).binCnt = s.binCnt := rfl
@[simp] theorem State.bitWrite_boutCnt (b : Bit) : (s.bitWrite b).boutCnt = s.boutCnt + 1 := rfl
@[simp] theorem State.bitWrite_soutCnt (b : Bit) : (s.bitWrite b).soutCnt = s.soutCnt := rfl
@[simp] theorem State.bitWrite_magic (b : Bit) : (s.bitWrite b).magic = s.magic := rfl
@[simp] theorem State.bitWrite_freq (b : Bit) : (s.bitWrite b).freq = s.freq := rfl
@[simp] theorem State.bitWrite_node (b : Bit) : (s.bitWrite b).node = s.node := rfl
@[simp] theorem State.bitWrite_code (b : Bit) : (s.bitWrite b).code = s.code := rfl
@[simp] theorem State.bitWrite_pq (b : Bit) : (s.bitWrite b).pq = s.pq := rfl
@[simp] theorem State.bitWrite_sin (b : Bit) : (s.bitWrite b).sin = s.sin := rfl
@[simp] theorem State.bitWrite_sinPos (b : Bit) : (s.bitWrite b).sinPos = s.sinPos := rfl
@[simp] theorem State.bitWrite_bin (b : Bit) : (s.bitWrite b).bin = s.bin := rfl
@[simp] theorem State.bitWrite_binPos (b : Bit) : (s.bitWrite b).binPos = s.binPos := rfl
@[simp] theorem State.bitWrite_bout (b : Bit) : (s.bitWrite b).bout = s.bout ++ [b] := rfl
@[simp] theorem State.bitWrite_sout (b : Bit) : (s.bitWrite b).sout = s.sout := rfl
@[simp] theorem State.bitWrite_host (b : Bit) : (s.bitWrite b).host = s.host := rfl
@[simp] theorem State.bitWrite_hostData (b : Bit) : (s.bitWrite b).hostData = s.hostData := rfl
@[simp] theorem State.bitWrite_freeCtr (b : Bit) : (s.bitWrite b).freeCtr = s.freeCtr := rfl

/-! ## symWrite -/

@[simp] theorem State.symWrite_cmd (b : Byte) : (s.symWrite b).cmd = s.cmd := rfl
@[simp] theorem State.symWrite_seq (b : Byte) : (s.symWrite b).seq = s.seq := rfl
@[simp] theorem State.symWrite_treeValid (b : Byte) : (s.symWrite b).treeValid = s.treeValid := rfl
@[simp] theorem State.symWrite_codeValid (b : Byte) : (s.symWrite b).codeValid = s.codeValid := rfl
@[simp] theorem State.symWrite_ie (b : Byte) : (s.symWrite b).ie = s.ie := rfl
@[simp] theorem State.symWrite_err (b : Byte) : (s.symWrite b).err = s.err := rfl
@[simp] theorem State.symWrite_einfo (b : Byte) : (s.symWrite b).einfo = s.einfo := rfl
@[simp] theorem State.symWrite_root (b : Byte) : (s.symWrite b).root = s.root := rfl
@[simp] theorem State.symWrite_ncount (b : Byte) : (s.symWrite b).ncount = s.ncount := rfl
@[simp] theorem State.symWrite_cur (b : Byte) : (s.symWrite b).cur = s.cur := rfl
@[simp] theorem State.symWrite_sinCnt (b : Byte) : (s.symWrite b).sinCnt = s.sinCnt := rfl
@[simp] theorem State.symWrite_binCnt (b : Byte) : (s.symWrite b).binCnt = s.binCnt := rfl
@[simp] theorem State.symWrite_boutCnt (b : Byte) : (s.symWrite b).boutCnt = s.boutCnt := rfl
@[simp] theorem State.symWrite_soutCnt (b : Byte) : (s.symWrite b).soutCnt = s.soutCnt + 1 := rfl
@[simp] theorem State.symWrite_magic (b : Byte) : (s.symWrite b).magic = s.magic := rfl
@[simp] theorem State.symWrite_freq (b : Byte) : (s.symWrite b).freq = s.freq := rfl
@[simp] theorem State.symWrite_node (b : Byte) : (s.symWrite b).node = s.node := rfl
@[simp] theorem State.symWrite_code (b : Byte) : (s.symWrite b).code = s.code := rfl
@[simp] theorem State.symWrite_pq (b : Byte) : (s.symWrite b).pq = s.pq := rfl
@[simp] theorem State.symWrite_sin (b : Byte) : (s.symWrite b).sin = s.sin := rfl
@[simp] theorem State.symWrite_sinPos (b : Byte) : (s.symWrite b).sinPos = s.sinPos := rfl
@[simp] theorem State.symWrite_bin (b : Byte) : (s.symWrite b).bin = s.bin := rfl
@[simp] theorem State.symWrite_binPos (b : Byte) : (s.symWrite b).binPos = s.binPos := rfl
@[simp] theorem State.symWrite_bout (b : Byte) : (s.symWrite b).bout = s.bout := rfl
@[simp] theorem State.symWrite_sout (b : Byte) : (s.symWrite b).sout = s.sout ++ [b] := rfl
@[simp] theorem State.symWrite_host (b : Byte) : (s.symWrite b).host = s.host := rfl
@[simp] theorem State.symWrite_hostData (b : Byte) : (s.symWrite b).hostData = s.hostData := rfl
@[simp] theorem State.symWrite_freeCtr (b : Byte) : (s.symWrite b).freeCtr = s.freeCtr := rfl

/-! ## writeCtrl -/

@[simp] theorem State.writeCtrl_cmd (v : BitVec 32) : (s.writeCtrl v).cmd = s.cmd := rfl
@[simp] theorem State.writeCtrl_seq (v : BitVec 32) : (s.writeCtrl v).seq = s.seq := rfl
@[simp] theorem State.writeCtrl_treeValid (v : BitVec 32) : (s.writeCtrl v).treeValid = s.treeValid := rfl
@[simp] theorem State.writeCtrl_codeValid (v : BitVec 32) : (s.writeCtrl v).codeValid = s.codeValid := rfl
@[simp] theorem State.writeCtrl_ie (v : BitVec 32) : (s.writeCtrl v).ie = v.getLsbD 0 := rfl
@[simp] theorem State.writeCtrl_err (v : BitVec 32) : (s.writeCtrl v).err = s.err := rfl
@[simp] theorem State.writeCtrl_einfo (v : BitVec 32) : (s.writeCtrl v).einfo = s.einfo := rfl
@[simp] theorem State.writeCtrl_root (v : BitVec 32) : (s.writeCtrl v).root = s.root := rfl
@[simp] theorem State.writeCtrl_ncount (v : BitVec 32) : (s.writeCtrl v).ncount = s.ncount := rfl
@[simp] theorem State.writeCtrl_cur (v : BitVec 32) : (s.writeCtrl v).cur = s.cur := rfl
@[simp] theorem State.writeCtrl_sinCnt (v : BitVec 32) : (s.writeCtrl v).sinCnt = s.sinCnt := rfl
@[simp] theorem State.writeCtrl_binCnt (v : BitVec 32) : (s.writeCtrl v).binCnt = s.binCnt := rfl
@[simp] theorem State.writeCtrl_boutCnt (v : BitVec 32) : (s.writeCtrl v).boutCnt = s.boutCnt := rfl
@[simp] theorem State.writeCtrl_soutCnt (v : BitVec 32) : (s.writeCtrl v).soutCnt = s.soutCnt := rfl
@[simp] theorem State.writeCtrl_magic (v : BitVec 32) : (s.writeCtrl v).magic = s.magic := rfl
@[simp] theorem State.writeCtrl_freq (v : BitVec 32) : (s.writeCtrl v).freq = s.freq := rfl
@[simp] theorem State.writeCtrl_node (v : BitVec 32) : (s.writeCtrl v).node = s.node := rfl
@[simp] theorem State.writeCtrl_code (v : BitVec 32) : (s.writeCtrl v).code = s.code := rfl
@[simp] theorem State.writeCtrl_pq (v : BitVec 32) : (s.writeCtrl v).pq = s.pq := rfl
@[simp] theorem State.writeCtrl_sin (v : BitVec 32) : (s.writeCtrl v).sin = s.sin := rfl
@[simp] theorem State.writeCtrl_sinPos (v : BitVec 32) : (s.writeCtrl v).sinPos = s.sinPos := rfl
@[simp] theorem State.writeCtrl_bin (v : BitVec 32) : (s.writeCtrl v).bin = s.bin := rfl
@[simp] theorem State.writeCtrl_binPos (v : BitVec 32) : (s.writeCtrl v).binPos = s.binPos := rfl
@[simp] theorem State.writeCtrl_bout (v : BitVec 32) : (s.writeCtrl v).bout = s.bout := rfl
@[simp] theorem State.writeCtrl_sout (v : BitVec 32) : (s.writeCtrl v).sout = s.sout := rfl
@[simp] theorem State.writeCtrl_host (v : BitVec 32) : (s.writeCtrl v).host = s.host := rfl
@[simp] theorem State.writeCtrl_hostData (v : BitVec 32) : (s.writeCtrl v).hostData = s.hostData := rfl
@[simp] theorem State.writeCtrl_freeCtr (v : BitVec 32) : (s.writeCtrl v).freeCtr = s.freeCtr := rfl

/-! ## dropTree -/

@[simp] theorem State.dropTree_cmd : s.dropTree.cmd = s.cmd := rfl
@[simp] theorem State.dropTree_seq : s.dropTree.seq = s.seq := rfl
@[simp] theorem State.dropTree_treeValid : s.dropTree.treeValid = false := rfl
@[simp] theorem State.dropTree_codeValid : s.dropTree.codeValid = s.codeValid := rfl
@[simp] theorem State.dropTree_ie : s.dropTree.ie = s.ie := rfl
@[simp] theorem State.dropTree_err : s.dropTree.err = s.err := rfl
@[simp] theorem State.dropTree_einfo : s.dropTree.einfo = s.einfo := rfl
@[simp] theorem State.dropTree_root : s.dropTree.root = s.root := rfl
@[simp] theorem State.dropTree_ncount : s.dropTree.ncount = s.ncount := rfl
@[simp] theorem State.dropTree_cur : s.dropTree.cur = s.cur := rfl
@[simp] theorem State.dropTree_sinCnt : s.dropTree.sinCnt = s.sinCnt := rfl
@[simp] theorem State.dropTree_binCnt : s.dropTree.binCnt = s.binCnt := rfl
@[simp] theorem State.dropTree_boutCnt : s.dropTree.boutCnt = s.boutCnt := rfl
@[simp] theorem State.dropTree_soutCnt : s.dropTree.soutCnt = s.soutCnt := rfl
@[simp] theorem State.dropTree_magic : s.dropTree.magic = s.magic := rfl
@[simp] theorem State.dropTree_freq : s.dropTree.freq = s.freq := rfl
@[simp] theorem State.dropTree_node : s.dropTree.node = Config.freeNodes s.freeCtr := rfl
@[simp] theorem State.dropTree_code : s.dropTree.code = s.code := rfl
@[simp] theorem State.dropTree_pq : s.dropTree.pq = s.pq := rfl
@[simp] theorem State.dropTree_sin : s.dropTree.sin = s.sin := rfl
@[simp] theorem State.dropTree_sinPos : s.dropTree.sinPos = s.sinPos := rfl
@[simp] theorem State.dropTree_bin : s.dropTree.bin = s.bin := rfl
@[simp] theorem State.dropTree_binPos : s.dropTree.binPos = s.binPos := rfl
@[simp] theorem State.dropTree_bout : s.dropTree.bout = s.bout := rfl
@[simp] theorem State.dropTree_sout : s.dropTree.sout = s.sout := rfl
@[simp] theorem State.dropTree_host : s.dropTree.host = s.host := rfl
@[simp] theorem State.dropTree_hostData : s.dropTree.hostData = s.hostData := rfl
@[simp] theorem State.dropTree_freeCtr : s.dropTree.freeCtr = s.freeCtr + 1 := rfl

/-! ## dropCodes -/

@[simp] theorem State.dropCodes_cmd : s.dropCodes.cmd = s.cmd := rfl
@[simp] theorem State.dropCodes_seq : s.dropCodes.seq = s.seq := rfl
@[simp] theorem State.dropCodes_treeValid : s.dropCodes.treeValid = s.treeValid := rfl
@[simp] theorem State.dropCodes_codeValid : s.dropCodes.codeValid = false := rfl
@[simp] theorem State.dropCodes_ie : s.dropCodes.ie = s.ie := rfl
@[simp] theorem State.dropCodes_err : s.dropCodes.err = s.err := rfl
@[simp] theorem State.dropCodes_einfo : s.dropCodes.einfo = s.einfo := rfl
@[simp] theorem State.dropCodes_root : s.dropCodes.root = s.root := rfl
@[simp] theorem State.dropCodes_ncount : s.dropCodes.ncount = s.ncount := rfl
@[simp] theorem State.dropCodes_cur : s.dropCodes.cur = s.cur := rfl
@[simp] theorem State.dropCodes_sinCnt : s.dropCodes.sinCnt = s.sinCnt := rfl
@[simp] theorem State.dropCodes_binCnt : s.dropCodes.binCnt = s.binCnt := rfl
@[simp] theorem State.dropCodes_boutCnt : s.dropCodes.boutCnt = s.boutCnt := rfl
@[simp] theorem State.dropCodes_soutCnt : s.dropCodes.soutCnt = s.soutCnt := rfl
@[simp] theorem State.dropCodes_magic : s.dropCodes.magic = s.magic := rfl
@[simp] theorem State.dropCodes_freq : s.dropCodes.freq = s.freq := rfl
@[simp] theorem State.dropCodes_node : s.dropCodes.node = s.node := rfl
@[simp] theorem State.dropCodes_code : s.dropCodes.code = Config.freeCodes s.freeCtr := rfl
@[simp] theorem State.dropCodes_pq : s.dropCodes.pq = s.pq := rfl
@[simp] theorem State.dropCodes_sin : s.dropCodes.sin = s.sin := rfl
@[simp] theorem State.dropCodes_sinPos : s.dropCodes.sinPos = s.sinPos := rfl
@[simp] theorem State.dropCodes_bin : s.dropCodes.bin = s.bin := rfl
@[simp] theorem State.dropCodes_binPos : s.dropCodes.binPos = s.binPos := rfl
@[simp] theorem State.dropCodes_bout : s.dropCodes.bout = s.bout := rfl
@[simp] theorem State.dropCodes_sout : s.dropCodes.sout = s.sout := rfl
@[simp] theorem State.dropCodes_host : s.dropCodes.host = s.host := rfl
@[simp] theorem State.dropCodes_hostData : s.dropCodes.hostData = s.hostData := rfl
@[simp] theorem State.dropCodes_freeCtr : s.dropCodes.freeCtr = s.freeCtr + 1 := rfl

/-! ## raiseError -/

@[simp] theorem State.raiseError_cmd (e : ErrKind) (info : BitVec 32) : (s.raiseError e info).cmd = s.cmd := rfl
@[simp] theorem State.raiseError_seq (e : ErrKind) (info : BitVec 32) : (s.raiseError e info).seq = .error := rfl
@[simp] theorem State.raiseError_treeValid (e : ErrKind) (info : BitVec 32) : (s.raiseError e info).treeValid = s.treeValid := rfl
@[simp] theorem State.raiseError_codeValid (e : ErrKind) (info : BitVec 32) : (s.raiseError e info).codeValid = s.codeValid := rfl
@[simp] theorem State.raiseError_ie (e : ErrKind) (info : BitVec 32) : (s.raiseError e info).ie = s.ie := rfl
@[simp] theorem State.raiseError_err (e : ErrKind) (info : BitVec 32) : (s.raiseError e info).err = e.code := rfl
@[simp] theorem State.raiseError_einfo (e : ErrKind) (info : BitVec 32) : (s.raiseError e info).einfo = info := rfl
@[simp] theorem State.raiseError_root (e : ErrKind) (info : BitVec 32) : (s.raiseError e info).root = s.root := rfl
@[simp] theorem State.raiseError_ncount (e : ErrKind) (info : BitVec 32) : (s.raiseError e info).ncount = s.ncount := rfl
@[simp] theorem State.raiseError_cur (e : ErrKind) (info : BitVec 32) : (s.raiseError e info).cur = s.cur := rfl
@[simp] theorem State.raiseError_sinCnt (e : ErrKind) (info : BitVec 32) : (s.raiseError e info).sinCnt = s.sinCnt := rfl
@[simp] theorem State.raiseError_binCnt (e : ErrKind) (info : BitVec 32) : (s.raiseError e info).binCnt = s.binCnt := rfl
@[simp] theorem State.raiseError_boutCnt (e : ErrKind) (info : BitVec 32) : (s.raiseError e info).boutCnt = s.boutCnt := rfl
@[simp] theorem State.raiseError_soutCnt (e : ErrKind) (info : BitVec 32) : (s.raiseError e info).soutCnt = s.soutCnt := rfl
@[simp] theorem State.raiseError_magic (e : ErrKind) (info : BitVec 32) : (s.raiseError e info).magic = s.magic := rfl
@[simp] theorem State.raiseError_freq (e : ErrKind) (info : BitVec 32) : (s.raiseError e info).freq = s.freq := rfl
@[simp] theorem State.raiseError_node (e : ErrKind) (info : BitVec 32) : (s.raiseError e info).node = s.node := rfl
@[simp] theorem State.raiseError_code (e : ErrKind) (info : BitVec 32) : (s.raiseError e info).code = s.code := rfl
@[simp] theorem State.raiseError_pq (e : ErrKind) (info : BitVec 32) : (s.raiseError e info).pq = s.pq := rfl
@[simp] theorem State.raiseError_sin (e : ErrKind) (info : BitVec 32) : (s.raiseError e info).sin = s.sin := rfl
@[simp] theorem State.raiseError_sinPos (e : ErrKind) (info : BitVec 32) : (s.raiseError e info).sinPos = s.sinPos := rfl
@[simp] theorem State.raiseError_bin (e : ErrKind) (info : BitVec 32) : (s.raiseError e info).bin = s.bin := rfl
@[simp] theorem State.raiseError_binPos (e : ErrKind) (info : BitVec 32) : (s.raiseError e info).binPos = s.binPos := rfl
@[simp] theorem State.raiseError_bout (e : ErrKind) (info : BitVec 32) : (s.raiseError e info).bout = s.bout := rfl
@[simp] theorem State.raiseError_sout (e : ErrKind) (info : BitVec 32) : (s.raiseError e info).sout = s.sout := rfl
@[simp] theorem State.raiseError_host (e : ErrKind) (info : BitVec 32) : (s.raiseError e info).host = s.host := rfl
@[simp] theorem State.raiseError_hostData (e : ErrKind) (info : BitVec 32) : (s.raiseError e info).hostData = s.hostData := rfl
@[simp] theorem State.raiseError_freeCtr (e : ErrKind) (info : BitVec 32) : (s.raiseError e info).freeCtr = s.freeCtr := rfl

/-! ## clearBlock -/

@[simp] theorem State.clearBlock_cmd : s.clearBlock.cmd = 0 := rfl
@[simp] theorem State.clearBlock_seq : s.clearBlock.seq = s.seq := rfl
@[simp] theorem State.clearBlock_treeValid : s.clearBlock.treeValid = false := rfl
@[simp] theorem State.clearBlock_codeValid : s.clearBlock.codeValid = false := rfl
@[simp] theorem State.clearBlock_ie : s.clearBlock.ie = s.ie := rfl
@[simp] theorem State.clearBlock_err : s.clearBlock.err = 0 := rfl
@[simp] theorem State.clearBlock_einfo : s.clearBlock.einfo = 0 := rfl
@[simp] theorem State.clearBlock_root : s.clearBlock.root = 0 := rfl
@[simp] theorem State.clearBlock_ncount : s.clearBlock.ncount = 0 := rfl
@[simp] theorem State.clearBlock_cur : s.clearBlock.cur = 0 := rfl
@[simp] theorem State.clearBlock_sinCnt : s.clearBlock.sinCnt = 0 := rfl
@[simp] theorem State.clearBlock_binCnt : s.clearBlock.binCnt = 0 := rfl
@[simp] theorem State.clearBlock_boutCnt : s.clearBlock.boutCnt = 0 := rfl
@[simp] theorem State.clearBlock_soutCnt : s.clearBlock.soutCnt = 0 := rfl
@[simp] theorem State.clearBlock_magic : s.clearBlock.magic = s.magic := rfl
@[simp] theorem State.clearBlock_freq : s.clearBlock.freq = Vector.replicate 256 0 := rfl
@[simp] theorem State.clearBlock_node : s.clearBlock.node = Config.freeNodes s.freeCtr := rfl
@[simp] theorem State.clearBlock_code : s.clearBlock.code = Config.freeCodes (s.freeCtr + 1) := rfl
@[simp] theorem State.clearBlock_pq : s.clearBlock.pq = [] := rfl
@[simp] theorem State.clearBlock_sin : s.clearBlock.sin = s.sin := rfl
@[simp] theorem State.clearBlock_sinPos : s.clearBlock.sinPos = s.sinPos := rfl
@[simp] theorem State.clearBlock_bin : s.clearBlock.bin = s.bin := rfl
@[simp] theorem State.clearBlock_binPos : s.clearBlock.binPos = s.binPos := rfl
@[simp] theorem State.clearBlock_bout : s.clearBlock.bout = s.bout := rfl
@[simp] theorem State.clearBlock_sout : s.clearBlock.sout = s.sout := rfl
@[simp] theorem State.clearBlock_host : s.clearBlock.host = s.host := rfl
@[simp] theorem State.clearBlock_hostData : s.clearBlock.hostData = s.hostData := rfl
@[simp] theorem State.clearBlock_freeCtr : s.clearBlock.freeCtr = s.freeCtr + 2 := rfl

/-! ## pqInsert -/

@[simp] theorem State.pqInsert_cmd (i : NodeIdx) : (s.pqInsert i).cmd = s.cmd := rfl
@[simp] theorem State.pqInsert_seq (i : NodeIdx) : (s.pqInsert i).seq = s.seq := rfl
@[simp] theorem State.pqInsert_treeValid (i : NodeIdx) : (s.pqInsert i).treeValid = s.treeValid := rfl
@[simp] theorem State.pqInsert_codeValid (i : NodeIdx) : (s.pqInsert i).codeValid = s.codeValid := rfl
@[simp] theorem State.pqInsert_ie (i : NodeIdx) : (s.pqInsert i).ie = s.ie := rfl
@[simp] theorem State.pqInsert_err (i : NodeIdx) : (s.pqInsert i).err = s.err := rfl
@[simp] theorem State.pqInsert_einfo (i : NodeIdx) : (s.pqInsert i).einfo = s.einfo := rfl
@[simp] theorem State.pqInsert_root (i : NodeIdx) : (s.pqInsert i).root = s.root := rfl
@[simp] theorem State.pqInsert_ncount (i : NodeIdx) : (s.pqInsert i).ncount = s.ncount := rfl
@[simp] theorem State.pqInsert_cur (i : NodeIdx) : (s.pqInsert i).cur = s.cur := rfl
@[simp] theorem State.pqInsert_sinCnt (i : NodeIdx) : (s.pqInsert i).sinCnt = s.sinCnt := rfl
@[simp] theorem State.pqInsert_binCnt (i : NodeIdx) : (s.pqInsert i).binCnt = s.binCnt := rfl
@[simp] theorem State.pqInsert_boutCnt (i : NodeIdx) : (s.pqInsert i).boutCnt = s.boutCnt := rfl
@[simp] theorem State.pqInsert_soutCnt (i : NodeIdx) : (s.pqInsert i).soutCnt = s.soutCnt := rfl
@[simp] theorem State.pqInsert_magic (i : NodeIdx) : (s.pqInsert i).magic = s.magic := rfl
@[simp] theorem State.pqInsert_freq (i : NodeIdx) : (s.pqInsert i).freq = s.freq := rfl
@[simp] theorem State.pqInsert_node (i : NodeIdx) : (s.pqInsert i).node = s.node := rfl
@[simp] theorem State.pqInsert_code (i : NodeIdx) : (s.pqInsert i).code = s.code := rfl
@[simp] theorem State.pqInsert_pq (i : NodeIdx) : (s.pqInsert i).pq = i :: s.pq := rfl
@[simp] theorem State.pqInsert_sin (i : NodeIdx) : (s.pqInsert i).sin = s.sin := rfl
@[simp] theorem State.pqInsert_sinPos (i : NodeIdx) : (s.pqInsert i).sinPos = s.sinPos := rfl
@[simp] theorem State.pqInsert_bin (i : NodeIdx) : (s.pqInsert i).bin = s.bin := rfl
@[simp] theorem State.pqInsert_binPos (i : NodeIdx) : (s.pqInsert i).binPos = s.binPos := rfl
@[simp] theorem State.pqInsert_bout (i : NodeIdx) : (s.pqInsert i).bout = s.bout := rfl
@[simp] theorem State.pqInsert_sout (i : NodeIdx) : (s.pqInsert i).sout = s.sout := rfl
@[simp] theorem State.pqInsert_host (i : NodeIdx) : (s.pqInsert i).host = s.host := rfl
@[simp] theorem State.pqInsert_hostData (i : NodeIdx) : (s.pqInsert i).hostData = s.hostData := rfl
@[simp] theorem State.pqInsert_freeCtr (i : NodeIdx) : (s.pqInsert i).freeCtr = s.freeCtr := rfl

/-! ## setCur -/

@[simp] theorem State.setCur_cmd (i : NodeIdx) : (s.setCur i).cmd = s.cmd := rfl
@[simp] theorem State.setCur_seq (i : NodeIdx) : (s.setCur i).seq = s.seq := rfl
@[simp] theorem State.setCur_treeValid (i : NodeIdx) : (s.setCur i).treeValid = s.treeValid := rfl
@[simp] theorem State.setCur_codeValid (i : NodeIdx) : (s.setCur i).codeValid = s.codeValid := rfl
@[simp] theorem State.setCur_ie (i : NodeIdx) : (s.setCur i).ie = s.ie := rfl
@[simp] theorem State.setCur_err (i : NodeIdx) : (s.setCur i).err = s.err := rfl
@[simp] theorem State.setCur_einfo (i : NodeIdx) : (s.setCur i).einfo = s.einfo := rfl
@[simp] theorem State.setCur_root (i : NodeIdx) : (s.setCur i).root = s.root := rfl
@[simp] theorem State.setCur_ncount (i : NodeIdx) : (s.setCur i).ncount = s.ncount := rfl
@[simp] theorem State.setCur_cur (i : NodeIdx) : (s.setCur i).cur = i := rfl
@[simp] theorem State.setCur_sinCnt (i : NodeIdx) : (s.setCur i).sinCnt = s.sinCnt := rfl
@[simp] theorem State.setCur_binCnt (i : NodeIdx) : (s.setCur i).binCnt = s.binCnt := rfl
@[simp] theorem State.setCur_boutCnt (i : NodeIdx) : (s.setCur i).boutCnt = s.boutCnt := rfl
@[simp] theorem State.setCur_soutCnt (i : NodeIdx) : (s.setCur i).soutCnt = s.soutCnt := rfl
@[simp] theorem State.setCur_magic (i : NodeIdx) : (s.setCur i).magic = s.magic := rfl
@[simp] theorem State.setCur_freq (i : NodeIdx) : (s.setCur i).freq = s.freq := rfl
@[simp] theorem State.setCur_node (i : NodeIdx) : (s.setCur i).node = s.node := rfl
@[simp] theorem State.setCur_code (i : NodeIdx) : (s.setCur i).code = s.code := rfl
@[simp] theorem State.setCur_pq (i : NodeIdx) : (s.setCur i).pq = s.pq := rfl
@[simp] theorem State.setCur_sin (i : NodeIdx) : (s.setCur i).sin = s.sin := rfl
@[simp] theorem State.setCur_sinPos (i : NodeIdx) : (s.setCur i).sinPos = s.sinPos := rfl
@[simp] theorem State.setCur_bin (i : NodeIdx) : (s.setCur i).bin = s.bin := rfl
@[simp] theorem State.setCur_binPos (i : NodeIdx) : (s.setCur i).binPos = s.binPos := rfl
@[simp] theorem State.setCur_bout (i : NodeIdx) : (s.setCur i).bout = s.bout := rfl
@[simp] theorem State.setCur_sout (i : NodeIdx) : (s.setCur i).sout = s.sout := rfl
@[simp] theorem State.setCur_host (i : NodeIdx) : (s.setCur i).host = s.host := rfl
@[simp] theorem State.setCur_hostData (i : NodeIdx) : (s.setCur i).hostData = s.hostData := rfl
@[simp] theorem State.setCur_freeCtr (i : NodeIdx) : (s.setCur i).freeCtr = s.freeCtr := rfl

/-! ## stepCur -/

@[simp] theorem State.stepCur_cmd (b : Bit) : (s.stepCur b).cmd = s.cmd := rfl
@[simp] theorem State.stepCur_seq (b : Bit) : (s.stepCur b).seq = s.seq := rfl
@[simp] theorem State.stepCur_treeValid (b : Bit) : (s.stepCur b).treeValid = s.treeValid := rfl
@[simp] theorem State.stepCur_codeValid (b : Bit) : (s.stepCur b).codeValid = s.codeValid := rfl
@[simp] theorem State.stepCur_ie (b : Bit) : (s.stepCur b).ie = s.ie := rfl
@[simp] theorem State.stepCur_err (b : Bit) : (s.stepCur b).err = s.err := rfl
@[simp] theorem State.stepCur_einfo (b : Bit) : (s.stepCur b).einfo = s.einfo := rfl
@[simp] theorem State.stepCur_root (b : Bit) : (s.stepCur b).root = s.root := rfl
@[simp] theorem State.stepCur_ncount (b : Bit) : (s.stepCur b).ncount = s.ncount := rfl
@[simp] theorem State.stepCur_cur (b : Bit) : (s.stepCur b).cur = if b then (s.nodeAt s.cur).right else (s.nodeAt s.cur).left := rfl
@[simp] theorem State.stepCur_sinCnt (b : Bit) : (s.stepCur b).sinCnt = s.sinCnt := rfl
@[simp] theorem State.stepCur_binCnt (b : Bit) : (s.stepCur b).binCnt = s.binCnt := rfl
@[simp] theorem State.stepCur_boutCnt (b : Bit) : (s.stepCur b).boutCnt = s.boutCnt := rfl
@[simp] theorem State.stepCur_soutCnt (b : Bit) : (s.stepCur b).soutCnt = s.soutCnt := rfl
@[simp] theorem State.stepCur_magic (b : Bit) : (s.stepCur b).magic = s.magic := rfl
@[simp] theorem State.stepCur_freq (b : Bit) : (s.stepCur b).freq = s.freq := rfl
@[simp] theorem State.stepCur_node (b : Bit) : (s.stepCur b).node = s.node := rfl
@[simp] theorem State.stepCur_code (b : Bit) : (s.stepCur b).code = s.code := rfl
@[simp] theorem State.stepCur_pq (b : Bit) : (s.stepCur b).pq = s.pq := rfl
@[simp] theorem State.stepCur_sin (b : Bit) : (s.stepCur b).sin = s.sin := rfl
@[simp] theorem State.stepCur_sinPos (b : Bit) : (s.stepCur b).sinPos = s.sinPos := rfl
@[simp] theorem State.stepCur_bin (b : Bit) : (s.stepCur b).bin = s.bin := rfl
@[simp] theorem State.stepCur_binPos (b : Bit) : (s.stepCur b).binPos = s.binPos := rfl
@[simp] theorem State.stepCur_bout (b : Bit) : (s.stepCur b).bout = s.bout := rfl
@[simp] theorem State.stepCur_sout (b : Bit) : (s.stepCur b).sout = s.sout := rfl
@[simp] theorem State.stepCur_host (b : Bit) : (s.stepCur b).host = s.host := rfl
@[simp] theorem State.stepCur_hostData (b : Bit) : (s.stepCur b).hostData = s.hostData := rfl
@[simp] theorem State.stepCur_freeCtr (b : Bit) : (s.stepCur b).freeCtr = s.freeCtr := rfl

end Sys2Proof.Machine
end

