-- ==== Sys2Proof/Laws/Ops.lean ====
section
/-!
SUPPORT. What each shared operation can do: tables, streams, the loops as the pseudocode writes them, the command runner, and the
frame of each command's steps. A frame is written `mask t = mask s`, where the mask blanks the fields the steps may write.
-/
namespace Sys2Proof.Machine

/-! ## Tables -/

@[simp] theorem freqAt_sentinel (s : State) : s.freqAt 256 = 1 := rfl

theorem freqAt_setFreq (s : State) (i j : Nat) (c : Count) (h : i < 256) :
    (s.setFreq i c).freqAt j = if j = i then c else s.freqAt j := by
  by_cases hj : j < 256
  · by_cases e : j = i
    · subst e; simp [State.freqAt, hj, State.setFreq]
    · have e' : i ≠ j := fun x => e x.symm
      simp [State.freqAt, hj, e, State.setFreq, Vector.getElem_setIfInBounds_ne, e']
  · have : j ≠ i := by omega
    simp [State.freqAt, hj, this]

theorem nodeAt_setNode (s : State) (i j : NodeIdx) (r : NodeRec) (h : i.toNat < 513) :
    (s.setNode i r).nodeAt j = if j = i then r else s.nodeAt j := by
  by_cases hj : j.toNat < 513
  · by_cases e : j = i
    · subst e; simp [State.nodeAt, hj, State.setNode]
    · have e' : i.toNat ≠ j.toNat := fun x => e (BitVec.eq_of_toNat_eq x.symm)
      simp [State.nodeAt, hj, e, State.setNode, Vector.getElem_setIfInBounds_ne, e']
  · have : j ≠ i := fun x => hj (x ▸ h)
    simp [State.nodeAt, hj, this]

theorem codeAt_setCode (s : State) (i j : Nat) (r : CodeRec) (h : i < 257) :
    (s.setCode i r).codeAt j = if j = i then r else s.codeAt j := by
  by_cases hj : j < 257
  · by_cases e : j = i
    · subst e; simp [State.codeAt, hj, State.setCode]
    · have e' : i ≠ j := fun x => e x.symm
      simp [State.codeAt, hj, e, State.setCode, Vector.getElem_setIfInBounds_ne, e']
  · have : j ≠ i := by omega
    simp [State.codeAt, hj, this]

theorem nodeAt_of_node_eq {s t : State} (h : t.node = s.node) (i : NodeIdx) : t.nodeAt i = s.nodeAt i := by
  simp only [State.nodeAt, h]

theorem codeAt_of_code_eq {s t : State} (h : t.code = s.code) (i : Nat) : t.codeAt i = s.codeAt i := by
  simp only [State.codeAt, h]

theorem freqAt_of_freq_eq {s t : State} (h : t.freq = s.freq) (i : Nat) : t.freqAt i = s.freqAt i := by
  simp only [State.freqAt, h]

/-! ## Streams -/

theorem sinRest_advanceSin (s : State) : s.advanceSin.sinRest = s.sinRest.tail := by
  simp [State.sinRest, State.advanceSin]

theorem binRest_advanceBin (s : State) : s.advanceBin.binRest = s.binRest.tail := by
  simp [State.binRest, State.advanceBin]

theorem symRead_cons {s : State} {x : Byte} {xs : List Byte} (h : s.sinRest = x :: xs) :
    s.symRead = (some x, s.advanceSin) := by simp [State.symRead, h]

theorem symRead_nil {s : State} (h : s.sinRest = []) : s.symRead = (none, s) := by simp [State.symRead, h]

theorem bitRead_cons {s : State} {b : Bit} {bs : List Bit} (h : s.binRest = b :: bs) :
    s.bitRead = (some b, s.advanceBin) := by simp [State.bitRead, h]

theorem bitRead_nil {s : State} (h : s.binRest = []) : s.bitRead = (none, s) := by simp [State.bitRead, h]

theorem bitsN_length (n v : Nat) : (bitsN n v).length = n := by
  induction n with
  | zero => rfl
  | succ n ih => simp [bitsN, ih]

/-! ## The loops, as the pseudocode writes them: one read, then the rest of the loop -/

/-- COUNT's loop (R120). -/
theorem countLoop_pseudocode (s : State) :
    countLoop s.sinRest s =
      match s.symRead with
      | (none, t) => .ok t
      | (some x, t) =>
        if t.freqAt x.toNat = BitVec.allOnes 32 then .raised .cntOvf (x.setWidth 32) t
        else countLoop t.sinRest (t.setFreq x.toNat (t.freqAt x.toNat + 1)) := by
  cases h : s.sinRest with
  | nil => simp [symRead_nil h, countLoop]
  | cons x xs => simp [symRead_cons h, sinRest_advanceSin, h, countLoop]

/-- ENC's loop (R180). -/
theorem encLoop_pseudocode (s : State) :
    encLoop s.sinRest s =
      match s.symRead with
      | (none, t) => writeCode 256 t
      | (some x, t) => (writeCode x.toNat t).andThen (encLoop t.sinRest) := by
  cases h : s.sinRest with
  | nil => simp [symRead_nil h, encLoop, Config.eos]
  | cons x xs => simp [symRead_cons h, sinRest_advanceSin, h, encLoop]

/-- DEC's loop (R190). -/
theorem decLoop_pseudocode (s : State) :
    decLoop s.binRest s =
      match s.bitRead with
      | (none, t) => .raised .fmtEosPayload (t.cur.setWidth 32) t
      | (some b, t) =>
        let u := t.stepCur b
        if (u.nodeAt u.cur).leaf then
          if (u.nodeAt u.cur).sym = 256 then .ok u
          else decLoop t.binRest ((u.symWrite ((u.nodeAt u.cur).sym.setWidth 8)).setCur u.root)
        else decLoop t.binRest u := by
  cases h : s.binRest with
  | nil => simp [bitRead_nil h, decLoop]
  | cons b bs => simp only [bitRead_cons h, binRest_advanceBin, h, decLoop, List.tail_cons]

/-! ## The command runner -/

section Runner
variable {w : Byte} {pre : State → Bool} {body : State → Run} {s t : State}

theorem runCommand_ready (h : Ready s) : runCommand w pre body s = accept w pre body s := by
  rcases h with h | h <;> simp [runCommand, h]

theorem runCommand_error (h : s.seq = .error) (hw : w ≠ 0x01) : runCommand w pre body s = .next s := by
  simp only [runCommand, h]; exact if_neg hw

theorem runCommand_clear (h : s.seq ≠ .busy) : runCommand 0x01 pre body s = accept 0x01 pre body s := by
  cases e : s.seq <;> simp_all [runCommand]

theorem runCommand_busy (h : s.seq = .busy) : runCommand w pre body s = .refused .accessWhileBusy := by
  simp [runCommand, h]

theorem accept_ok (hp : pre { s with cmd := w, seq := .busy } = true)
    (hb : body { s with cmd := w, seq := .busy } = .ok t) :
    accept w pre body s = .next { t with seq := if w = 0x01 then .idle else .done } := by
  simp only [accept, hp, if_true, hb, finish]

theorem accept_raised {e : ErrKind} {info : BitVec 32} (hp : pre { s with cmd := w, seq := .busy } = true)
    (hb : body { s with cmd := w, seq := .busy } = .raised e info t) :
    accept w pre body s = .next (t.raiseError e info) := by
  simp only [accept, hp, if_true, hb, finish]

theorem accept_precondition (hp : pre { s with cmd := w, seq := .busy } = false) :
    accept w pre body s = .next ({ s with cmd := w, seq := .busy }.raiseError .seq (w.setWidth 32)) := by
  simp [accept, hp]

/-- Everything a command can come to: ignored in ERROR, a failed precondition, the end of its steps, a raise. -/
theorem runCommand_next (h : runCommand w pre body s = .next t) :
    (s.seq = .error ∧ w ≠ 0x01 ∧ t = s) ∨
    (s.seq ≠ .busy ∧
      ((pre { s with cmd := w, seq := .busy } = false ∧
          t = { s with cmd := w, seq := .busy }.raiseError .seq (w.setWidth 32)) ∨
        (∃ u, body { s with cmd := w, seq := .busy } = .ok u ∧ t = { u with seq := if w = 0x01 then .idle else .done }) ∨
        ∃ e info u, body { s with cmd := w, seq := .busy } = .raised e info u ∧ t = u.raiseError e info)) := by
  have key : accept w pre body s = .next t →
      (pre { s with cmd := w, seq := .busy } = false ∧
          t = { s with cmd := w, seq := .busy }.raiseError .seq (w.setWidth 32)) ∨
        (∃ u, body { s with cmd := w, seq := .busy } = .ok u ∧ t = { u with seq := if w = 0x01 then .idle else .done }) ∨
        ∃ e info u, body { s with cmd := w, seq := .busy } = .raised e info u ∧ t = u.raiseError e info := by
    intro h
    by_cases hp : pre { s with cmd := w, seq := .busy } = true
    · simp only [accept, hp, if_true] at h
      cases hb : body { s with cmd := w, seq := .busy } with
      | ok u => rw [hb] at h; exact .inr (.inl ⟨u, rfl, by simpa [finish] using h.symm⟩)
      | raised e info u => rw [hb] at h; exact .inr (.inr ⟨e, info, u, rfl, by simpa [finish] using h.symm⟩)
      | stuck => rw [hb] at h; simp [finish] at h
    · have hp' : pre { s with cmd := w, seq := .busy } = false := by simpa using hp
      rw [accept_precondition hp'] at h
      exact .inl ⟨hp', by simpa using h.symm⟩
  cases e : s.seq with
  | busy => rw [runCommand_busy e] at h; cases h
  | idle => rw [runCommand_ready (.inl e)] at h; exact .inr ⟨by simp, key h⟩
  | done => rw [runCommand_ready (.inr e)] at h; exact .inr ⟨by simp, key h⟩
  | error =>
    by_cases hw : w = 0x01
    · subst hw
      rw [runCommand_clear (by simp [e])] at h; exact .inr ⟨by simp, key h⟩
    · rw [runCommand_error e hw] at h
      exact .inl ⟨rfl, hw, by simpa using h.symm⟩

/-- A command faults only where a walk of its steps has no end. -/
theorem runCommand_fault {f : Fault} (h : runCommand w pre body s = .fault f) :
    pre { s with cmd := w, seq := .busy } = true ∧ body { s with cmd := w, seq := .busy } = .stuck := by
  have key : accept w pre body s = .fault f →
      pre { s with cmd := w, seq := .busy } = true ∧ body { s with cmd := w, seq := .busy } = .stuck := by
    intro h
    by_cases hp : pre { s with cmd := w, seq := .busy } = true
    · refine ⟨hp, ?_⟩
      simp only [accept, hp, if_true] at h
      cases hb : body { s with cmd := w, seq := .busy } with
      | ok u => rw [hb] at h; simp [finish] at h
      | raised e info u => rw [hb] at h; simp [finish] at h
      | stuck => rfl
    · rw [accept_precondition (by simpa using hp)] at h; cases h
  cases e : s.seq with
  | busy => rw [runCommand_busy e] at h; cases h
  | idle => rw [runCommand_ready (.inl e)] at h; exact key h
  | done => rw [runCommand_ready (.inr e)] at h; exact key h
  | error =>
    by_cases hw : w = 0x01
    · subst hw; rw [runCommand_clear (by simp [e])] at h; exact key h
    · rw [runCommand_error e hw] at h; cases h

/-- A command is refused while BUSY only. -/
theorem runCommand_refused {r : Refusal} (h : runCommand w pre body s = .refused r) :
    s.seq = .busy ∧ r = .accessWhileBusy := by
  have key : accept w pre body s ≠ .refused r := by
    unfold accept finish
    dsimp only
    split
    · split <;> simp
    · simp
  cases e : s.seq with
  | busy => rw [runCommand_busy e] at h; cases h; exact ⟨rfl, rfl⟩
  | idle => rw [runCommand_ready (.inl e)] at h; exact (key h).elim
  | done => rw [runCommand_ready (.inr e)] at h; exact (key h).elim
  | error =>
    by_cases hw : w = 0x01
    · subst hw; rw [runCommand_clear (by simp [e])] at h; exact (key h).elim
    · rw [runCommand_error e hw] at h; cases h

end Runner

/-! ## Accesses and stream moves -/

/-- A table access goes through where STATE is not BUSY and the entry exists, and then it is its effect. -/
theorem tableAccess_next {size i : Nat} {f : State → State} {s t : State} :
    tableAccess size i f s = .next t ↔ s.seq ≠ .busy ∧ i < size ∧ t = f s := by
  unfold tableAccess
  by_cases hb : s.seq = .busy
  · simp [hb]
  · by_cases hi : i < size <;> simp [hb, hi, eq_comm]

/-- A stream move goes through where STATE is not BUSY, and then it is its effect. -/
theorem streamMove_next {f : State → State} {s t : State} :
    streamMove f s = .next t ↔ s.seq ≠ .busy ∧ t = f s := by
  unfold streamMove
  by_cases hb : s.seq = .busy <;> simp [hb, eq_comm]

/-- A delivery goes through where STATE is not BUSY, and then BIN is longer by its bits. -/
theorem deliverBits_next {bits : List Bit} {s t : State} :
    deliverBits bits s = .next t ↔ s.seq ≠ .busy ∧ t = { s with bin := s.bin ++ bits } := by
  unfold deliverBits
  by_cases hb : s.seq = .busy <;> simp [hb, eq_comm]

/-- A step is the next host move, or nothing. -/
theorem step_cases (s : State) :
    (s.host = [] ∧ step s = .next s) ∨
    ∃ a rest, s.host = a :: rest ∧ step s = hostMove a { s with host := rest } := by
  cases h : s.host with
  | nil => exact .inl ⟨rfl, by simp [step, h]⟩
  | cons a rest => exact .inr ⟨a, rest, rfl, by simp [step, h]⟩

/-! ## Frames -/

/-- Every state a run comes to meets `P`. -/
def Run.All (P : State → Prop) : Run → Prop
  | .ok s => P s
  | .raised _ _ s => P s
  | .stuck => True

theorem Run.All.mono {P Q : State → Prop} {r : Run} (hr : r.All P) (h : ∀ s, P s → Q s) : r.All Q := by
  cases r with
  | ok s => exact h s hr
  | raised e info s => exact h s hr
  | stuck => trivial

theorem Run.All.andThen {P Q : State → Prop} {r : Run} {f : State → Run} (hr : r.All P) (hq : ∀ s, P s → Q s)
    (hf : ∀ s, P s → (f s).All Q) : (r.andThen f).All Q := by
  cases r with
  | ok s => exact hf s hr
  | raised e info s => exact hq s hr
  | stuck => trivial

def maskSin (s : State) : State := { s with freq := Vector.replicate 256 0, sinPos := 0, sinCnt := 0 }
def maskBin (s : State) : State := { s with node := Config.freeNodes 0, binPos := 0, binCnt := 0 }
def maskEnc (s : State) : State := { s with sinPos := 0, sinCnt := 0, bout := [], boutCnt := 0 }
def maskDec (s : State) : State := { s with cur := 0, sout := [], soutCnt := 0, binPos := 0, binCnt := 0 }
def maskCode (s : State) : State := { s with code := Config.freeCodes 0 }
def maskBout (s : State) : State := { s with bout := [], boutCnt := 0 }
def maskTree (s : State) : State := { s with node := Config.freeNodes 0, pq := [] }

/-- COUNT's loop writes FREQ and SIN's cursor and counter only. -/
theorem countLoop_frame (xs : List Byte) (s : State) : (countLoop xs s).All (fun t => maskSin t = maskSin s) := by
  induction xs generalizing s with
  | nil => rfl
  | cons x xs ih =>
    simp only [countLoop]
    split
    · rfl
    · have h := ih (s.advanceSin.setFreq x.toNat (s.advanceSin.freqAt x.toNat + 1))
      exact h

theorem countLoop_not_stuck (xs : List Byte) (s : State) : countLoop xs s ≠ .stuck := by
  induction xs generalizing s with
  | nil => simp [countLoop]
  | cons x xs ih =>
    simp only [countLoop]
    split
    · simp
    · exact ih _

theorem bitsWrite_frame (s : State) (n v : Nat) : maskBout (s.bitsWrite n v) = maskBout s := by
  unfold State.bitsWrite
  induction bitsN n v generalizing s with
  | nil => rfl
  | cons b bs ih => exact (ih (s.bitWrite b)).trans rfl

theorem maskEnc_of_maskBout {s t : State} (h : maskBout t = maskBout s) : maskEnc t = maskEnc s := by
  have := congrArg maskEnc h
  exact this

theorem writeCode_frame (x : Nat) (s : State) : (writeCode x s).All (fun t => maskBout t = maskBout s) := by
  unfold writeCode
  split
  · rfl
  · exact bitsWrite_frame ..

/-- ENC's loop writes SIN's cursor and counter and BOUT only. -/
theorem encLoop_frame (xs : List Byte) (s : State) : (encLoop xs s).All (fun t => maskEnc t = maskEnc s) := by
  induction xs generalizing s with
  | nil =>
    exact (writeCode_frame _ s).mono (fun _ h => maskEnc_of_maskBout h)
  | cons x xs ih =>
    simp only [encLoop]
    refine (writeCode_frame _ _).andThen (fun t h => (maskEnc_of_maskBout h).trans rfl) (fun t h => ?_)
    have h' : maskEnc t = maskEnc s := (maskEnc_of_maskBout h).trans rfl
    have := ih t
    rw [h'] at this
    exact this

theorem encLoop_not_stuck (xs : List Byte) (s : State) : encLoop xs s ≠ .stuck := by
  have hw : ∀ x t, writeCode x t ≠ .stuck := by
    intro x t; unfold writeCode; split <;> simp
  induction xs generalizing s with
  | nil => exact hw _ _
  | cons x xs ih =>
    simp only [encLoop]
    cases h : writeCode x.toNat s.advanceSin with
    | ok t => exact ih t
    | raised e info t => simp [Run.andThen]
    | stuck => exact (hw _ _ h).elim

@[simp] theorem maskDec_advanceBin (s : State) : maskDec s.advanceBin = maskDec s := by simp [maskDec]
@[simp] theorem maskDec_setCur (s : State) (i : NodeIdx) : maskDec (s.setCur i) = maskDec s := by simp [maskDec]
@[simp] theorem maskDec_stepCur (s : State) (b : Bit) : maskDec (s.stepCur b) = maskDec s := by simp [maskDec]
@[simp] theorem maskDec_symWrite (s : State) (b : Byte) : maskDec (s.symWrite b) = maskDec s := by simp [maskDec]

/-- DEC's loop writes CUR, SOUT and BIN's cursor and counter only. -/
theorem decLoop_frame (bs : List Bit) (s : State) : (decLoop bs s).All (fun t => maskDec t = maskDec s) := by
  induction bs generalizing s with
  | nil => exact rfl
  | cons b bs ih =>
    simp only [decLoop]
    split
    · split
      · simp [Run.All]
      · exact (ih _).mono (fun t h => h.trans (by simp))
    · exact (ih _).mono (fun t h => h.trans (by simp))

theorem decLoop_not_stuck (bs : List Bit) (s : State) : decLoop bs s ≠ .stuck := by
  induction bs generalizing s with
  | nil => simp [decLoop]
  | cons b bs ih =>
    simp only [decLoop]
    split
    · split
      · simp
      · exact ih _
    · exact ih _

/-- DERIVE's walk writes CODE only and raises nothing. -/
theorem walk_frame (levels : Nat) (i : NodeIdx) (len : CodeLen) (val : CodeVal) (s : State) :
    (walk levels i len val s).All (fun t => maskCode t = maskCode s) := by
  induction levels generalizing i len val s with
  | zero => trivial
  | succ n ih =>
    simp only [walk]
    split
    · rfl
    · refine (ih ..).andThen (fun t h => h) (fun t h => ?_)
      rw [← h]; exact ih ..

/-- HDRW's walk writes BOUT only. -/
theorem emit_frame (levels : Nat) (i : NodeIdx) (s : State) :
    (emit levels i s).All (fun t => maskBout t = maskBout s) := by
  induction levels generalizing i s with
  | zero => trivial
  | succ n ih =>
    simp only [emit]
    split
    · exact (bitsWrite_frame ..).trans rfl
    · refine (ih _ (s.bitWrite false)).andThen (fun t h => h.trans rfl) (fun t h => ?_)
      have h' : maskBout t = maskBout s := h.trans rfl
      rw [← h']; exact ih ..

@[simp] theorem maskBin_advanceBin (s : State) : maskBin s.advanceBin = maskBin s := by simp [maskBin]
@[simp] theorem maskBin_setNode (s : State) (i : NodeIdx) (r : NodeRec) : maskBin (s.setNode i r) = maskBin s := by simp [maskBin]

theorem bitRead_frame (s : State) : maskBin s.bitRead.2 = maskBin s := by
  unfold State.bitRead; split <;> rfl

/-- A group read writes BIN's cursor and counter only. -/
theorem bitsReadFrom_frame (m k r : Nat) (s : State) :
    match bitsReadFrom m k r s with
    | .value _ t => maskBin t = maskBin s ∧ t.node = s.node
    | .ended _ t => maskBin t = maskBin s ∧ t.node = s.node := by
  induction m generalizing k r s with
  | zero => exact ⟨rfl, rfl⟩
  | succ m ih =>
    cases h : s.binRest with
    | nil => simp [bitsReadFrom, bitRead_nil h]
    | cons b bs =>
      simp only [bitsReadFrom, bitRead_cons h]
      exact ih (k + 1) (2 * r + b.toNat) s.advanceBin

/-- Every state `rd()` comes to differs from its start in NODE and in BIN's cursor and counter only. -/
theorem rd_frame (levels n : Nat) (s : State) :
    match rd levels n s with
    | .ok _ _ t => maskBin t = maskBin s
    | .raised _ _ t => maskBin t = maskBin s := by
  induction levels generalizing n s with
  | zero => rfl
  | succ f ih =>
    cases h : s.binRest with
    | nil => simp [rd, bitRead_nil h]
    | cons b bs =>
      simp only [rd, bitRead_cons h]
      by_cases hn : n = Config.nnode
      · simp [hn]
      · cases b with
        | true =>
          have hb := bitsReadFrom_frame 9 0 0 s.advanceBin
          cases hr : bitsReadFrom 9 0 0 s.advanceBin with
          | value v t =>
            rw [hr] at hb
            by_cases hv : Config.eos < v <;> simp [hn, State.bitsRead, hr, hv, hb.1]
          | ended k t =>
            rw [hr] at hb
            simp [hn, State.bitsRead, hr, hb.1]
        | false =>
          have hl := ih (n + 1) s.advanceBin
          cases hrl : rd f (n + 1) s.advanceBin with
          | raised e info t =>
            rw [hrl] at hl
            simpa [hn, hrl] using hl
          | ok l n2 t =>
            rw [hrl] at hl
            have hr := ih n2 t
            cases hrr : rd f n2 t with
            | raised e info u =>
              rw [hrr] at hr
              simpa [hn, hrl, hrr] using hr.trans hl
            | ok r n3 u =>
              rw [hrr] at hr
              simpa [hn, hrl, hrr] using hr.trans hl

@[simp] theorem maskTree_setNode (s : State) (i : NodeIdx) (r : NodeRec) : maskTree (s.setNode i r) = maskTree s := by
  simp [maskTree]
@[simp] theorem maskTree_pqInsert (s : State) (i : NodeIdx) : maskTree (s.pqInsert i) = maskTree s := by simp [maskTree]

theorem buildLeaves_frame (xs : List Nat) (n : Nat) (s : State) : maskTree (buildLeaves xs n s).2 = maskTree s := by
  induction xs generalizing n s with
  | nil => rfl
  | cons x xs ih =>
    simp only [buildLeaves]
    split
    · exact ih ..
    · exact (ih ..).trans (by simp)

theorem buildGuard_frame (n : Nat) (s : State) : maskTree (buildGuard n s).2 = maskTree s := by
  unfold buildGuard; split <;> simp

theorem extractMin_frame {s t : State} {i : NodeIdx} (h : s.extractMin = some (i, t)) : maskTree t = maskTree s := by
  unfold State.extractMin at h
  split at h
  · cases h
  · simp only [Option.some.injEq, Prod.mk.injEq] at h
    rw [← h.2]; rfl

theorem buildMerge_frame (fuel n : Nat) (s : State) : maskTree (buildMerge fuel n s).2 = maskTree s := by
  induction fuel generalizing n s with
  | zero => rfl
  | succ f ih =>
    simp only [buildMerge]
    cases h1 : s.extractMin with
    | none => rfl
    | some p =>
      obtain ⟨a, s1⟩ := p
      simp only
      cases h2 : s1.extractMin with
      | none => rfl
      | some q =>
        obtain ⟨b, s2⟩ := q
        simp only
        refine (ih ..).trans ?_
        simpa using (extractMin_frame h2).trans (extractMin_frame h1)

end Sys2Proof.Machine
end

