-- ==== Sys2Proof/Laws/Header.lean ====
section
/-!
SUPPORT. Headers as records: the header of a tree is its records' bits, and wherever it is cut, what is left is an unfinished header
and at most a part of one more leaf's record. So the statements on unfinished headers speak of every truncated header.
-/
namespace Sys2Proof

theorem recBits_append (rs qs : List HeaderRec) : recBits (rs ++ qs) = recBits rs ++ recBits qs := by
  simp [recBits]

/-- The header of a tree is its records (R98). -/
theorem ser_eq_recBits (t : Tree) : t.ser = recBits t.recs := by
  induction t with
  | leaf x => simp [Tree.ser, Tree.recs, recBits, HeaderRec.bits]
  | node l r hl hr => rw [Tree.ser, hl, hr, ← recBits_append]; rfl

theorem recs_length (t : Tree) : t.recs.length = t.size := by
  induction t with
  | leaf x => rfl
  | node l r hl hr => simp [Tree.recs, Tree.size, hl, hr]

theorem recs_symOk (t : Tree) : t.recs.all HeaderRec.symOk = t.symsOk := by
  induction t with
  | leaf x => simp [Tree.recs, Tree.symsOk, Tree.leaves, HeaderRec.symOk]
  | node l r hl hr => simp_all [Tree.recs, Tree.symsOk, Tree.leaves, HeaderRec.symOk]

/-- The records of a tree are one of the subtrees still to be read. -/
theorem pending_recs (t : Tree) (k : Nat) (rs : List HeaderRec) : pending (k + 1) (t.recs ++ rs) = pending k rs := by
  induction t generalizing k rs with
  | leaf x => rfl
  | node l r hl hr =>
    simp only [Tree.recs, List.cons_append, List.append_assoc, pending]
    rw [hl, hr]

/-- With a proper part of a tree's records read, that tree is still to be completed. -/
theorem pending_take (t : Tree) (k n : Nat) (h : n < t.recs.length) : k < pending (k + 1) (t.recs.take n) := by
  induction t generalizing k n with
  | leaf x =>
    obtain rfl : n = 0 := by simpa [Tree.recs] using h
    exact Nat.lt_succ_self k
  | node l r hl hr =>
    cases n with
    | zero => exact Nat.lt_succ_self k
    | succ n =>
      simp only [Tree.recs, List.take_succ_cons, pending]
      by_cases hn : n < l.recs.length
      · rw [List.take_append_of_le_length (Nat.le_of_lt hn)]
        exact Nat.lt_of_succ_lt (hl (k + 1) n hn)
      · rw [List.take_append, List.take_of_length_le (Nat.le_of_not_lt hn), pending_recs]
        refine hr k _ ?_
        simp only [Tree.recs, List.length_cons, List.length_append] at h
        omega

/-- A cut record list: whole records, then part of the next record's bits. -/
theorem recBits_cut (rs : List HeaderRec) (p : List Bit) (hp : p <+: recBits rs) (h : p.length < (recBits rs).length) :
    ∃ (n : Nat) (q : List Bit), n < rs.length ∧ p = recBits (rs.take n) ++ q ∧
      (q = [] ∨ ∃ field : List Bit, q = true :: field ∧ field.length < 9) := by
  induction rs generalizing p with
  | nil => simp [recBits] at h
  | cons r rs ih =>
    have e : recBits (r :: rs) = r.bits ++ recBits rs := rfl
    rw [e] at hp h
    by_cases hl : p.length < r.bits.length
    · refine ⟨0, p, Nat.succ_pos _, rfl, ?_⟩
      obtain ⟨c, hc⟩ := List.prefix_of_prefix_length_le hp (List.prefix_append _ _) (Nat.le_of_lt hl)
      cases p with
      | nil => exact .inl rfl
      | cons b f =>
        cases r with
        | node => simp [HeaderRec.bits] at hl
        | leaf x =>
          simp only [HeaderRec.bits, List.length_cons, Machine.bitsN_length] at hl hc
          injection hc with hb _
          exact .inr ⟨f, by rw [hb], by omega⟩
    · obtain ⟨d, rfl⟩ := List.prefix_of_prefix_length_le (List.prefix_append _ _) hp (Nat.le_of_not_lt hl)
      obtain ⟨n, q, hn, hd, hq⟩ := ih d (by simpa using hp) (by simpa using h)
      exact ⟨n + 1, q, Nat.succ_lt_succ hn, by rw [hd]; simp [recBits], hq⟩

/-- Wherever the header of a tree is cut: the records of an unfinished header, then nothing or part of a leaf's record (R171). -/
theorem ser_cut (t : Tree) (p : List Bit) (ok : t.symsOk = true) (hp : p <+: t.ser) (h : p.length < t.ser.length) :
    ∃ (n : Nat) (q : List Bit), n < t.size ∧ Unfinished (t.recs.take n) ∧ p = recBits (t.recs.take n) ++ q ∧
      (q = [] ∨ ∃ field : List Bit, q = true :: field ∧ field.length < 9) := by
  rw [ser_eq_recBits] at hp h
  obtain ⟨n, q, hn, e, hq⟩ := recBits_cut _ _ hp h
  refine ⟨n, q, recs_length t ▸ hn, ⟨pending_take t 0 n hn, ?_⟩, e, hq⟩
  rw [← recs_symOk, List.all_eq_true] at ok
  exact List.all_eq_true.mpr fun r hr => ok r (List.mem_of_mem_take hr)

/-- The header of a tree of more than 513 nodes: the records of an unfinished header, then the tag bit of the 514th node (R170). -/
theorem ser_oversize (t : Tree) (ok : t.symsOk = true) (h : Config.nnode < t.size) :
    ∃ (tag : Bit) (rest : List Bit), Unfinished (t.recs.take 513) ∧ (t.recs.take 513).length = 513 ∧
      t.ser = recBits (t.recs.take 513) ++ tag :: rest := by
  have hn : 513 < t.recs.length := by rw [recs_length]; exact h
  have e := (List.take_append_drop 513 t.recs).symm
  rw [List.drop_eq_getElem_cons hn] at e
  have hb : ∀ r : HeaderRec, ∃ b f, r.bits = b :: f := fun r => by cases r <;> exact ⟨_, _, rfl⟩
  obtain ⟨b, f, hr⟩ := hb t.recs[513]
  refine ⟨b, f ++ recBits (t.recs.drop 514), ⟨pending_take t 0 513 hn, ?_⟩, by simp; omega, ?_⟩
  · rw [← recs_symOk, List.all_eq_true] at ok
    exact List.all_eq_true.mpr fun r hr => ok r (List.mem_of_mem_take hr)
  · have e' := congrArg recBits e
    rw [recBits_append] at e'
    refine (ser_eq_recBits t).trans (e'.trans ?_)
    show _ ++ (t.recs[513].bits ++ _) = _
    rw [hr]; rfl

end Sys2Proof
end

