-- ==== Sys2Proof/Laws/PerInstr.lean ====
section
/-!
SUPPORT. Statements made once per instruction. Family `Width`: the number of bits of an instruction's encoding is the one
spec/opcode_table.json gives its row (R90: 8 bits for a command; R97, R99: 32, 1 and 10 bits for the records).
-/
namespace Sys2Proof.Laws.Width

/-- The number of bits of an encoding. -/
def bits : Encoding → Nat
  | .command _ => 8
  | .record b => b.length

/-- The number of bits the opcode table gives an instruction's row. -/
def tableBits : Instr → Nat
  | .magicField _ => 32
  | .nodeRecord => 1
  | .leafRecord _ => 10
  | _ => 8

/-- The encoding is as wide as the table says. -/
def Statement (i : Instr) : Prop := bits (encode i) = tableBits i

theorem clear : Statement .clear := rfl
theorem count : Statement .count := rfl
theorem build : Statement .build := rfl
theorem derive : Statement .derive := rfl
theorem hdrw : Statement .hdrw := rfl
theorem hdrr : Statement .hdrr := rfl
theorem enc : Statement .enc := rfl
theorem dec : Statement .dec := rfl
theorem magw : Statement .magw := rfl
theorem magr : Statement .magr := rfl
theorem rewind : Statement .rewind := rfl
theorem compress : Statement .compress := rfl
theorem decompress : Statement .decompress := rfl
theorem magicField (m : BitVec 32) : Statement (.magicField m) := Machine.bitsN_length 32 m.toNat
theorem nodeRecord : Statement .nodeRecord := rfl
theorem leafRecord (s : Sym) : Statement (.leafRecord s) :=
  congrArg (· + 1) (Machine.bitsN_length 9 s.toNat)

end Sys2Proof.Laws.Width
end

