-- ==== Sys2Proof/Tests/Slice0.lean ====
section
/-!
SUPPORT. Small tests with results taken from the spec (95_test_vectors, and the rules named), and for every statement with
hypotheses a state and operands that meet them together.
-/
namespace Sys2Proof.Tests
open Sys2Proof Sys2Proof.Machine

-- One theorem after another: checked at the same time, their stacks together exceed the memory limit.
set_option Elab.async false

/-! ## Decoding: words written out bit by bit from R92, R97, R99 -/

theorem test_decode_clear : decodeCommand 0b00000001 = .ok .clear := by decide +kernel
theorem test_decode_count : decodeCommand 0b00000010 = .ok .count := by decide +kernel
theorem test_decode_build : decodeCommand 0b00000011 = .ok .build := by decide +kernel
theorem test_decode_derive : decodeCommand 0b00000100 = .ok .derive := by decide +kernel
theorem test_decode_hdrw : decodeCommand 0b00000101 = .ok .hdrw := by decide +kernel
theorem test_decode_hdrr : decodeCommand 0b00000110 = .ok .hdrr := by decide +kernel
theorem test_decode_enc : decodeCommand 0b00000111 = .ok .enc := by decide +kernel
theorem test_decode_dec : decodeCommand 0b00001000 = .ok .dec := by decide +kernel
theorem test_decode_magw : decodeCommand 0b00001001 = .ok .magw := by decide +kernel
theorem test_decode_magr : decodeCommand 0b00001010 = .ok .magr := by decide +kernel
theorem test_decode_rewind : decodeCommand 0b00001011 = .ok .rewind := by decide +kernel
theorem test_decode_compress : decodeCommand 0b00001100 = .ok .compress := by decide +kernel
theorem test_decode_decompress : decodeCommand 0b00001101 = .ok .decompress := by decide +kernel

/-- R94: 0x00 is illegal; V72: the upper nibble is decoded. -/
theorem test_decode_illegal :
    decodeCommand 0b00000000 = .error (.illegalCommand 0) ∧ decodeCommand 0b00010011 = .error (.illegalCommand 0x13) := by
  decide +kernel

/-- R99: the leaf record of symbol 66, `1 001000010`; R100: 256 is the sentinel, 257 is reserved. -/
theorem test_decode_leaf :
    decodeRecord [true, false, false, true, false, false, false, false, true, false] = .ok (.leafRecord 66) ∧
    decodeRecord [true, true, false, false, false, false, false, false, false, false] = .ok (.leafRecord 256) ∧
    decodeRecord [true, true, false, false, false, false, false, false, false, true] = .error (.reservedSymbol 257) := by
  decide +kernel

theorem test_decode_node : decodeRecord [false] = .ok .nodeRecord := by decide +kernel

/-- V23: the magic's bits, most significant first. -/
theorem test_decode_magic :
    decodeRecord ([true, true, true, true, true, false, true, false] ++ [true, true, false, false, true, true, true, false] ++
      [true, false, false, false, false, false, true, false] ++ [false, false, false, false, false, false, false, true]) =
      .ok (.magicField 0xFACE8201) := by
  decide +kernel

/-- The rows of the opcode table as the table numbers them. -/
theorem test_table_words :
    decodeTableWord 8 0x0D = some .decompress ∧ decodeTableWord 8 0x0E = none ∧ decodeTableWord 8 0 = some .nodeRecord ∧
    decodeTableWord 16 0x241 = some (.leafRecord 65) ∧ decodeTableWord 32 0xFACE8201 = some (.magicField 0xFACE8201) := by
  decide +kernel

/-- No two rows of the opcode map match the same word. -/
theorem test_no_two_rows_overlap :
    opcodeMap.Pairwise (fun a b => ¬ (a.mask &&& b.mask &&& (a.value ^^^ b.value) = 0)) := by decide +kernel

/-! ## Well-formedness -/

/-- R100: the one check refuses a reserved symbol. -/
theorem test_wf_refuses_reserved_symbol : (Instr.leafRecord 257).wf = false := by decide +kernel
theorem test_wf_takes_sentinel : (Instr.leafRecord 256).wf = true := by decide +kernel

/-! ## Small states -/

/-- The next state, for a test; the reset state where there is none. -/
def after (o : Host.Outcome State Fault Refusal) : State :=
  match o with
  | .next t => t
  | .fault _ => State.reset
  | .refused _ => State.reset

/-- Whether there is a next state. -/
def completes (o : Host.Outcome State Fault Refusal) : Bool :=
  match o with
  | .next _ => true
  | .fault _ => false
  | .refused _ => false

theorem next_of_completes {o : Host.Outcome State Fault Refusal} (h : completes o = true) : o = .next (after o) := by
  cases o <;> first | rfl | cases h

/-- After reset, with the magic of the spec's vectors (93 G1). -/
def st : State := { State.reset with magic := 0xFACE8201 }

def aaaab : List Byte := [0x41, 0x41, 0x41, 0x41, 0x42]

/-- The container of V1, as bits. -/
def v1Bits : List Bit := unpack [0xFA, 0xCE, 0x82, 0x01, 0x24, 0x2C, 0x02, 0x41, 0xF1]

/-- The tree header of V1. -/
def v1Tree : List Bit := unpack [0x24, 0x2C, 0x02, 0x41]

/-- A block that holds the tree and the codes of V1. -/
def demo : State :=
  { st with
    seq := .done, treeValid := true, codeValid := true, root := 4, ncount := 5,
    node := ((((Vector.replicate 513 (leafRec 0 0)).set 0 (leafRec 65 4)).set 1 (leafRec 66 1)).set 2 (leafRec 256 1)).set 3
      (internalRec 2 1 2) |>.set 4 (internalRec 6 3 0),
    code := (((Vector.replicate 257 { len := 0, val := 0 }).set 65 { len := 1, val := 1 }).set 66 { len := 2, val := 0 }).set 256
      { len := 2, val := 1 } }

def demoTree : Tree := .node (.node (.leaf 66) (.leaf 256)) (.leaf 65)

/-! ## Commands, one step each -/

/-- V14: FREQ of "AAAAB"; the old counts are gone. -/
theorem test_count :
    let t := after (exec .count { st with sin := aaaab, freq := (st.freq.set 65 9).set 90 3 })
    t.freqAt 65 = 4 ∧ t.freqAt 66 = 1 ∧ t.freqAt 90 = 0 ∧ t.sinPos = 5 ∧ t.sinCnt = 5 ∧ t.status = 2 := by
  decide +kernel

/-- V17, from the last count: the next occurrence raises E_CNT_OVF and the count stays. -/
theorem test_count_overflow :
    (match countLoop [0x00] { st with freq := st.freq.set 0 0xFFFFFFFF } with
      | .raised e info t => decide (e = .cntOvf ∧ info = 0 ∧ t.freqAt 0 = 0xFFFFFFFF)
      | _ => false) = true := by
  decide +kernel

/-- V1: the two merges of "AAAAB". -/
theorem test_build :
    let t := after (exec .build { st with freq := (st.freq.set 65 4).set 66 1 })
    t.nodeAt 2 = leafRec 256 1 ∧ t.nodeAt 3 = internalRec 2 1 2 ∧ t.nodeAt 4 = internalRec 6 3 0 ∧ t.root = 4 ∧ t.ncount = 5 ∧
      t.status = 6 := by
  decide +kernel

/-- V12: a leaf comes before an internal node of the same weight. -/
theorem test_build_tie :
    let t := after (exec .build { st with freq := ((st.freq.set 65 2).set 66 1).set 67 1 })
    t.nodeAt 4 = internalRec 2 1 2 ∧ t.nodeAt 5 = internalRec 3 3 0 ∧ t.nodeAt 6 = internalRec 5 4 5 := by
  decide +kernel

/-- V1: the codes of A, B and the sentinel. -/
theorem test_derive :
    let t := after (exec .derive demo)
    t.codeAt 65 = { len := 1, val := 1 } ∧ t.codeAt 66 = { len := 2, val := 0 } ∧ t.codeAt 256 = { len := 2, val := 1 } ∧
      t.codeAt 67 = { len := 0, val := 0 } := by
  decide +kernel

/-- V74: DERIVE after reset. -/
theorem test_derive_without_tree :
    let t := after (exec .derive st)
    t.err = 0x02 ∧ t.einfo = 0x04 ∧ t.seq = .error ∧ t.codeValid = false := by
  decide +kernel

/-- V1: the tree header. -/
theorem test_hdrw : (after (exec .hdrw demo)).bout = v1Tree := by decide +kernel

/-- V30. -/
theorem test_hdrr :
    let t := after (exec .hdrr { st with bin := v1Tree })
    t.nodeAt 0 = internalRec 0 1 4 ∧ t.nodeAt 1 = internalRec 0 2 3 ∧ t.nodeAt 2 = leafRec 66 0 ∧ t.nodeAt 4 = leafRec 65 0 ∧
      t.root = 0 ∧ t.ncount = 5 ∧ t.binCnt = 32 ∧ t.status = 6 := by
  decide +kernel

/-- V39: a cut symbol field. -/
theorem test_hdrr_truncated :
    let t := after (exec .hdrr { st with
      bin := [false, true, false, false, true, false, false, false, false, false, true, true, true] })
    t.err = 0x12 ∧ t.einfo = 3 ∧ t.treeValid = false := by
  decide +kernel

/-- V52: leading zeros are written. -/
theorem test_enc :
    (after (exec .enc { demo with sin := [0x42, 0x42] })).bout = [false, false, false, false, false, true] := by
  decide +kernel

/-- V53: a byte without a code. -/
theorem test_enc_nocode :
    let t := after (exec .enc { demo with sin := [0x41, 0x41, 0x43] })
    t.bout = [true, true] ∧ t.err = 0x20 ∧ t.einfo = 0x43 ∧ t.sinCnt = 3 ∧ t.boutCnt = 2 := by
  decide +kernel

/-- V60, on the tree as BUILD numbers it: the sentinel is node 2. -/
theorem test_dec :
    let t := after (exec .dec { demo with bin := [true, true, true, true, false, false, false, true, true] })
    t.sout = aaaab ∧ t.cur = 2 ∧ t.binPos = 8 ∧ t.seq = .done := by
  decide +kernel

/-- V62, on the tree as BUILD numbers it: the walk stands at node 3. -/
theorem test_dec_truncated :
    let t := after (exec .dec { demo with bin := [true, true, false] })
    t.sout = [0x41, 0x41] ∧ t.err = 0x13 ∧ t.einfo = 3 ∧ t.cur = 3 := by
  decide +kernel

/-- V23. -/
theorem test_magw : pack (after (exec .magw st)).bout = [0xFA, 0xCE, 0x82, 0x01] := by decide +kernel

/-- V25 and V24. -/
theorem test_magr :
    (after (exec .magr { st with bin := unpack [0xFA, 0xCE, 0x82, 0x00] })).einfo = 0xFACE8200 ∧
    (after (exec .magr { st with bin := v1Bits })).status = 2 := by
  decide +kernel

/-- V26. -/
theorem test_magr_truncated :
    let t := after (exec .magr { st with bin := unpack [0xFA, 0xCE, 0x82] })
    t.err = 0x11 ∧ t.einfo = 24 ∧ t.binCnt = 24 := by
  decide +kernel

/-- V78. -/
theorem test_rewind :
    let t := after (exec .rewind { demo with sin := aaaab, sinPos := 5, sinCnt := 5 })
    t.sinPos = 0 ∧ t.sinCnt = 0 ∧ t.status = 0x0E := by
  decide +kernel

/-- V77. -/
theorem test_clear :
    let t := after (exec .clear { demo with seq := .error, err := 0x13, ie := true, binCnt := 7 })
    t.seq = .idle ∧ t.err = 0 ∧ t.cmd = 0 ∧ t.binCnt = 0 ∧ t.ctrl = 1 ∧ t.irq = false ∧ t.treeValid = false := by
  decide +kernel

/-- V1: the container of "AAAAB". -/
theorem test_compress :
    pack (after (exec .compress { st with sin := aaaab })).bout = [0xFA, 0xCE, 0x82, 0x01, 0x24, 0x2C, 0x02, 0x41, 0xF1] := by
  decide +kernel

/-- V2: the container of the empty input. -/
theorem test_compress_empty :
    pack (after (exec .compress st)).bout = [0xFA, 0xCE, 0x82, 0x01, 0x60, 0x18, 0x04] := by decide +kernel

/-- P2, as one command. -/
theorem test_decompress :
    let t := after (exec .decompress { st with bin := v1Bits })
    t.sout = aaaab ∧ t.cur = 3 ∧ t.binCnt = 72 ∧ t.status = 6 ∧ t.cmd = 0x0D := by
  decide +kernel

/-- V20, m = 7. -/
theorem test_decompress_truncated :
    let t := after (exec .decompress { st with bin := v1Bits.take 56 })
    t.err = 0x12 ∧ t.einfo = 5 ∧ t.status = 3 := by
  decide +kernel

/-- R99: the records of V31, delivered one after another, are its header. -/
theorem test_records :
    (after (exec (.leafRecord 256) (after (exec (.leafRecord 256) (after (exec .nodeRecord st)))))).bin =
      (demoTree.ser.take 1 ++ (Tree.leaf 256).ser ++ (Tree.leaf 256).ser) := by
  decide +kernel

/-- V71, V75, V79, V80, V83, through the host port. -/
theorem test_host_port :
    (after (hostMove (.writeReg 0 0x0E) demo)).err = 0x01 ∧
    after (hostMove (.writeReg 0 0x03) { demo with seq := .error }) = { demo with seq := .error } ∧
    (after (hostMove (.writeReg 2 0xFFFFFFFF) demo)).ctrl = 1 ∧
    (after (hostMove (.writeReg 2 0xFFFFFFFF) demo)).status = 0x1E ∧
    (after (hostMove (.writeFreq 256 7) demo)).freqAt 256 = 1 ∧
    (after (hostMove (.writeFreq 65 0) demo)).treeValid = true := by
  refine ⟨by decide +kernel, rfl, by decide +kernel, by decide +kernel, by decide +kernel, by decide +kernel⟩

/-- R22, R41, R69 at their edges: a counter wraps, a group read meets END with the rest consumed. -/
theorem test_stream_edges :
    ({ st with bin := [true], binCnt := BitVec.allOnes 64 }.bitRead.2).binCnt = 0 ∧
    (match ({ st with bin := [true, false] }.bitsRead 3) with
      | .ended k t => decide (k = 2 ∧ t.binPos = 2)
      | .value _ _ => false) = true := by
  decide +kernel

/-! ## Witnesses: for every statement with hypotheses, a state and operands that meet them together -/

theorem demo_ready : Ready demo := by decide +kernel
theorem st_ready : Ready st := by decide +kernel
theorem demo_treeIs : TreeIs demo demoTree := by decide +kernel

/-- A block in ERROR, and one in BUSY (no run reaches BUSY; its statements say what is refused there). -/
def failed : State := { demo with seq := .error, err := 0x13 }
def running : State := { demo with seq := .busy }

/-- The right comb with `n + 1` leaves. -/
def comb : Nat → Tree
  | 0 => .leaf 256
  | n + 1 => .node (.leaf 65) (comb n)

theorem comb_leaves (n : Nat) : (comb n).leaves.length = n + 1 := by
  induction n with
  | zero => rfl
  | succ n ih => simp [comb, Tree.leaves, ih, Nat.add_comm]

theorem comb_size (n : Nat) : (comb n).size = 2 * n + 1 := by
  induction n with
  | zero => rfl
  | succ n ih => simp [comb, Tree.size, ih]; omega

theorem witness_IllegalWordsRaiseIllcmd :
    ((0x00 : Byte) = 0 ∨ 0x0D < (0x00 : Byte)) ∧ ((0x0E : Byte) = 0 ∨ 0x0D < (0x0E : Byte)) ∧
      ((0xFF : Byte) = 0 ∨ 0x0D < (0xFF : Byte)) ∧ Ready demo ∧ (0x00 : BitVec 64).setWidth 8 = (0x00 : Byte) ∧
      (0x0E : BitVec 64).setWidth 8 = (0x0E : Byte) ∧ (0xFF : BitVec 64).setWidth 8 = (0xFF : Byte) := by decide +kernel

theorem witness_DecodeInvertsEncode : (Instr.leafRecord 256).wf = true ∧ Instr.decompress.wf = true := by decide +kernel

theorem witness_DecodedIsTheEncodingOfItsInstruction :
    decode (.record (true :: bitsN 9 256)) = .ok (.leafRecord 256) ∧ decode (.command 0x0D) = .ok .decompress := by
  decide +kernel

theorem witness_HeaderIsSelfDelimitingAndSized :
    demoTree.ser ++ [true] = demoTree.ser ++ [true] ∧ (comb 1).leaves.length = 2 ∧ (comb 256).leaves.length = 257 :=
  ⟨rfl, comb_leaves 1, comb_leaves 256⟩

theorem witness_PackCarriesBitsFirstBitHighest :
    [true, false][0]? = some true ∧ v1Bits[71]? = some true := by decide +kernel

theorem witness_StepRunsDecodedInstruction :
    demo.seq ≠ .busy ∧ { demo with host := [.writeReg 0x00 0x0D] }.host = .writeReg 0x00 0x0D :: [] ∧
      decodeCommand ((0x0D : BitVec 64).setWidth 8) = .ok .decompress ∧
      { demo with host := [.deliver [false]] }.host = .deliver [false] :: [] ∧ decodeRecord [false] = .ok .nodeRecord ∧
      demo.host = [] := by decide +kernel

theorem witness_PlacedWordRunsNext :
    decodeTableWord 8 0x01 = some .clear ∧ decodeTableWord 8 0x0D = some .decompress ∧
      decodeTableWord 8 0 = some .nodeRecord ∧ decodeTableWord 16 0x300 = some (.leafRecord 256) ∧
      decodeTableWord 32 0xFFFFFFFF = some (.magicField 0xFFFFFFFF) := by decide +kernel

theorem witness_ErrorsDoNotNest :
    failed.seq = .error ∧ (0x00 : BitVec 64).setWidth 8 ≠ (0x01 : Byte) ∧ (0x02 : BitVec 64).setWidth 8 ≠ (0x01 : Byte) := by
  decide +kernel

theorem witness_BusyAllowsOnlyStatus : running.seq = .busy ∧ (0x00 : Nat) ≠ 0x01 ∧ (0x02 : Nat) ≠ 0x01 := by decide +kernel

theorem witness_RegisterMapIsComplete :
    demo.seq ≠ .busy ∧ (0x03 ≤ 0x03 ∧ 0x03 ≤ 0x0C) ∧ (0x03 ≤ 0x0C ∧ 0x0C ≤ 0x0C) ∧ 0x0D ≤ 0x0D ∧
      (0x01 ≤ 0x01 ∧ 0x01 ≤ 0x07) ∧ (0x01 ≤ 0x07 ∧ 0x07 ≤ 0x07) ∧ (0x08 ≤ 0x08 ∧ 0x08 ≤ 0x0B) ∧ (0x08 ≤ 0x0B ∧ 0x0B ≤ 0x0B) := by
  decide +kernel

theorem witness_StatusFieldsAndInterruptLevel : 5 ≤ 5 ∧ 5 ≤ 31 ∧ demo.seq ≠ .busy := by decide +kernel

theorem witness_CtrlHoldsInterruptEnable :
    failed.seq ≠ .busy ∧ exec .clear demo = .next (after (exec .clear demo)) ∧ 1 ≤ 1 ∧ 1 ≤ 31 :=
  ⟨by decide +kernel, next_of_completes (by decide +kernel), by omega, by omega⟩

theorem witness_SentinelCountIsOne :
    demo.seq ≠ .busy ∧ exec .count demo = .next (after (exec .count demo)) :=
  ⟨by decide +kernel, next_of_completes (by decide +kernel)⟩

theorem witness_TablePortAccesses :
    demo.seq ≠ .busy ∧ Ready demo ∧ failed.seq ≠ .busy ∧ failed.seq = .error ∧ 0 < 257 ∧ 256 < 257 ∧ 0 < 513 ∧ 512 < 513 ∧ 255 < 256 ∧
      (0 : Nat) ≠ 255 ∧ 257 ≤ 257 ∧ 513 ≤ 513 := by decide +kernel

theorem witness_ResetValues :
    (State.reset = State.reset ∨ ∃ u, hostMove .reset u = .next State.reset) ∧
      (running.hardReset = State.reset ∨ ∃ u, hostMove .reset u = .next running.hardReset) ∧ 255 < 256 :=
  ⟨.inl rfl, .inr ⟨running, rfl⟩, by decide +kernel⟩

theorem witness_ResetAndClearDifferInTwoPoints : failed.seq ≠ .busy ∧ running.seq = .busy := by decide +kernel

theorem witness_MagicNeverChanges :
    step { demo with host := [.reset] } = .next demo.hardReset ∧ demo.seq ≠ .busy := ⟨rfl, by decide +kernel⟩

/-- The tree of V1 without its codes meets the invariant. -/
theorem demo_inv : Inv { demo with codeValid := false, host := [.writeReg 0x00 0x04] } where
  notBusy := by decide +kernel
  pqEmpty := rfl
  noError := fun _ => ⟨rfl, rfl⟩
  errCode := fun h => absurd h (by decide +kernel)
  sinRange := Nat.le_refl 0
  binRange := Nat.le_refl 0
  tree := fun _ => ⟨demoTree, by decide +kernel⟩
  codes := fun h => absurd h (by decide +kernel)

theorem witness_StepKeepsInvariant :
    Inv { demo with codeValid := false, host := [.writeReg 0x00 0x04] } ∧
      step { demo with codeValid := false, host := [.writeReg 0x00 0x04] } =
        .next (after (step { demo with codeValid := false, host := [.writeReg 0x00 0x04] })) :=
  ⟨demo_inv, next_of_completes (by decide +kernel)⟩

theorem witness_NoFaultUnderInvariant : ∃ s : State, Inv s := ⟨_, demo_inv⟩

theorem witness_StreamPrimitives :
    { st with sin := aaaab, sinPos := 4 }.sinRest = 0x42 :: [] ∧ { st with sin := aaaab, sinPos := 5 }.sinRest = [] ∧
      { st with bin := [true] }.binRest = true :: [] ∧ st.binRest = [] ∧ 0 < 1 ∧ 8 < 9 := by decide +kernel

theorem witness_GroupReadIsMostSignificantFirst :
    { st with bin := [true, false] }.binRest = [true] ++ [false] ∧ [true].length = 1 ∧ st.binRest.length < 1 ∧
      { st with bin := [true, false] }.binRest.length < 3 := by decide +kernel

theorem witness_RaiseWritesErrEinfoState :
    Ready demo ∧ (fun s => Run.raised .illCmd 0x0E s) { demo with cmd := 0x0E, seq := .busy } =
      .raised .illCmd 0x0E { demo with cmd := 0x0E, seq := .busy } := ⟨demo_ready, rfl⟩

theorem witness_PreconditionFailsRaiseSeq :
    Ready st ∧ st.treeValid = false ∧ st.codeValid = false ∧
      Instr.count ∈ ([.clear, .count, .build, .hdrr, .magw, .magr, .rewind, .compress, .decompress] : List Instr) ∧
      exec .count st = .next (after (exec .count st)) :=
  ⟨st_ready, rfl, rfl, by decide +kernel, next_of_completes (by decide +kernel)⟩

theorem witness_ClearResult : failed.seq ≠ .busy := by decide +kernel
theorem witness_RewindResult : Ready demo := demo_ready
theorem witness_MagwResult : Ready demo := demo_ready

theorem witness_MagrResult :
    Ready { st with bin := v1Bits } ∧ { st with bin := v1Bits }.binRest = bitsN 32 (0xFACE8201 : BitVec 32).toNat ++ v1Bits.drop 32 ∧
      0xFACE8201 = { st with bin := v1Bits }.magic ∧
      { st with bin := bitsN 32 0 }.binRest = bitsN 32 (0 : BitVec 32).toNat ++ [] ∧ (0 : BitVec 32) ≠ { st with bin := bitsN 32 0 }.magic ∧
      Ready st ∧ st.binRest.length < 32 ∧ { st with bin := v1Bits.take 31 }.binRest.length < 32 := by decide +kernel

theorem witness_RecordsAreDeliveredOnBin : demo.seq ≠ .busy := by decide +kernel

theorem witness_CountResult :
    Ready { st with sin := aaaab } ∧ ∀ x : Byte, { st with sin := aaaab }.sinRest.count x < 2 ^ 32 :=
  ⟨by decide +kernel, fun _ => Nat.lt_of_le_of_lt List.count_le_length (by decide +kernel)⟩

/-- V17. -/
theorem witness_CountOverflowRaises :
    Ready { st with sin := List.replicate (2 ^ 32 - 1) 0 ++ [0] } ∧
      { st with sin := List.replicate (2 ^ 32 - 1) 0 ++ [0] }.sinRest = List.replicate (2 ^ 32 - 1) 0 ++ 0 :: [] ∧
      (∀ y : Byte, (List.replicate (2 ^ 32 - 1) (0 : Byte)).count y < 2 ^ 32) ∧
      (List.replicate (2 ^ 32 - 1) (0 : Byte)).count 0 = 2 ^ 32 - 1 := by
  refine ⟨.inl rfl, rfl, fun y => ?_, by simp only [List.count_replicate_self]⟩
  exact Nat.lt_of_le_of_lt List.count_le_length (by simp only [List.length_replicate]; omega)

theorem witness_ExtractMinIsLeastKey :
    { demo with pq := [0, 1, 2] }.extractMin = some (1, { demo with pq := [0, 2] }) ∧
      (2 : NodeIdx) ∈ { demo with pq := [0, 1, 2] }.pq ∧ (2 : NodeIdx) ≠ 1 :=
  ⟨rfl, by decide +kernel, by decide +kernel⟩

/-- BUILD on the counts of V1, for the statements about its next state: a leaf index, internal indices. -/
theorem witness_Build :
    Ready { st with freq := (st.freq.set 65 4).set 66 1 } ∧
      exec .build { st with freq := (st.freq.set 65 4).set 66 1 } =
        .next (after (exec .build { st with freq := (st.freq.set 65 4).set 66 1 })) ∧
      (liveSyms { st with freq := (st.freq.set 65 4).set 66 1 })[2]? = some 256 ∧
      leafCount { st with freq := (st.freq.set 65 4).set 66 1 } = 3 ∧
      (after (exec .build { st with freq := (st.freq.set 65 4).set 66 1 })).ncount.toNat = 5 ∧
      1 < (liveSyms { st with freq := (st.freq.set 65 4).set 66 1 }).length :=
  ⟨.inl rfl, next_of_completes (by decide +kernel), by decide +kernel, by decide +kernel, by decide +kernel, by decide +kernel⟩

theorem witness_BuildOfEmptyInput :
    Ready st ∧ (∀ x, x < 256 → st.freqAt x = 0) ∧ (liveSyms st).length = 1 ∧ exec .build st = .next (after (exec .build st)) :=
  ⟨st_ready, by decide +kernel, by decide +kernel, next_of_completes (by decide +kernel)⟩

theorem witness_BuildDependsOnFreqOnly :
    Ready st ∧ Ready { demo with freq := st.freq } ∧ st.freq = { demo with freq := st.freq }.freq ∧
      exec .build st = .next (after (exec .build st)) ∧
      exec .build { demo with freq := st.freq } = .next (after (exec .build { demo with freq := st.freq })) ∧
      2 < (after (exec .build st)).ncount.toNat :=
  ⟨st_ready, demo_ready, rfl, next_of_completes (by decide +kernel), next_of_completes (by decide +kernel), by decide +kernel⟩

theorem witness_TreeMeetsEachClauseOfR34 :
    TreeIs demo demoTree ∧ (4 : NodeIdx).toNat < demo.ncount.toNat ∧ (demo.nodeAt 4).leaf = false ∧
      (0 : NodeIdx).toNat < demo.ncount.toNat ∧ (demo.nodeAt 0).leaf = true := by decide +kernel

theorem witness_ValidTreeDepthBound :
    Inv { demo with codeValid := false, host := [.writeReg 0x00 0x04] } ∧
      { demo with codeValid := false, host := [.writeReg 0x00 0x04] }.treeValid = true := ⟨demo_inv, rfl⟩

theorem witness_DeriveResult :
    Ready st ∧ st.treeValid = false ∧ Ready demo ∧ demo.treeValid = true ∧ TreeIs demo demoTree ∧ demoTree.code (BitVec.ofNat 9 256) = some [false, true] := by
  decide +kernel

theorem witness_DerivedCodesArePrefixFree :
    Ready demo ∧ demo.treeValid = true ∧ TreeIs demo demoTree ∧ exec .derive demo = .next (after (exec .derive demo)) ∧
      65 ≤ 256 ∧ 256 ≤ 256 ∧ (65 : Nat) ≠ 256 ∧ ((after (exec .derive demo)).codeAt 65).len ≠ 0 ∧
      ((after (exec .derive demo)).codeAt 256).len ≠ 0 :=
  ⟨demo_ready, rfl, demo_treeIs, next_of_completes (by decide +kernel), by decide +kernel, by decide +kernel, by decide +kernel,
    by decide +kernel, by decide +kernel⟩

theorem witness_HdrwResult : Ready st ∧ st.treeValid = false ∧ Ready demo ∧ demo.treeValid = true ∧ TreeIs demo demoTree :=
  ⟨st_ready, rfl, demo_ready, rfl, demo_treeIs⟩

theorem witness_HdrrInvertsHdrw :
    (Ready { st with bin := v1Tree } ∧ demoTree.isNode = true ∧ demoTree.size ≤ 513 ∧ demoTree.symsOk = true ∧
      { st with bin := v1Tree }.binRest = demoTree.ser ++ []) ∧
    (Ready demo ∧ demo.treeValid = true ∧ TreeIs demo demoTree ∧ exec .hdrw demo = .next (after (exec .hdrw demo)) ∧
      (after (exec .hdrw demo)).bout = demo.bout ++ v1Tree ∧ { st with bin := v1Tree }.binRest = v1Tree ++ []) ∧
    (comb 256).size = 513 :=
  ⟨by decide +kernel, ⟨demo_ready, rfl, demo_treeIs, next_of_completes (by decide +kernel), by decide +kernel, by decide +kernel⟩,
    comb_size 256⟩

/-- V39, and V44 at the bound: 513 nodes and no further bit; the last node a leaf whose field is cut. -/
theorem witness_HdrrTruncatedRaises :
    (Ready { st with bin := [false, true] ++ bitsN 9 65 ++ true :: [true, true] } ∧ Unfinished [.node, .leaf 65] ∧
      [HeaderRec.node, .leaf 65].length < 513 ∧ [true, true].length < 9 ∧
      { st with bin := [false, true] ++ bitsN 9 65 ++ true :: [true, true] }.binRest =
        recBits [.node, .leaf 65] ++ true :: [true, true]) ∧
    (Unfinished (List.replicate 513 .node) ∧ (List.replicate 513 HeaderRec.node).length ≤ 513 ∧
      { st with bin := List.replicate 513 false }.binRest = recBits (List.replicate 513 .node)) ∧
    (Unfinished (List.replicate 512 .node) ∧ (List.replicate 512 HeaderRec.node).length < 513) ∧
    (Unfinished [] ∧ st.binRest = recBits []) := by decide +kernel

/-- V34b; V33 and V40, the least and the greatest reserved symbol; V43. -/
theorem witness_HdrrRejectsLoneLeafAndOversizeTree :
    (Ready { st with bin := true :: bitsN 9 256 } ∧ (256 : Sym).toNat ≤ 256 ∧
      { st with bin := true :: bitsN 9 256 }.binRest = true :: bitsN 9 (256 : Sym).toNat ++ []) ∧
    (Unfinished [] ∧ 256 < (257 : Sym).toNat ∧
      { st with bin := true :: bitsN 9 257 }.binRest = recBits [] ++ (true :: bitsN 9 (257 : Sym).toNat) ++ []) ∧
    (Unfinished [.node] ∧ [HeaderRec.node].length < 513 ∧ 256 < (511 : Sym).toNat ∧
      { st with bin := false :: true :: bitsN 9 511 ++ (true :: bitsN 9 256) }.binRest =
        recBits [.node] ++ (true :: bitsN 9 (511 : Sym).toNat) ++ (true :: bitsN 9 256)) ∧
    (Unfinished (List.replicate 513 .node) ∧ (List.replicate 513 HeaderRec.node).length = 513 ∧
      { st with bin := List.replicate 600 false }.binRest =
        recBits (List.replicate 513 .node) ++ false :: List.replicate 86 false) := by decide +kernel

/-- V40: a reserved symbol below an internal root. -/
theorem test_hdrr_reserved_symbol :
    let t := after (exec .hdrr { st with bin := false :: true :: bitsN 9 511 ++ (true :: bitsN 9 256) })
    t.err = 0x14 ∧ t.einfo = 511 ∧ t.binCnt = 11 ∧ t.treeValid = false := by
  decide +kernel

theorem witness_EncResult :
    Ready { demo with sin := aaaab } ∧ { demo with sin := aaaab }.codeValid = true ∧
      (∀ x ∈ { demo with sin := aaaab }.sinRest, ({ demo with sin := aaaab }.codeAt x.toNat).len ≠ 0) ∧
      ({ demo with sin := aaaab }.codeAt 256).len ≠ 0 := by decide +kernel

theorem witness_EncWithoutCodeRaises :
    (Ready { demo with sin := [0x41, 0x43, 0x41] } ∧ { demo with sin := [0x41, 0x43, 0x41] }.codeValid = true ∧
      { demo with sin := [0x41, 0x43, 0x41] }.sinRest = [0x41] ++ 0x43 :: [0x41] ∧
      (∀ y ∈ ([0x41] : List Byte), (demo.codeAt y.toNat).len ≠ 0) ∧ (demo.codeAt 0x43).len = 0) ∧
    (Ready { demo with code := Vector.replicate 257 { len := 0, val := 0 } } ∧
      (∀ y ∈ { demo with code := Vector.replicate 257 { len := 0, val := 0 } }.sinRest, (demo.codeAt y.toNat).len ≠ 0) ∧
      ({ demo with code := Vector.replicate 257 { len := 0, val := 0 } }.codeAt 256).len = 0) := by decide +kernel

theorem witness_DecInvertsEnc :
    Ready { demo with bin := demoTree.payload aaaab ++ [true] } ∧ TreeIs { demo with bin := demoTree.payload aaaab ++ [true] } demoTree ∧
      demoTree.codes aaaab = true ∧
      { demo with bin := demoTree.payload aaaab ++ [true] }.binRest = demoTree.payload aaaab ++ [true] := by decide +kernel

theorem witness_DecTruncatedRaises :
    Ready { demo with bin := [true, true, true, true, false] } ∧
      TreeIs { demo with bin := [true, true, true, true, false] } demoTree ∧ demoTree.codes aaaab = true ∧ { demo with bin := [true, true, true, true, false] }.binRest = [true, true, true, true, false] ∧
      [true, true, true, true, false] <+: demoTree.payload aaaab ∧
      [true, true, true, true, false].length < (demoTree.payload aaaab).length := by decide +kernel

/-- The block of V66: the tree of V19b, which has no sentinel leaf. -/
def noEos : State :=
  { demo with
    node := ((demo.node.set 0 (internalRec 0 1 2)).set 1 (leafRec 65 0)).set 2 (leafRec 66 0), root := 0, ncount := 3,
    bin := [false, true, false] }

theorem witness_DecAlwaysEnds :
    Ready noEos ∧ noEos.treeValid = true ∧ TreeIs noEos (.node (.leaf 65) (.leaf 66)) ∧
      (256 : Sym) ∉ (Tree.node (.leaf 65) (.leaf 66)).leaves ∧ Ready demo ∧ demo.treeValid = true ∧ TreeIs demo demoTree := by
  decide +kernel

/-- V66: a byte for every leaf reached, and the end of BIN at the root. -/
theorem test_dec_without_sentinel :
    let t := after (exec .dec noEos)
    t.sout = [0x41, 0x42, 0x41] ∧ t.err = 0x13 ∧ t.einfo = 0 ∧ t.binPos = 3 := by
  decide +kernel

theorem witness_SequencesEqualTheirSteps :
    Ready { st with sin := aaaab } ∧
      execAll [.count, .build, .derive, .magw, .hdrw, .rewind, .enc] { st with sin := aaaab } =
        .next (after (execAll [.count, .build, .derive, .magw, .hdrw, .rewind, .enc] { st with sin := aaaab })) ∧
      execAll [.magr, .hdrr, .dec] { st with bin := v1Bits } = .next (after (execAll [.magr, .hdrr, .dec] { st with bin := v1Bits })) :=
  ⟨by decide +kernel, next_of_completes (by decide +kernel), next_of_completes (by decide +kernel)⟩

theorem witness_CompressWritesTheContainer :
    Ready { st with sin := aaaab } ∧ { st with sin := aaaab }.sinPos = 0 ∧
      (∀ x : Byte, { st with sin := aaaab }.sin.count x < 2 ^ 32) ∧ Ready { st with freq := (st.freq.set 65 4).set 66 1 } ∧
      { st with freq := (st.freq.set 65 4).set 66 1 }.freq = (after (exec .compress { st with sin := aaaab })).freq ∧
      exec .build { st with freq := (st.freq.set 65 4).set 66 1 } =
        .next (after (exec .build { st with freq := (st.freq.set 65 4).set 66 1 })) :=
  ⟨by decide +kernel, rfl, fun _ => Nat.lt_of_le_of_lt List.count_le_length (by decide +kernel), .inl rfl, by decide +kernel,
    next_of_completes (by decide +kernel)⟩

theorem witness_DecompressReadsTheContainer :
    Ready { st with bin := v1Bits } ∧ demoTree.isNode = true ∧ demoTree.size ≤ 513 ∧ demoTree.symsOk = true ∧
      demoTree.codes aaaab = true ∧
      { st with bin := v1Bits }.binRest = container { st with bin := v1Bits }.magic demoTree (demoTree.payload aaaab) ++ [] := by
  decide +kernel

/-- V20: the cuts at m = 3, 4, 7 and 8 meet the three clauses at their bounds. -/
theorem witness_RoundTripAndTruncation :
    Ready { st with sin := aaaab } ∧ { st with sin := aaaab }.sinPos = 0 ∧ { st with sin := aaaab }.bout = [] ∧
      (∀ x : Byte, { st with sin := aaaab }.sin.count x < 2 ^ 32) ∧
      exec .compress { st with sin := aaaab } = .next (after (exec .compress { st with sin := aaaab })) ∧
      TreeIs (after (exec .compress { st with sin := aaaab })) demoTree ∧
      { st with bin := v1Bits }.magic = { st with sin := aaaab }.magic ∧ { st with bin := v1Bits }.sout = [] ∧
      { st with bin := v1Bits }.binRest = unpack (pack (after (exec .compress { st with sin := aaaab })).bout) ∧
      (∀ m ∈ [3, 4, 7, 8], 8 * m < (after (exec .compress { st with sin := aaaab })).bout.length ∧
        { st with bin := v1Bits.take (8 * m) }.binRest =
          unpack ((pack (after (exec .compress { st with sin := aaaab })).bout).take m)) ∧
      8 * 3 < 32 ∧ ¬ 8 * 4 < 32 ∧ 8 * 7 < 32 + demoTree.ser.length ∧ ¬ 8 * 8 < 32 + demoTree.ser.length :=
  ⟨by decide +kernel, rfl, rfl, fun _ => Nat.lt_of_le_of_lt List.count_le_length (by decide +kernel),
    next_of_completes (by decide +kernel), by decide +kernel, rfl, rfl, by decide +kernel, by decide +kernel, by decide +kernel⟩

theorem witness_EmptyInputContainer :
    Ready st ∧ st.sinPos = 0 ∧ st.sin = [] ∧
      { st with bin := bitsN 32 st.magic.toNat ++ [false] ++ (true :: bitsN 9 256) ++ (true :: bitsN 9 256) ++ [true] ++ [false, false] }.binRest =
        bitsN 32 st.magic.toNat ++ [false] ++ (true :: bitsN 9 256) ++ (true :: bitsN 9 256) ++ [true] ++ [false, false] := by
  decide +kernel

end Sys2Proof.Tests
end

section
/-!
PROOFS. The error entry of the command runner (R13, R231, R240).
-/
namespace Sys2Proof.Machine

/-- Where a command is accepted and its precondition holds, a raise in its steps is the error entry on the state it was raised in. -/
theorem runCommand_raised {w : Byte} {pre : State → Bool} {body : State → Run} {s t : State} {e : ErrKind} {info : BitVec 32}
    (hs : Ready s) (hp : pre { s with cmd := w, seq := .busy } = true)
    (hb : body { s with cmd := w, seq := .busy } = .raised e info t) :
    runCommand w pre body s = .next (t.raiseError e info) :=
  (runCommand_ready hs).trans (accept_raised hp hb)

/-- Settles O24: the codes are those of R231 by definition; the next state is `raiseError` of the state that raised, which by its
definition sets ERR, EINFO and STATE only. -/
theorem raiseWritesErrEinfoState : Obligations.RaiseWritesErrEinfoState := by
  unfold Obligations.RaiseWritesErrEinfoState
  constructor
  · rfl
  · intro s t w body e info hs hb
    have haccept : always { s with cmd := w, seq := .busy } = true := rfl
    exact runCommand_raised hs haccept hb

end Sys2Proof.Machine
end
section
/-!
PROOFS. What no command writes, and the register 0x0C (10_state R42): a frame over every command's steps, every instruction and
every move of the host.
-/
namespace Sys2Proof.Machine

/-! ## The part of the state that no command writes -/

/-- MAGIC, CTRL, the contents of the two inputs, and the host's side of the block. -/
def commandFixed (s : State) : BitVec 32 × Bool × List Byte × List Bit × List HostAction × Option HostData :=
  (s.magic, s.ie, s.sin, s.bin, s.host, s.hostData)

/-- The steps of a command leave that part alone, whether they all run or one raises. -/
def KeepsFixed (body : State → Run) : Prop :=
  ∀ s, (body s).All (fun t => commandFixed t = commandFixed s)

theorem magic_of_commandFixed {s t : State} (h : commandFixed t = commandFixed s) : t.magic = s.magic :=
  congrArg Prod.fst h

/-- A frame by a mask that blanks none of these fields covers them. -/
theorem commandFixed_of_mask {mask : State → State} {s t : State} (h : mask t = mask s)
    (hmask : ∀ u, commandFixed (mask u) = commandFixed u) : commandFixed t = commandFixed s := by
  rw [← hmask t, h, hmask s]

theorem commandFixed_maskSin (s : State) : commandFixed (maskSin s) = commandFixed s := by simp only [commandFixed, maskSin]
theorem commandFixed_maskBin (s : State) : commandFixed (maskBin s) = commandFixed s := by simp only [commandFixed, maskBin]
theorem commandFixed_maskEnc (s : State) : commandFixed (maskEnc s) = commandFixed s := by simp only [commandFixed, maskEnc]
theorem commandFixed_maskDec (s : State) : commandFixed (maskDec s) = commandFixed s := by simp only [commandFixed, maskDec]
theorem commandFixed_maskCode (s : State) : commandFixed (maskCode s) = commandFixed s := by simp only [commandFixed, maskCode]
theorem commandFixed_maskBout (s : State) : commandFixed (maskBout s) = commandFixed s := by simp only [commandFixed, maskBout]
theorem commandFixed_maskTree (s : State) : commandFixed (maskTree s) = commandFixed s := by simp only [commandFixed, maskTree]

theorem KeepsFixed.andThen {f g : State → Run} (hf : KeepsFixed f) (hg : KeepsFixed g) :
    KeepsFixed (fun s => (f s).andThen g) :=
  fun s => (hf s).andThen (fun _ h => h) (fun t ht => (hg t).mono (fun _ hu => hu.trans ht))

theorem raised_keepsFixed (e : ErrKind) (info : BitVec 32) : KeepsFixed (.raised e info) := fun _ => rfl

theorem clearBody_keepsFixed : KeepsFixed clearBody := fun _ => rfl

theorem rewindBody_keepsFixed : KeepsFixed rewindBody := fun _ => rfl

theorem countBody_keepsFixed : KeepsFixed countBody :=
  fun _ => (countLoop_frame ..).mono (fun _ h => (commandFixed_of_mask h commandFixed_maskSin).trans rfl)

theorem buildEnd_fixed (n : Nat) (s : State) : commandFixed (buildEnd n s) = commandFixed s := by
  unfold buildEnd
  split
  next => rfl
  next r u hmin => exact commandFixed_of_mask (t := u) (extractMin_frame hmin) commandFixed_maskTree

theorem buildBody_keepsFixed : KeepsFixed buildBody := by
  intro s
  have hstart : commandFixed { s.dropTree.dropCodes with pq := [] } = commandFixed s := rfl
  refine (buildEnd_fixed _ _).trans ((commandFixed_of_mask ?_ commandFixed_maskTree).trans hstart)
  exact (buildMerge_frame ..).trans ((buildGuard_frame ..).trans (buildLeaves_frame ..))

theorem deriveBody_keepsFixed : KeepsFixed deriveBody := by
  intro s
  refine (walk_frame ..).andThen (Q := fun t => commandFixed t = commandFixed s) (fun t h => ?_) (fun t h => ?_)
  · exact (commandFixed_of_mask h commandFixed_maskCode).trans rfl
  · exact (commandFixed_of_mask h commandFixed_maskCode).trans rfl

theorem magwBody_keepsFixed : KeepsFixed magwBody := by
  intro s
  change commandFixed (s.bitsWrite 32 s.magic.toNat) = commandFixed s
  exact commandFixed_of_mask (bitsWrite_frame ..) commandFixed_maskBout

theorem hdrwBody_keepsFixed : KeepsFixed hdrwBody :=
  fun _ => (emit_frame ..).mono (fun _ h => commandFixed_of_mask h commandFixed_maskBout)

theorem magrBody_keepsFixed : KeepsFixed magrBody := by
  intro s
  have hread := bitsReadFrom_frame 32 0 0 s
  unfold magrBody State.bitsRead
  cases hr : bitsReadFrom 32 0 0 s with
  | ended k t =>
    rw [hr] at hread
    exact commandFixed_of_mask hread.1 commandFixed_maskBin
  | value v t =>
    rw [hr] at hread
    have ht : commandFixed t = commandFixed s := commandFixed_of_mask hread.1 commandFixed_maskBin
    dsimp only
    split
    · exact ht
    · exact ht

theorem hdrrBody_keepsFixed : KeepsFixed hdrrBody := by
  intro s
  have hrd := rd_frame (Config.nnode + 1) 0 s.dropTree.dropCodes
  unfold hdrrBody
  cases hr : rd (Config.nnode + 1) 0 s.dropTree.dropCodes with
  | raised e info t =>
    rw [hr] at hrd
    exact commandFixed_of_mask (s := s.dropTree.dropCodes) (t := t) hrd commandFixed_maskBin
  | ok r n t =>
    rw [hr] at hrd
    have ht : commandFixed t = commandFixed s :=
      commandFixed_of_mask (s := s.dropTree.dropCodes) (t := t) hrd commandFixed_maskBin
    dsimp only
    split
    · exact ht
    · exact ht

theorem encBody_keepsFixed : KeepsFixed encBody :=
  fun _ => (encLoop_frame ..).mono (fun _ h => commandFixed_of_mask h commandFixed_maskEnc)

theorem decBody_keepsFixed : KeepsFixed decBody :=
  fun _ => (decLoop_frame ..).mono (fun _ h => (commandFixed_of_mask h commandFixed_maskDec).trans rfl)

theorem compressBody_keepsFixed : KeepsFixed compressBody :=
  (((((countBody_keepsFixed.andThen buildBody_keepsFixed).andThen deriveBody_keepsFixed).andThen
    magwBody_keepsFixed).andThen hdrwBody_keepsFixed).andThen rewindBody_keepsFixed).andThen encBody_keepsFixed

theorem decompressBody_keepsFixed : KeepsFixed decompressBody :=
  (magrBody_keepsFixed.andThen hdrrBody_keepsFixed).andThen decBody_keepsFixed

/-- The runner itself writes CMD, STATE, ERR and EINFO only. -/
theorem runCommand_keeps_fixed {w : Byte} {pre : State → Bool} {body : State → Run} {s t : State} (hbody : KeepsFixed body)
    (h : runCommand w pre body s = .next t) : commandFixed t = commandFixed s := by
  have hsteps := hbody { s with cmd := w, seq := .busy }
  obtain ⟨-, -, rfl⟩ | ⟨-, ⟨-, rfl⟩ | ⟨u, hu, rfl⟩ | ⟨e, info, u, hu, rfl⟩⟩ := runCommand_next h
  · rfl
  · rfl
  · rw [hu] at hsteps; exact hsteps
  · rw [hu] at hsteps; exact hsteps

theorem illegalCommand_keeps_fixed {w : Byte} {s t : State} (h : illegalCommand w s = .next t) :
    commandFixed t = commandFixed s :=
  runCommand_keeps_fixed (raised_keepsFixed _ _) h

/-- An instruction that completes is a command, which leaves the fixed part alone, or a record, delivered at the end of BIN. -/
theorem exec_next {i : Instr} {s t : State} (h : exec i s = .next t) :
    commandFixed t = commandFixed s ∨ ∃ bits, t = { s with bin := s.bin ++ bits } := by
  cases i with
  | clear => exact .inl (runCommand_keeps_fixed clearBody_keepsFixed h)
  | count => exact .inl (runCommand_keeps_fixed countBody_keepsFixed h)
  | build => exact .inl (runCommand_keeps_fixed buildBody_keepsFixed h)
  | derive => exact .inl (runCommand_keeps_fixed deriveBody_keepsFixed h)
  | hdrw => exact .inl (runCommand_keeps_fixed hdrwBody_keepsFixed h)
  | hdrr => exact .inl (runCommand_keeps_fixed hdrrBody_keepsFixed h)
  | enc => exact .inl (runCommand_keeps_fixed encBody_keepsFixed h)
  | dec => exact .inl (runCommand_keeps_fixed decBody_keepsFixed h)
  | magw => exact .inl (runCommand_keeps_fixed magwBody_keepsFixed h)
  | magr => exact .inl (runCommand_keeps_fixed magrBody_keepsFixed h)
  | rewind => exact .inl (runCommand_keeps_fixed rewindBody_keepsFixed h)
  | compress => exact .inl (runCommand_keeps_fixed compressBody_keepsFixed h)
  | decompress => exact .inl (runCommand_keeps_fixed decompressBody_keepsFixed h)
  | magicField m => exact .inr ⟨_, (deliverBits_next.mp h).2⟩
  | nodeRecord => exact .inr ⟨_, (deliverBits_next.mp h).2⟩
  | leafRecord sym => exact .inr ⟨_, (deliverBits_next.mp h).2⟩

/-! ## The host port: what an access that goes through comes to -/

/-- A register read that goes through writes the host's answer only. -/
theorem readReg_next {n : Nat} {s t : State} (h : readReg n s = .next t) :
    ∃ d, s.readReg n = some d ∧ t = { s with hostData := some d } := by
  unfold readReg at h
  split at h
  · cases h
  · cases hd : s.readReg n with
    | none => rw [hd] at h; cases h
    | some d => rw [hd] at h; cases h; exact ⟨d, rfl, rfl⟩

/-- A register write that goes through starts a command, stores CTRL, or is ignored. -/
theorem writeReg_next {n : Nat} {v : BitVec 64} {s t : State} (h : writeReg n v s = .next t) :
    writeCmd (v.setWidth 8) s = .next t ∨ t = s.writeCtrl (v.setWidth 32) ∨ t = s := by
  unfold writeReg at h
  split at h
  · cases h
  split at h
  · exact .inl h
  split at h
  · cases h; exact .inr (.inl rfl)
  split at h
  · cases h; exact .inr (.inr rfl)
  · cases h

/-- In every STATE but BUSY a register that exists answers. -/
theorem hostMove_readReg {s : State} {n : Nat} {d : HostData} (hs : s.seq ≠ .busy) (hd : s.readReg n = some d) :
    hostMove (.readReg n) s = .next { s with hostData := some d } := by
  simp [hostMove, readReg, hs, hd]

/-- In every STATE but BUSY a write of a register other than CMD and CTRL is ignored. -/
theorem hostMove_writeReg_readOnly {s : State} {n : Nat} (v : BitVec 64) (hs : s.seq ≠ .busy) (hcmd : n ≠ 0x00)
    (hctrl : n ≠ 0x02) (hn : n ≤ 0x0C) : hostMove (.writeReg n v) s = .next s := by
  simp [hostMove, writeReg, hs, hcmd, hctrl, hn]

/-! ## MAGIC -/

theorem exec_magic {i : Instr} {s t : State} (h : exec i s = .next t) : t.magic = s.magic := by
  obtain hfixed | ⟨bits, rfl⟩ := exec_next h
  · exact magic_of_commandFixed hfixed
  · rfl

theorem writeCmd_magic {w : Byte} {s t : State} (h : writeCmd w s = .next t) : t.magic = s.magic := by
  unfold writeCmd at h
  split at h
  · exact exec_magic h
  · exact magic_of_commandFixed (illegalCommand_keeps_fixed h)

theorem deliver_magic {bits : List Bit} {s t : State} (h : deliver bits s = .next t) : t.magic = s.magic := by
  unfold deliver at h
  split at h
  · exact exec_magic h
  · obtain ⟨-, rfl⟩ := deliverBits_next.mp h
    rfl

theorem writeReg_magic {n : Nat} {v : BitVec 64} {s t : State} (h : writeReg n v s = .next t) : t.magic = s.magic := by
  obtain hcmd | rfl | rfl := writeReg_next h
  · exact writeCmd_magic hcmd
  · rfl
  · rfl

theorem readReg_magic {n : Nat} {s t : State} (h : readReg n s = .next t) : t.magic = s.magic := by
  obtain ⟨d, -, rfl⟩ := readReg_next h
  rfl

theorem tableAccess_magic {size i : Nat} {f : State → State} {s t : State} (hf : (f s).magic = s.magic)
    (h : tableAccess size i f s = .next t) : t.magic = s.magic := by
  obtain ⟨-, -, rfl⟩ := tableAccess_next.mp h
  exact hf

theorem streamMove_magic {f : State → State} {s t : State} (hf : (f s).magic = s.magic) (h : streamMove f s = .next t) :
    t.magic = s.magic := by
  obtain ⟨-, rfl⟩ := streamMove_next.mp h
  exact hf

theorem hostSetFreq_magic (s : State) (i : Nat) (c : Count) : (s.hostSetFreq i c).magic = s.magic := by
  unfold State.hostSetFreq
  split
  · rfl
  · exact State.setFreq_magic s i c

theorem hardReset_magic (s : State) : s.hardReset.magic = s.magic := by
  unfold State.hardReset
  dsimp only
  split
  · rfl
  · rfl

theorem hostMove_magic {a : HostAction} {s t : State} (h : hostMove a s = .next t) : t.magic = s.magic := by
  unfold hostMove at h
  cases a with
  | readReg n => exact readReg_magic h
  | writeReg n v => exact writeReg_magic h
  | readFreq i => exact tableAccess_magic rfl h
  | writeFreq i c => exact tableAccess_magic (hostSetFreq_magic s i c) h
  | readNode i => exact tableAccess_magic rfl h
  | writeNode i r => exact tableAccess_magic rfl h
  | readCode i => exact tableAccess_magic rfl h
  | writeCode i r => exact tableAccess_magic rfl h
  | reset => cases h; exact hardReset_magic s
  | presentSin bytes => exact streamMove_magic rfl h
  | presentBin bits => exact streamMove_magic rfl h
  | deliver bits => exact deliver_magic h
  | freshBout => exact streamMove_magic rfl h
  | freshSout => exact streamMove_magic rfl h
  | closeBout => exact streamMove_magic rfl h
  | closeSout => exact streamMove_magic rfl h

theorem step_magic {s t : State} (h : step s = .next t) : t.magic = s.magic := by
  obtain ⟨-, hstep⟩ | ⟨a, rest, -, hstep⟩ := step_cases s
  · rw [hstep] at h; cases h; rfl
  · rw [hstep] at h; exact (hostMove_magic h).trans rfl

/-- Settles O18: a step is one host move; commands leave MAGIC in the part of the state they do not write, and no other move names
it. Register 0x0C is one of the read-only ones. -/
theorem magicNeverChanges : Obligations.MagicNeverChanges := by
  unfold Obligations.MagicNeverChanges
  exact ⟨fun _ _ h => step_magic h,
    fun s hs => ⟨hostMove_readReg hs rfl, fun v => hostMove_writeReg_readOnly v hs (by decide) (by decide) le_rfl⟩⟩

end Sys2Proof.Machine
end
section
/-!
PROOFS. The control registers (10_state R22, R25, R47), the interrupt level (60_exceptions R247) and the sentinel's count (R31).
-/
namespace Sys2Proof.Machine

/-! ## STATUS and CTRL by bits -/

/-- STATUS bit by bit (R22). -/
theorem State.status_getLsbD (s : State) (k : Nat) :
    s.status.getLsbD k =
      if k < 2 then s.seq.code.getLsbD k
      else if k = 2 then s.treeValid else if k = 3 then s.codeValid else if k = 4 then s.irq else false := by
  simp only [State.status, BitVec.getLsbD_setWidth, BitVec.getLsbD_append, BitVec.getLsbD_ofBool]
  grind

theorem State.status_stateField (s : State) : s.status.extractLsb' 0 2 = s.seq.code := by
  apply BitVec.eq_of_getLsbD_eq
  intro k hk
  rw [BitVec.getLsbD_extractLsb', Nat.zero_add, State.status_getLsbD, if_pos hk, decide_eq_true hk, Bool.true_and]

theorem State.status_getLsbD_of_five_le (s : State) {k : Nat} (hk : 5 ≤ k) : s.status.getLsbD k = false := by
  rw [State.status_getLsbD, if_neg (by omega), if_neg (by omega), if_neg (by omega), if_neg (by omega)]

theorem State.irq_iff (s : State) : s.irq = true ↔ s.ie = true ∧ (s.seq = .done ∨ s.seq = .error) := by
  simp [State.irq]

theorem State.ctrl_getLsbD_zero (s : State) : s.ctrl.getLsbD 0 = s.ie := by
  rw [State.ctrl, BitVec.getLsbD_setWidth, BitVec.getLsbD_ofBool]
  rfl

theorem State.ctrl_getLsbD_of_one_le (s : State) {k : Nat} (hk : 1 ≤ k) : s.ctrl.getLsbD k = false := by
  have hk0 : k ≠ 0 := by omega
  simp [State.ctrl, BitVec.getLsbD_setWidth, BitVec.getLsbD_ofBool, hk0]

theorem State.status_reset : State.reset.status = 0 := rfl

theorem State.ctrl_reset : State.reset.ctrl = 0 := rfl

/-! ## Writes of registers -/

theorem hostMove_writeReg_cmd {s : State} (v : BitVec 64) (hs : s.seq ≠ .busy) :
    hostMove (.writeReg 0x00 v) s = writeCmd (v.setWidth 8) s := by
  simp [hostMove, writeReg, hs]

theorem hostMove_writeReg_ctrl {s : State} (v : BitVec 64) (hs : s.seq ≠ .busy) :
    hostMove (.writeReg 0x02 v) s = .next (s.writeCtrl (v.setWidth 32)) := by
  simp [hostMove, writeReg, hs]

/-- A write of CTRL takes bit 0 of what the host writes. -/
theorem State.writeCtrl_setWidth (s : State) (v : BitVec 64) :
    s.writeCtrl (v.setWidth 32) = { s with ie := v.getLsbD 0 } := by
  simp [State.writeCtrl]

/-! ## Registers that do not exist -/

theorem State.readReg_eq_none (s : State) {n : Nat} (hn : 0x0D ≤ n) : s.readReg n = none := by
  obtain ⟨m, rfl⟩ := Nat.exists_eq_add_of_le' hn
  rfl

theorem hostMove_readReg_absent {s : State} {n : Nat} (hs : s.seq ≠ .busy) (hn : 0x0D ≤ n) :
    hostMove (.readReg n) s = .refused (.noSuchRegister n) := by
  simp [hostMove, readReg, hs, s.readReg_eq_none hn]

theorem hostMove_writeReg_absent {s : State} {n : Nat} (v : BitVec 64) (hs : s.seq ≠ .busy) (hn : 0x0D ≤ n) :
    hostMove (.writeReg n v) s = .refused (.noSuchRegister n) := by
  have hcmd : n ≠ 0x00 := by omega
  have hctrl : n ≠ 0x02 := by omega
  have hlast : ¬ n ≤ 0x0C := by omega
  simp [hostMove, writeReg, hs, hcmd, hctrl, hlast]

/-! ## CLEAR -/

/-- CLEAR in every STATE but BUSY (R200). -/
theorem exec_clear {s : State} (hs : s.seq ≠ .busy) : exec .clear s = .next { s.clearBlock with seq := .idle } :=
  (runCommand_clear hs).trans (accept_ok (t := { s with cmd := 0x01, seq := .busy }.clearBlock) rfl rfl)

theorem exec_clear_next {s t : State} (h : exec .clear s = .next t) : t = { s.clearBlock with seq := .idle } := by
  by_cases hs : s.seq = .busy
  · have hrefused : exec .clear s = .refused .accessWhileBusy := runCommand_busy hs
    rw [hrefused] at h; cases h
  · rw [exec_clear hs] at h; cases h; rfl

/-! ## FREQ[256] -/

/-- The sentinel's count is no stored entry, so a write of it changes nothing (R31). -/
theorem State.setFreq_sentinel (s : State) (c : Count) : s.setFreq 256 c = s := by
  have hout : s.freq.setIfInBounds 256 c = s.freq := Vector.setIfInBounds_eq_of_size_le le_rfl
  rw [State.setFreq, hout]

theorem State.hostSetFreq_sentinel (s : State) (c : Count) : s.hostSetFreq 256 c = s := by
  simp [State.hostSetFreq, State.setFreq_sentinel]

theorem hostMove_readFreq {s : State} {i : Nat} (hs : s.seq ≠ .busy) (hi : i < Config.nsym) :
    hostMove (.readFreq i) s = .next { s with hostData := some (.freq (s.freqAt i)) } := by
  unfold hostMove
  exact tableAccess_next.mpr ⟨hs, hi, rfl⟩

theorem hostMove_writeFreq {s : State} {i : Nat} (c : Count) (hs : s.seq ≠ .busy) (hi : i < Config.nsym) :
    hostMove (.writeFreq i c) s = .next (s.hostSetFreq i c) := by
  unfold hostMove
  exact tableAccess_next.mpr ⟨hs, hi, rfl⟩

/-! ## The obligations -/

/-- Settles O11: each register that exists answers by `State.readReg`; a write goes by the branches of `writeReg`. -/
theorem registerMapIsComplete : Obligations.RegisterMapIsComplete := by
  unfold Obligations.RegisterMapIsComplete
  refine ⟨fun s hs => ⟨?reads, fun v => hostMove_writeReg_cmd v hs, fun v => hostMove_writeReg_ctrl v hs, ?ignored,
    fun n v hn => ⟨hostMove_readReg_absent hs hn, hostMove_writeReg_absent v hs hn⟩⟩, rfl, ?words, ?counters, rfl⟩
  case reads =>
    intro nd hnd
    refine hostMove_readReg hs ?_
    revert nd
    simp [State.readReg]
  case ignored =>
    intro n v hn
    exact hostMove_writeReg_readOnly v hs (by omega) (by omega) (by omega)
  case words =>
    intro n hlo hhi
    interval_cases n <;> rfl
  case counters =>
    intro n hlo hhi
    interval_cases n <;> rfl

/-- Settles O12: the bits of STATUS by the layout of its fields. -/
theorem statusFieldsAndInterruptLevel : Obligations.StatusFieldsAndInterruptLevel := by
  unfold Obligations.StatusFieldsAndInterruptLevel
  refine ⟨fun s => ⟨?state, s.status_getLsbD 2, s.status_getLsbD 3, s.status_getLsbD 4, s.irq_iff,
    fun k hk => s.status_getLsbD_of_five_le hk, ?ignored⟩, State.status_reset⟩
  case state =>
    rw [State.status_stateField]
    cases s.seq <;> rfl
  case ignored =>
    intro hs v
    exact hostMove_writeReg_readOnly v hs (by decide) (by decide) (by decide)

/-- Settles O13: a write of CTRL stores IE, which is all that CTRL reads; CLEAR keeps IE. -/
theorem ctrlHoldsInterruptEnable : Obligations.CtrlHoldsInterruptEnable := by
  unfold Obligations.CtrlHoldsInterruptEnable
  refine ⟨fun s v hs => ?write, fun s t h => ?clear, State.ctrl_reset⟩
  case write =>
    refine ⟨{ s with ie := v.getLsbD 0 }, ?_, rfl, rfl, State.ctrl_getLsbD_zero _,
      fun k hk => State.ctrl_getLsbD_of_one_le _ hk⟩
    rw [hostMove_writeReg_ctrl v hs, State.writeCtrl_setWidth]
  case clear =>
    rw [exec_clear_next h]; rfl

/-- Settles O14: entry 256 of FREQ is no stored entry: it reads as 1 in any state, so after COUNT too. -/
theorem sentinelCountIsOne : Obligations.SentinelCountIsOne := by
  unfold Obligations.SentinelCountIsOne
  intro s
  have hi : 256 < Config.nsym := by decide
  refine ⟨freqAt_sentinel s, fun c hs => ?_, fun hs => hostMove_readFreq hs hi, fun t _ => freqAt_sentinel t⟩
  rw [hostMove_writeFreq c hs hi, State.hostSetFreq_sentinel]

end Sys2Proof.Machine
end
section
/-!
PROOFS. Bit groups (00_scope R10): `bitsN` by its bits, the value of a bit sequence, and that each undoes the other.
-/
namespace Sys2Proof.Machine

/-- The bits of `bitsN` are the low bits of the number, the highest of them first. -/
theorem bitsN_getElem? {n k : Nat} (v : Nat) (hk : k < n) : (bitsN n v)[k]? = some (v.testBit (n - 1 - k)) := by
  induction n generalizing k with
  | zero => omega
  | succ n ih =>
    cases k with
    | zero => rfl
    | succ k =>
      have hindex : n + 1 - 1 - (k + 1) = n - 1 - k := by omega
      rw [bitsN, List.getElem?_cons_succ, ih (by omega), hindex]

/-- `bitsN n` looks at the low `n` bits only. -/
theorem bitsN_congr {n v w : Nat} (h : ∀ k < n, v.testBit k = w.testBit k) : bitsN n v = bitsN n w := by
  induction n with
  | zero => rfl
  | succ n ih => rw [bitsN, bitsN, h n n.lt_succ_self, ih fun k hk => h k (Nat.lt_succ_of_lt hk)]

/-- The loop of R69 from a value `r` on: the bits shift `r` up and stand below it. -/
theorem foldl_bits (p : List Bit) (r : Nat) :
    p.foldl (fun r b => 2 * r + b.toNat) r = 2 ^ p.length * r + bitsVal p := by
  induction p generalizing r with
  | nil => simp [bitsVal]
  | cons b p ih =>
    rw [bitsVal, List.foldl_cons, List.foldl_cons, ih, ih (2 * 0 + b.toNat), List.length_cons]
    ring

theorem bitsVal_cons (b : Bit) (p : List Bit) : bitsVal (b :: p) = 2 ^ p.length * b.toNat + bitsVal p := by
  rw [bitsVal, List.foldl_cons, foldl_bits, Nat.mul_zero, Nat.zero_add]

theorem bitsVal_lt (p : List Bit) : bitsVal p < 2 ^ p.length := by
  induction p with
  | nil => decide
  | cons b p ih =>
    have hhead : 2 ^ p.length * b.toNat ≤ 2 ^ p.length * 1 := Nat.mul_le_mul_left _ (Bool.toNat_le b)
    rw [bitsVal_cons, List.length_cons, Nat.pow_succ]
    omega

/-- Writing out the value of a bit sequence gives the sequence back. -/
theorem bitsN_bitsVal (p : List Bit) : bitsN p.length (bitsVal p) = p := by
  induction p with
  | nil => rfl
  | cons b p ih =>
    have hbit (k : Nat) := Nat.testBit_two_pow_mul_add b.toNat (bitsVal_lt p) k
    have hhead : (bitsVal (b :: p)).testBit p.length = b := by
      rw [bitsVal_cons, hbit, if_neg (Nat.lt_irrefl _), Nat.sub_self]
      cases b <;> rfl
    have htail : bitsN p.length (bitsVal (b :: p)) = bitsN p.length (bitsVal p) :=
      bitsN_congr fun k hk => by rw [bitsVal_cons, hbit, if_pos hk]
    rw [List.length_cons, bitsN, hhead, htail, ih]

end Sys2Proof.Machine
end

section
/-!
PROOFS. Bits in bytes (20_memory R74): `Pack`, `Unpack` and the padding.
-/
namespace Sys2Proof.Machine

theorem padded_length_mod (q : List Bit) : (padded q).length % 8 = 0 := by
  simp only [padded, padLen, List.length_append, List.length_replicate]
  omega

theorem padded_getElem? {q : List Bit} {i : Nat} {b : Bit} (h : q[i]? = some b) : (padded q)[i]? = some b := by
  obtain ⟨hi, _⟩ := List.getElem?_eq_some_iff.mp h
  rw [padded, List.getElem?_append_left hi, h]

theorem packBytes_length (n : Nat) (q : List Bit) : (packBytes n q).length = n := by
  induction n generalizing q with
  | zero => rfl
  | succ n ih => rw [packBytes, List.length_cons, ih]

/-- Eight bits are the bits of the byte they make. -/
theorem bitsN_byte {p : List Bit} (h : p.length = 8) : bitsN 8 (BitVec.ofNat 8 (bitsVal p)).toNat = p := by
  have hlt : bitsVal p < 2 ^ 8 := h ▸ bitsVal_lt p
  rw [BitVec.toNat_ofNat, Nat.mod_eq_of_lt hlt]
  exact h ▸ bitsN_bitsVal p

theorem unpack_packBytes {n : Nat} {q : List Bit} (h : q.length = 8 * n) : unpack (packBytes n q) = q := by
  induction n generalizing q with
  | zero => exact (List.eq_nil_of_length_eq_zero h).symm
  | succ n ih =>
    have hbyte : (q.take 8).length = 8 := by rw [List.length_take]; omega
    have hrest : (q.drop 8).length = 8 * n := by rw [List.length_drop]; omega
    calc unpack (packBytes (n + 1) q)
        = bitsN 8 (BitVec.ofNat 8 (bitsVal (q.take 8))).toNat ++ unpack (packBytes n (q.drop 8)) := rfl
      _ = q.take 8 ++ q.drop 8 := by rw [bitsN_byte hbyte, ih hrest]
      _ = q := List.take_append_drop 8 q

theorem length_pack (q : List Bit) : 8 * (pack q).length = (padded q).length := by
  rw [pack, packBytes_length]
  exact Nat.mul_div_cancel' (Nat.dvd_of_mod_eq_zero (padded_length_mod q))

theorem unpack_pack (q : List Bit) : unpack (pack q) = padded q :=
  unpack_packBytes (Nat.mul_div_cancel' (Nat.dvd_of_mod_eq_zero (padded_length_mod q))).symm

/-- Bit `i` of unpacked bytes lies in byte `i / 8` at bit position `7 - i mod 8`. -/
theorem unpack_getElem? (bytes : List Byte) (i : Nat) :
    (unpack bytes)[i]? = bytes[i / 8]?.map (fun c => c.getLsbD (7 - i % 8)) := by
  induction bytes generalizing i with
  | nil => rfl
  | cons c cs ih =>
    have hcons : unpack (c :: cs) = bitsN 8 c.toNat ++ unpack cs := rfl
    have hlen : (bitsN 8 c.toNat).length = 8 := bitsN_length 8 _
    rw [hcons]
    by_cases hi : i < 8
    · rw [List.getElem?_append_left (by omega), bitsN_getElem? _ hi, Nat.div_eq_of_lt hi, Nat.mod_eq_of_lt hi]
      rfl
    · have hdiv : i / 8 = (i - 8) / 8 + 1 := by omega
      have hmod : i % 8 = (i - 8) % 8 := by omega
      rw [List.getElem?_append_right (by omega), hlen, ih, hdiv, hmod, List.getElem?_cons_succ]

/-- Settles O6: `Unpack` undoes `Pack` up to the padding, so the place of a stream bit is the place of a bit of `Unpack`. -/
theorem packCarriesBitsFirstBitHighest : Obligations.PackCarriesBitsFirstBitHighest := by
  unfold Obligations.PackCarriesBitsFirstBitHighest
  intro q
  refine ⟨rfl, length_pack q, unpack_pack q, fun i b hb => ?_⟩
  have hbit : (unpack (pack q))[i]? = some b := by rw [unpack_pack, padded_getElem? hb]
  rw [unpack_getElem?] at hbit
  exact Option.map_eq_some_iff.mp hbit

end Sys2Proof.Machine
end

section
/-!
PROOFS. The stream primitives (20_memory R66 to R72).
-/
namespace Sys2Proof.Machine

/-- One unit counted and then `n` more are `n + 1` units, wrapping as the counters do (R41). -/
theorem counter_add_one_add (c : BitVec 64) (n : Nat) : c + 1 + BitVec.ofNat 64 n = c + BitVec.ofNat 64 (n + 1) := by
  rw [BitVec.ofNat_add, BitVec.add_assoc, BitVec.add_comm 1]
  rfl

/-! ## Reads -/

/-- BIN with `n` more bits consumed and counted. -/
def State.skipBin (s : State) (n : Nat) : State :=
  { s with binPos := s.binPos + n, binCnt := s.binCnt + BitVec.ofNat 64 n }

theorem State.skipBin_zero (s : State) : s.skipBin 0 = s := by simp [State.skipBin]

theorem State.skipBin_advanceBin (s : State) (n : Nat) : s.advanceBin.skipBin n = s.skipBin (n + 1) := by
  simp only [State.skipBin, State.advanceBin, counter_add_one_add, Nat.add_assoc, Nat.add_comm 1]

theorem binRest_skipBin (s : State) (n : Nat) : (s.skipBin n).binRest = s.binRest.drop n := by
  rw [State.binRest, State.binRest, List.drop_drop]; rfl

/-- The loop of `BitsRead` where its bits are at hand. -/
theorem bitsReadFrom_value {p rest : List Bit} {s : State} (h : s.binRest = p ++ rest) (k r : Nat) :
    bitsReadFrom p.length k r s = .value (p.foldl (fun r b => 2 * r + b.toNat) r) (s.skipBin p.length) := by
  induction p generalizing s k r with
  | nil => rw [List.length_nil, State.skipBin_zero]; rfl
  | cons b p ih =>
    have hrest : s.advanceBin.binRest = p ++ rest := by rw [binRest_advanceBin, h]; rfl
    rw [List.length_cons, bitsReadFrom, bitRead_cons h, ← State.skipBin_advanceBin]
    exact ih hrest (k + 1) (2 * r + b.toNat)

/-- The loop of `BitsRead` where BIN ends before its `m` bits. -/
theorem bitsReadFrom_ended {s : State} {m : Nat} (h : s.binRest.length < m) (k r : Nat) :
    bitsReadFrom m k r s = .ended (k + s.binRest.length) (s.skipBin s.binRest.length) := by
  induction m generalizing s k r with
  | zero => omega
  | succ m ih =>
    cases hbits : s.binRest with
    | nil => rw [bitsReadFrom, bitRead_nil hbits, List.length_nil, State.skipBin_zero]; rfl
    | cons b bs =>
      have hrest : s.advanceBin.binRest = bs := by rw [binRest_advanceBin, hbits]; rfl
      have hshort : s.advanceBin.binRest.length < m := by
        rw [hbits, List.length_cons] at h; rw [hrest]; omega
      have hloop := ih hshort (k + 1) (2 * r + b.toNat)
      rw [hrest, State.skipBin_advanceBin, Nat.add_right_comm] at hloop
      rw [bitsReadFrom, bitRead_cons hbits]
      exact hloop

theorem bitsRead_value {p rest : List Bit} {s : State} (h : s.binRest = p ++ rest) :
    s.bitsRead p.length = .value (bitsVal p) (s.skipBin p.length) :=
  bitsReadFrom_value h 0 0

theorem bitsRead_ended {s : State} {n : Nat} (h : s.binRest.length < n) :
    s.bitsRead n = .ended s.binRest.length (s.skipBin s.binRest.length) := by
  rw [State.bitsRead, bitsReadFrom_ended h, Nat.zero_add]

/-! ## Writes -/

/-- Bits written one after another stand at the end of BOUT in that order, each counted. -/
theorem foldl_bitWrite (bits : List Bit) (s : State) :
    bits.foldl State.bitWrite s =
      { s with bout := s.bout ++ bits, boutCnt := s.boutCnt + BitVec.ofNat 64 bits.length } := by
  induction bits generalizing s with
  | nil => simp
  | cons b bits ih =>
    rw [List.foldl_cons, ih]
    simp only [State.bitWrite, List.append_assoc, List.singleton_append, List.length_cons, counter_add_one_add]

theorem bitsWrite_eq (s : State) (n v : Nat) :
    s.bitsWrite n v = { s with bout := s.bout ++ bitsN n v, boutCnt := s.boutCnt + BitVec.ofNat 64 n } := by
  rw [State.bitsWrite, foldl_bitWrite, bitsN_length]

/-! ## The obligations -/

/-- Settles O22: each unit read by what is left of its input; a group written bit after bit. -/
theorem streamPrimitives : Obligations.StreamPrimitives := by
  unfold Obligations.StreamPrimitives
  intro s
  refine ⟨fun x xs h => ⟨symRead_cons h, ?sinRest⟩, symRead_nil, rfl, rfl, fun b bs h => ⟨bitRead_cons h, ?binRest⟩,
    bitRead_nil, fun n v => ⟨bitsWrite_eq s n v, bitsN_length n v, fun k hk => bitsN_getElem? v hk⟩, fun b => rfl⟩
  case sinRest => rw [symRead_cons h, sinRest_advanceSin, h]; rfl
  case binRest => rw [bitRead_cons h, binRest_advanceBin, h]; rfl

/-- Settles O23: induction over the bits at hand, and over the bits still to be read where BIN ends first. -/
theorem groupReadIsMostSignificantFirst : Obligations.GroupReadIsMostSignificantFirst := by
  unfold Obligations.GroupReadIsMostSignificantFirst
  intro s n
  constructor
  · rintro p rest h rfl
    exact ⟨bitsRead_value h, bitsVal_lt p, bitsN_bitsVal p⟩
  · intro h
    refine ⟨s.skipBin s.binRest.length, bitsRead_ended h, ?_, rfl⟩
    rw [binRest_skipBin, List.drop_length]

end Sys2Proof.Machine
end

section
/-!
PROOFS. Host accesses to the tables (20_memory R62 to R64).
-/
namespace Sys2Proof.Machine

theorem tableAccess_absent {size i : Nat} (f : State → State) {s : State} (hs : s.seq ≠ .busy) (hi : size ≤ i) :
    tableAccess size i f s = .refused (.noSuchEntry i) := by
  rw [tableAccess, if_neg hs, if_neg (Nat.not_lt.mpr hi)]

theorem State.hostSetFreq_ready {s : State} (i : Nat) (c : Count) (hs : Ready s) : s.hostSetFreq i c = s.setFreq i c := by
  have hne : s.seq ≠ .error := by
    obtain h | h := hs <;> simp [h]
  exact if_neg hne

theorem State.hostSetFreq_error {s : State} (i : Nat) (c : Count) (hs : s.seq = .error) : s.hostSetFreq i c = s :=
  if_pos hs

theorem hostMove_readNode {s : State} {i : Nat} (hs : s.seq ≠ .busy) (hi : i < Config.nnode) :
    hostMove (.readNode i) s = .next { s with hostData := some (.node (s.nodeAt (BitVec.ofNat 10 i))) } := by
  unfold hostMove
  exact tableAccess_next.mpr ⟨hs, hi, rfl⟩

theorem hostMove_writeNode {s : State} {i : Nat} (r : NodeRec) (hs : s.seq ≠ .busy) (hi : i < Config.nnode) :
    hostMove (.writeNode i r) s = .next s := by
  unfold hostMove
  exact tableAccess_next.mpr ⟨hs, hi, rfl⟩

theorem hostMove_readCode {s : State} {i : Nat} (hs : s.seq ≠ .busy) (hi : i < Config.nsym) :
    hostMove (.readCode i) s = .next { s with hostData := some (.code (s.codeAt i)) } := by
  unfold hostMove
  exact tableAccess_next.mpr ⟨hs, hi, rfl⟩

theorem hostMove_writeCode {s : State} {i : Nat} (r : CodeRec) (hs : s.seq ≠ .busy) (hi : i < Config.nsym) :
    hostMove (.writeCode i r) s = .next s := by
  unfold hostMove
  exact tableAccess_next.mpr ⟨hs, hi, rfl⟩

/-- Settles O15: an access whose entry exists is its effect, any other is refused; a write of FREQ by what `setFreq` does. -/
theorem tablePortAccesses : Obligations.TablePortAccesses := by
  unfold Obligations.TablePortAccesses
  intro s hs
  refine ⟨fun i hi => ⟨hostMove_readFreq hs hi, hostMove_readCode hs hi⟩, fun i hi => hostMove_readNode hs hi, ?store,
    ⟨freqAt_sentinel s, ?sentinel⟩, ?ignoredInError, fun i r hi => hostMove_writeNode r hs hi,
    fun i r hi => hostMove_writeCode r hs hi, ?absentSymbol, ?absentNode⟩
  case store =>
    intro i c hi hready
    have hsize : i < Config.nsym := Nat.lt_succ_of_lt hi
    refine ⟨s.setFreq i c, ?_, rfl, ?_, fun j hj => ?_⟩
    · rw [hostMove_writeFreq c hs hsize, State.hostSetFreq_ready i c hready]
    · rw [freqAt_setFreq s i i c hi, if_pos rfl]
    · rw [freqAt_setFreq s i j c hi, if_neg hj]
  case sentinel =>
    intro c
    rw [hostMove_writeFreq c hs (by decide), State.hostSetFreq_sentinel]
  case ignoredInError =>
    intro i c hi herr
    rw [hostMove_writeFreq c hs hi, State.hostSetFreq_error i c herr]
  case absentSymbol =>
    intro i c r hi
    have hout : Config.nsym ≤ i := hi
    simp only [hostMove, tableAccess_absent _ hs hout, and_self]
  case absentNode =>
    intro i r hi
    have hout : Config.nnode ≤ i := hi
    simp only [hostMove, tableAccess_absent _ hs hout, and_self]

end Sys2Proof.Machine
end

section
/-!
PROOFS. The opcode map and the illegal command words (30_encoding R92, R94).
-/
namespace Sys2Proof.Machine

/-! ## The opcode map -/

/-- A row compares all eight bits of a word (R92). -/
theorem and_mask_eq_value_iff {w : Byte} {r : OpRow} (hr : r ∈ opcodeMap) : w &&& r.mask = r.value ↔ r.value = w := by
  have hmask : ∀ r ∈ opcodeMap, r.mask = BitVec.allOnes 8 := by decide
  rw [hmask r hr, BitVec.and_allOnes, eq_comm]

theorem opcodeMap_row_unique {r r' : OpRow} (hr : r ∈ opcodeMap) (hr' : r' ∈ opcodeMap) (h : r.value = r'.value) : r = r' := by
  have hnodup : (opcodeMap.map OpRow.value).Nodup := by decide
  exact List.inj_on_of_nodup_map hnodup hr hr' h

/-- The row that `decodeCommand` finds for a word. -/
theorem mem_and_value_of_find?_opcodeMap {w : Byte} {r : OpRow}
    (h : opcodeMap.find? (fun r => w &&& r.mask == r.value) = some r) : r ∈ opcodeMap ∧ r.value = w := by
  have hr : r ∈ opcodeMap := List.mem_of_find?_eq_some h
  have hmatch : (w &&& r.mask == r.value) = true := List.find?_some (p := fun r : OpRow => w &&& r.mask == r.value) h
  exact ⟨hr, (and_mask_eq_value_iff hr).mp (beq_iff_eq.mp hmatch)⟩

theorem decodeCommand_of_mem {r : OpRow} (hr : r ∈ opcodeMap) : decodeCommand r.value = .ok r.instr := by
  have hmatch : r.value &&& r.mask = r.value := (and_mask_eq_value_iff hr).mpr rfl
  unfold decodeCommand
  split
  next r' hfind =>
    obtain ⟨hr', hvalue⟩ := mem_and_value_of_find?_opcodeMap hfind
    rw [opcodeMap_row_unique hr' hr hvalue]
  next hfind => exact absurd (beq_iff_eq.mpr hmatch) (List.find?_eq_none.mp hfind r hr)

theorem decodeCommand_of_no_row {w : Byte} (h : ∀ r ∈ opcodeMap, r.value ≠ w) :
    decodeCommand w = .error (.illegalCommand w) := by
  unfold decodeCommand
  split
  next r hfind =>
    obtain ⟨hr, hvalue⟩ := mem_and_value_of_find?_opcodeMap hfind
    exact absurd hvalue (h r hr)
  next => rfl

theorem decodeCommand_eq_ok_iff {w : Byte} {i : Instr} :
    decodeCommand w = .ok i ↔ ∃ r ∈ opcodeMap, r.value = w ∧ r.instr = i := by
  constructor
  · intro h
    by_cases hrow : ∃ r ∈ opcodeMap, r.value = w
    · obtain ⟨r, hr, rfl⟩ := hrow
      exact ⟨r, hr, rfl, Except.ok.inj ((decodeCommand_of_mem hr).symm.trans h)⟩
    · rw [decodeCommand_of_no_row fun r hr hw => hrow ⟨r, hr, hw⟩] at h
      cases h
  · rintro ⟨r, hr, rfl, rfl⟩
    exact decodeCommand_of_mem hr

/-- R94: the words of the map are 0x01 to 0x0D. -/
theorem decodeCommand_illegal {w : Byte} (h : w = 0 ∨ 0x0D < w) : decodeCommand w = .error (.illegalCommand w) := by
  have hvalues : ∀ r ∈ opcodeMap, r.value ≠ 0 ∧ r.value ≤ 0x0D := by decide
  refine decodeCommand_of_no_row fun r hr hw => ?_
  obtain ⟨hpos, hle⟩ := hvalues r hr
  subst hw
  obtain hzero | hgt := h
  · exact hpos hzero
  · exact BitVec.not_lt.mpr hle hgt

/-! ## An illegal word written to CMD -/

theorem writeCmd_illegal {w : Byte} {e : DecodeError} (h : decodeCommand w = .error e) (s : State) :
    writeCmd w s = illegalCommand w s := by
  rw [writeCmd, h]

theorem seq_ne_busy_of_ready {s : State} (hs : Ready s) : s.seq ≠ .busy := by
  obtain h | h := hs <;> simp [h]

/-- R94, R95: the word is accepted and its one step raises. -/
theorem illegalCommand_ready {s : State} (w : Byte) (hs : Ready s) :
    illegalCommand w s = .next { s with cmd := w, seq := .error, err := 0x01, einfo := w.setWidth 32 } :=
  runCommand_raised (e := .illCmd) hs rfl rfl

/-! ## The obligations -/

/-- Settles O1: the table of the statement is the opcode map's words and instructions, and a word decodes by the row it is in. -/
theorem opcodeMapIsExact : Obligations.OpcodeMapIsExact := by
  unfold Obligations.OpcodeMapIsExact
  intro w i
  calc decodeCommand w = .ok i
    _ ↔ ∃ r ∈ opcodeMap, r.value = w ∧ r.instr = i := decodeCommand_eq_ok_iff
    _ ↔ ∃ r ∈ opcodeMap, (r.value, r.instr) = (w, i) := by simp only [Prod.mk.injEq]
    _ ↔ (w, i) ∈ opcodeMap.map fun r => (r.value, r.instr) := List.mem_map.symm

/-- Settles O2: an illegal word is in no row, so a write of it is `illegalCommand`; the 243 are counted over the 256 words. -/
theorem illegalWordsRaiseIllcmd : Obligations.IllegalWordsRaiseIllcmd := by
  unfold Obligations.IllegalWordsRaiseIllcmd
  refine ⟨fun w hw => ⟨decodeCommand_illegal hw, ?raises⟩, by decide +kernel⟩
  case raises =>
    rintro s hs v rfl
    rw [hostMove_writeReg_cmd v (seq_ne_busy_of_ready hs), writeCmd_illegal (decodeCommand_illegal hw), illegalCommand_ready _ hs]

end Sys2Proof.Machine
end

section
/-!
PROOFS. COUNT (40_frequency_counter R120, R123): its loop as one count after another, and the byte that no count has room for.
-/
namespace Sys2Proof.Machine

/-! ## One byte counted -/

/-- The start of COUNT: no byte counted yet. -/
def State.zeroFreq (s : State) : State := { s with freq := Vector.replicate 256 0 }

/-- A byte read from SIN and counted, where its count has room. -/
def State.countByte (s : State) (x : Byte) : State :=
  s.advanceSin.setFreq x.toNat (s.freqAt x.toNat + 1)

/-- FREQ holds how often each byte occurs among the bytes `seen`. -/
def State.Counts (s : State) (seen : List Byte) : Prop :=
  ∀ y : Byte, (s.freqAt y.toNat).toNat = seen.count y

theorem countLoop_cons (x : Byte) (xs : List Byte) (s : State) :
    countLoop (x :: xs) s =
      if s.freqAt x.toNat = BitVec.allOnes 32 then .raised .cntOvf (x.setWidth 32) s.advanceSin
      else countLoop xs (s.countByte x) := rfl

theorem State.counts_zeroFreq (s : State) : s.zeroFreq.Counts [] := by
  intro y
  have hy : y.toNat < 256 := y.isLt
  simp [State.freqAt, State.zeroFreq, hy]

/-- The full count is 2^32 - 1 occurrences (R123). -/
theorem State.Counts.freqAt_full_iff {s : State} {seen : List Byte} (h : s.Counts seen) (x : Byte) :
    s.freqAt x.toNat = BitVec.allOnes 32 ↔ seen.count x = 2 ^ 32 - 1 := by
  rw [← BitVec.toNat_inj, h x, BitVec.toNat_allOnes]

theorem State.Counts.countByte {s : State} {seen : List Byte} {x : Byte} (h : s.Counts seen)
    (hroom : seen.count x + 1 < 2 ^ 32) : (s.countByte x).Counts (seen ++ [x]) := by
  intro y
  rw [State.countByte, freqAt_setFreq _ _ _ _ x.isLt, List.count_append]
  by_cases hy : y = x
  · subst hy
    rw [if_pos rfl, BitVec.toNat_add, h y, List.count_singleton_self]
    exact Nat.mod_eq_of_lt hroom
  · have hother : y.toNat ≠ x.toNat := fun e => hy (BitVec.eq_of_toNat_eq e)
    have hcount : [x].count y = 0 := List.count_eq_zero.mpr fun hmem => hy (List.mem_singleton.mp hmem)
    rw [if_neg hother, hcount]
    exact h y

/-! ## The loop -/

/-- Counting bytes moves SIN past them and writes FREQ, nothing else. -/
theorem foldl_countByte (xs : List Byte) (s : State) :
    xs.foldl State.countByte s =
      { s with freq := (xs.foldl State.countByte s).freq, sinPos := s.sinPos + xs.length,
               sinCnt := s.sinCnt + BitVec.ofNat 64 xs.length } := by
  induction xs generalizing s with
  | nil => simp
  | cons x xs ih =>
    rw [List.foldl_cons, ih]
    simp only [State.countByte, State.setFreq, State.advanceSin, counter_add_one_add, List.length_cons, Nat.add_assoc,
      Nat.add_comm 1]

/-- Where no count overflows among `xs`, the loop counts them all and goes on after them. -/
theorem countLoop_append {xs seen : List Byte} {s : State} (h : s.Counts seen) (hroom : ∀ y : Byte, (seen ++ xs).count y < 2 ^ 32)
    (rest : List Byte) :
    countLoop (xs ++ rest) s = countLoop rest (xs.foldl State.countByte s) ∧
      (xs.foldl State.countByte s).Counts (seen ++ xs) := by
  induction xs generalizing seen s with
  | nil => exact ⟨rfl, (List.append_nil seen).symm ▸ h⟩
  | cons x xs ih =>
    have hsplit : seen ++ x :: xs = (seen ++ [x]) ++ xs := List.append_cons seen x xs
    have hx : seen.count x + 1 < 2 ^ 32 := by
      have hcount := hroom x
      rw [List.count_append, List.count_cons_self] at hcount
      omega
    have hnotFull : s.freqAt x.toNat ≠ BitVec.allOnes 32 := by
      rw [ne_eq, h.freqAt_full_iff x]
      omega
    rw [List.cons_append, countLoop_cons, if_neg hnotFull, List.foldl_cons, hsplit]
    exact ih (h.countByte hx) (hsplit ▸ hroom)

/-- R123: the byte whose count is full is consumed and raises. -/
theorem countLoop_overflow {seen : List Byte} {s : State} {x : Byte} (h : s.Counts seen) (hfull : seen.count x = 2 ^ 32 - 1)
    (xs : List Byte) : countLoop (x :: xs) s = .raised .cntOvf (x.setWidth 32) s.advanceSin := by
  rw [countLoop_cons, if_pos ((h.freqAt_full_iff x).mpr hfull)]

theorem countBody_overflow {s : State} {before after : List Byte} {x : Byte} (hsin : s.sinRest = before ++ x :: after)
    (hroom : ∀ y : Byte, before.count y < 2 ^ 32) (hfull : before.count x = 2 ^ 32 - 1) :
    countBody s = .raised .cntOvf (x.setWidth 32) (before.foldl State.countByte s.zeroFreq).advanceSin := by
  obtain ⟨hloop, hcounts⟩ := countLoop_append s.counts_zeroFreq hroom (x :: after)
  calc countBody s
    _ = countLoop (before ++ x :: after) s.zeroFreq := by rw [← hsin]; rfl
    _ = countLoop (x :: after) (before.foldl State.countByte s.zeroFreq) := hloop
    _ = .raised .cntOvf (x.setWidth 32) (before.foldl State.countByte s.zeroFreq).advanceSin :=
      countLoop_overflow hcounts hfull after

/-! ## The obligation -/

/-- Settles O32: the loop counts the bytes before `x`, whose count is then full, so that `x` raises. -/
theorem countOverflowRaises : Obligations.CountOverflowRaises := by
  unfold Obligations.CountOverflowRaises
  intro s before after x hs hsin hroom hfull
  have hbody := countBody_overflow (s := { s with cmd := 0x02, seq := .busy }) hsin hroom hfull
  refine ⟨_, runCommand_raised hs rfl hbody, ?frame, ?counts⟩
  case frame =>
    rw [foldl_countByte, BitVec.ofNat_add, ← BitVec.add_assoc]
    rfl
  case counts => exact (countLoop_append (State.counts_zeroFreq _) hroom []).2

end Sys2Proof.Machine
end

section
/-!
PROOFS. BUILD's extraction order (41_tree_builder R132): a key as one number, so that PQ's minimum is the library's `List.argmin`.
-/
namespace Sys2Proof.Machine

/-- The key (weight, index) as one number, the weight in its high part. -/
def State.key (s : State) (i : NodeIdx) : Nat := (s.nodeAt i).weight.toNat * 2 ^ 10 + i.toNat

theorem State.key_lt_key_iff (s : State) (i j : NodeIdx) :
    s.key i < s.key j ↔
      (s.nodeAt i).weight < (s.nodeAt j).weight ∨ ((s.nodeAt i).weight = (s.nodeAt j).weight ∧ i < j) := by
  have hi : i.toNat < 2 ^ 10 := i.isLt
  have hj : j.toNat < 2 ^ 10 := j.isLt
  simp only [State.key, BitVec.lt_def, ← BitVec.toNat_inj]
  omega

theorem State.keyLt_iff (s : State) (i j : NodeIdx) : s.keyLt i j = true ↔ s.key i < s.key j := by
  simp only [State.keyLt, s.key_lt_key_iff, Bool.or_eq_true, Bool.and_eq_true, decide_eq_true_iff, beq_iff_eq]

theorem State.key_injective (s : State) : Function.Injective s.key := by
  intro i j h
  have hi : i.toNat < 2 ^ 10 := i.isLt
  have hj : j.toNat < 2 ^ 10 := j.isLt
  simp only [State.key] at h
  exact BitVec.eq_of_toNat_eq (by omega)

/-- One pass of `pqMin`'s fold is one pass of `List.argmin`'s. -/
theorem State.pqMin_eq_argmin (s : State) : s.pqMin = s.pq.argmin s.key := by
  unfold State.pqMin
  cases s.pq with
  | nil => rfl
  | cons i rest =>
    refine (List.foldl_hom some fun m j => ?_).symm
    simp only [List.argAux, s.keyLt_iff, apply_ite some]

/-- Everything an extraction can come to. -/
theorem State.extractMin_eq_some_iff {s t : State} {i : NodeIdx} :
    s.extractMin = some (i, t) ↔ i ∈ s.pq.argmin s.key ∧ t = { s with pq := s.pq.erase i } := by
  unfold State.extractMin
  rw [s.pqMin_eq_argmin]
  cases s.pq.argmin s.key with
  | none => simp
  | some m =>
    constructor
    · rintro ⟨⟩; exact ⟨rfl, rfl⟩
    · rintro ⟨⟨⟩, rfl⟩; rfl

theorem State.extractMin_eq_none_iff (s : State) : s.extractMin = none ↔ s.pq = [] := by
  rw [← List.argmin_eq_none (f := s.key), ← s.pqMin_eq_argmin]
  unfold State.extractMin
  cases s.pqMin <;> simp

/-- The extraction where the least key is known. -/
theorem State.extractMin_of_least {s : State} {i : NodeIdx} (hi : i ∈ s.pq)
    (hleast : ∀ j ∈ s.pq, j ≠ i → s.key i < s.key j) :
    s.extractMin = some (i, { s with pq := s.pq.erase i }) := by
  cases hm : s.pq.argmin s.key with
  | none => rw [List.argmin_eq_none.mp hm] at hi; cases hi
  | some m =>
    obtain rfl : m = i := by
      by_contra hne
      exact absurd (hleast m (List.argmin_mem hm) hne) (Nat.not_lt.mpr (List.le_of_mem_argmin hi hm))
    exact State.extractMin_eq_some_iff.mpr ⟨hm, rfl⟩

/-- Settles O33: the extracted index is the `argmin` of an injective key, so every other index has a greater one. -/
theorem extractMinIsLeastKey : Obligations.ExtractMinIsLeastKey := by
  unfold Obligations.ExtractMinIsLeastKey
  refine ⟨State.extractMin_eq_none_iff, fun s t i h => ?_⟩
  obtain ⟨hmin, ht⟩ := State.extractMin_eq_some_iff.mp h
  refine ⟨List.argmin_mem hmin, ht, fun j hj hne => (s.key_lt_key_iff i j).mp ?_⟩
  have hle : s.key i ≤ s.key j := List.le_of_mem_argmin hj hmin
  exact Nat.lt_of_le_of_ne hle fun heq => hne (s.key_injective heq.symm)

end Sys2Proof.Machine
end

section
/-!
PROOFS. The parts of BUILD (41_tree_builder R130 to R134): what the leaf scan, the sentinel guard, the merge loop and the end write,
and what they leave.
-/
namespace Sys2Proof.Machine

/-! ## Node records under the operations BUILD uses -/

theorem nodeAt_setNode_ne (s : State) {i j : NodeIdx} (r : NodeRec) (h : j ≠ i) : (s.setNode i r).nodeAt j = s.nodeAt j := by
  have hne : i.toNat ≠ j.toNat := fun e => h (BitVec.eq_of_toNat_eq e.symm)
  simp [State.nodeAt, Vector.getElem_setIfInBounds_ne, hne]

theorem nodeIdx_ne_ofNat {j : NodeIdx} {n : Nat} (h : j.toNat < n) (hn : n < 1024) : j ≠ BitVec.ofNat 10 n := by
  rintro rfl
  rw [BitVec.toNat_ofNat, Nat.mod_eq_of_lt hn] at h
  exact Nat.lt_irrefl n h

theorem extractMin_nodeAt {s t : State} {i : NodeIdx} (h : s.extractMin = some (i, t)) (j : NodeIdx) :
    t.nodeAt j = s.nodeAt j := by
  obtain ⟨-, rfl⟩ := State.extractMin_eq_some_iff.mp h
  rfl

theorem extractMin_of_pq_singleton {s : State} {i : NodeIdx} (h : s.pq = [i]) :
    s.extractMin = some (i, { s with pq := [] }) := by
  have hmin : i ∈ s.pq.argmin s.key := by rw [h, List.argmin_singleton]; rfl
  have hpq : s.pq.erase i = [] := by rw [h, List.erase_cons_head]
  exact hpq ▸ State.extractMin_eq_some_iff.mpr ⟨hmin, rfl⟩

/-! ## The leaf scan (R131) -/

/-- The leaf of a symbol, its count as the weight. -/
def State.leafOf (s : State) (x : Nat) : NodeRec := leafRec (BitVec.ofNat 9 x) ((s.freqAt x).setWidth 41)

/-- A record written at the next free index, and the index inserted into PQ. -/
def State.addNode (s : State) (n : Nat) (r : NodeRec) : State :=
  (s.setNode (BitVec.ofNat 10 n) r).pqInsert (BitVec.ofNat 10 n)

/-- Records written on the indices from `n` on. -/
def State.addNodes (s : State) : Nat → List NodeRec → State
  | _, [] => s
  | n, r :: rs => (s.addNode n r).addNodes (n + 1) rs

theorem addNode_nodeAt_of_lt (s : State) {n : Nat} (r : NodeRec) {j : NodeIdx} (hj : j.toNat < n) (hn : n < 1024) :
    (s.addNode n r).nodeAt j = s.nodeAt j :=
  nodeAt_setNode_ne s r (nodeIdx_ne_ofNat hj hn)

theorem addNode_nodeAt_self (s : State) {n : Nat} (r : NodeRec) (hn : n < 513) :
    (s.addNode n r).nodeAt (BitVec.ofNat 10 n) = r := by
  have hidx : (BitVec.ofNat 10 n).toNat < 513 := by rw [BitVec.toNat_ofNat]; omega
  exact (nodeAt_setNode s _ _ r hidx).trans (if_pos rfl)

theorem addNodes_nodeAt_of_lt (rs : List NodeRec) (s : State) {n : Nat} {j : NodeIdx} (hj : j.toNat < n)
    (hn : n + rs.length ≤ 1024) : (s.addNodes n rs).nodeAt j = s.nodeAt j := by
  induction rs generalizing s n with
  | nil => rfl
  | cons r rs ih =>
    rw [List.length_cons] at hn
    calc (s.addNodes n (r :: rs)).nodeAt j
      _ = (s.addNode n r).nodeAt j := ih _ (by omega) (by omega)
      _ = s.nodeAt j := addNode_nodeAt_of_lt s r hj (by omega)

theorem addNodes_nodeAt {rs : List NodeRec} {s : State} {n k : Nat} {r : NodeRec} (hr : rs[k]? = some r)
    (hn : n + rs.length ≤ 513) : (s.addNodes n rs).nodeAt (BitVec.ofNat 10 (n + k)) = r := by
  induction rs generalizing s n k with
  | nil => cases hr
  | cons r' rs ih =>
    rw [List.length_cons] at hn
    cases k with
    | zero =>
      obtain rfl : r' = r := by simpa using hr
      have hidx : (BitVec.ofNat 10 n).toNat < n + 1 := by rw [BitVec.toNat_ofNat]; omega
      exact (addNodes_nodeAt_of_lt rs _ hidx (by omega)).trans (addNode_nodeAt_self s r' (by omega))
    | succ k =>
      rw [Nat.add_comm k 1, ← Nat.add_assoc]
      exact ih (by simpa using hr) (by omega)

theorem addNodes_pq_length (rs : List NodeRec) (s : State) (n : Nat) :
    (s.addNodes n rs).pq.length = s.pq.length + rs.length := by
  induction rs generalizing s n with
  | nil => rfl
  | cons r rs ih =>
    refine (ih (s.addNode n r) (n + 1)).trans ?_
    rw [State.addNode, State.pqInsert_pq, List.length_cons, List.length_cons, State.setNode_pq]
    omega

/-- The scan adds the leaves of the symbols with a count. -/
theorem buildLeaves_eq (xs : List Nat) (n : Nat) (s : State) :
    buildLeaves xs n s =
      (n + (xs.filter (fun x => decide (s.freqAt x ≠ 0))).length,
        s.addNodes n ((xs.filter (fun x => decide (s.freqAt x ≠ 0))).map s.leafOf)) := by
  induction xs generalizing n s with
  | nil => rfl
  | cons x xs ih =>
    rw [buildLeaves]
    by_cases hx : s.freqAt x = 0
    · rw [if_pos hx, ih, List.filter_cons_of_neg (by simpa using hx)]
    · rw [if_neg hx, ih, List.filter_cons_of_pos (by simpa using hx), List.length_cons, ← Nat.add_right_comm n _ 1]
      rfl

/-! ## The sentinel guard (R134) -/

theorem buildGuard_of_ne_one {n : Nat} (s : State) (h : n ≠ 1) : buildGuard n s = (n, s) := if_neg h

theorem buildGuard_one (s : State) : buildGuard 1 s = (2, s.addNode 1 (leafRec 256 0)) := rfl

/-! ## The merge loop (R133) -/

/-- The internal node over the two extracted indices. -/
def State.mergeOf (s : State) (a b : NodeIdx) : NodeRec :=
  internalRec ((s.nodeAt a).weight + (s.nodeAt b).weight) a b

/-- One pass of the loop. -/
theorem buildMerge_step {s s1 s2 : State} {a b : NodeIdx} (ha : s.extractMin = some (a, s1))
    (hb : s1.extractMin = some (b, s2)) (fuel n : Nat) :
    buildMerge (fuel + 1) n s = buildMerge fuel (n + 1) (s2.addNode n (s2.mergeOf a b)) := by
  simp only [buildMerge, ha, hb]
  rfl

/-- The loop ends where PQ holds one index. -/
theorem buildMerge_of_pq_singleton {s : State} {a : NodeIdx} (h : s.pq = [a]) (fuel n : Nat) :
    buildMerge fuel n s = (n, s) := by
  cases fuel with
  | zero => rfl
  | succ fuel =>
    have hrest : State.extractMin { s with pq := [] } = none := rfl
    simp only [buildMerge, extractMin_of_pq_singleton h, hrest]

/-- The loop writes the indices from `n` on only. -/
theorem buildMerge_nodeAt_of_lt (fuel : Nat) {n : Nat} (s : State) {j : NodeIdx} (hj : j.toNat < n) (hn : n + fuel ≤ 1024) :
    (buildMerge fuel n s).2.nodeAt j = s.nodeAt j := by
  induction fuel generalizing n s with
  | zero => rfl
  | succ fuel ih =>
    cases ha : s.extractMin with
    | none => simp only [buildMerge, ha]
    | some p =>
      obtain ⟨a, s1⟩ := p
      cases hb : s1.extractMin with
      | none => simp only [buildMerge, ha, hb]
      | some q =>
        obtain ⟨b, s2⟩ := q
        rw [buildMerge_step ha hb]
        calc (buildMerge fuel (n + 1) (s2.addNode n (s2.mergeOf a b))).2.nodeAt j
          _ = (s2.addNode n (s2.mergeOf a b)).nodeAt j := ih _ (by omega) (by omega)
          _ = s2.nodeAt j := addNode_nodeAt_of_lt s2 _ hj (by omega)
          _ = s1.nodeAt j := extractMin_nodeAt hb j
          _ = s.nodeAt j := extractMin_nodeAt ha j

/-! ## The end, and the whole command -/

theorem buildEnd_nodeAt (n : Nat) (s : State) (j : NodeIdx) : (buildEnd n s).nodeAt j = s.nodeAt j := by
  unfold buildEnd
  split
  next => rfl
  next r u hmin => exact extractMin_nodeAt hmin j

/-- The end of BUILD takes the root out of PQ. -/
theorem buildEnd_of_pq_singleton {s : State} {r : NodeIdx} (h : s.pq = [r]) (n : Nat) :
    buildEnd n s = { s with pq := [], root := r, ncount := BitVec.ofNat 10 n, treeValid := true } := by
  simp only [buildEnd, extractMin_of_pq_singleton h]

/-- After BUILD's scan: a fresh node memory and an empty PQ, with the leaves of the symbols with a count added. -/
def State.scanned (s : State) : State :=
  { s.dropTree.dropCodes with pq := [] }.addNodes 0 ((liveSyms s).map s.leafOf)

/-- After BUILD's guard, with the next free index. -/
def State.guarded (s : State) : Nat × State := buildGuard (liveSyms s).length s.scanned

/-- After BUILD's merge loop, with the next free index. -/
def State.merged (s : State) : Nat × State := buildMerge s.guarded.2.pq.length s.guarded.1 s.guarded.2

theorem buildBody_eq (s : State) : buildBody s = .ok (buildEnd s.merged.1 s.merged.2) := by
  unfold buildBody State.merged State.guarded
  dsimp only
  rw [buildLeaves_eq, Nat.zero_add]
  rfl

/-- BUILD completes in every state that takes a command. -/
theorem exec_build {s : State} (hs : Ready s) :
    exec .build s = .next { buildEnd { s with cmd := 0x03, seq := .busy }.merged.1
      { s with cmd := 0x03, seq := .busy }.merged.2 with seq := .done } :=
  (runCommand_ready hs).trans (accept_ok rfl (buildBody_eq _))

end Sys2Proof.Machine
end

section
/-!
PROOFS. What BUILD leaves in NODE: the leaves in symbol order (41_tree_builder R131), and the tree of the empty input (R134).
-/
namespace Sys2Proof.Machine

/-! ## The symbols with a count -/

/-- The sentinel's count is never zero (R31), and it is the last symbol. -/
theorem liveSyms_eq (s : State) :
    liveSyms s = (List.range 256).filter (fun x => decide (s.freqAt x ≠ 0)) ++ [256] := by
  have hsentinel : [256].filter (fun x => decide (s.freqAt x ≠ 0)) = [256] := by simp
  rw [liveSyms, Config.nsym, List.range_succ, List.filter_append, hsentinel]

theorem liveSyms_length_le (s : State) : (liveSyms s).length ≤ 257 :=
  (List.length_filter_le _ _).trans_eq List.length_range

theorem liveSyms_of_no_byte {s : State} (h : ∀ x, x < 256 → s.freqAt x = 0) : liveSyms s = [256] := by
  have hnone : (List.range 256).filter (fun x => decide (s.freqAt x ≠ 0)) = [] :=
    List.filter_eq_nil_iff.mpr fun x hx => by simp [h x (List.mem_range.mp hx)]
  rw [liveSyms_eq, hnone, List.nil_append]

/-! ## The leaves -/

theorem scanned_pq_length (s : State) : s.scanned.pq.length = (liveSyms s).length := by
  rw [State.scanned, addNodes_pq_length, List.length_map, List.length_nil, Nat.zero_add]

theorem scanned_nodeAt {s : State} {k x : Nat} (h : (liveSyms s)[k]? = some x) :
    s.scanned.nodeAt (BitVec.ofNat 10 k) = s.leafOf x := by
  have hrec : ((liveSyms s).map s.leafOf)[k]? = some (s.leafOf x) := by rw [List.getElem?_map, h]; rfl
  have hroom : 0 + ((liveSyms s).map s.leafOf).length ≤ 513 := by
    have hlen := liveSyms_length_le s
    rw [List.length_map]
    omega
  rw [← Nat.zero_add k]
  exact addNodes_nodeAt hrec hroom

/-- The guard keeps the scan's leaves, and the merge loop has room above them. -/
theorem guarded_frame_and_bounds (s : State) :
    (∀ j : NodeIdx, j.toNat < (liveSyms s).length → s.guarded.2.nodeAt j = s.scanned.nodeAt j) ∧
    (liveSyms s).length ≤ s.guarded.1 ∧ s.guarded.1 + s.guarded.2.pq.length ≤ 1024 := by
  have hpq := scanned_pq_length s
  have hlen := liveSyms_length_le s
  unfold State.guarded
  by_cases hone : (liveSyms s).length = 1
  · rw [hone, buildGuard_one]
    refine ⟨fun j hj => addNode_nodeAt_of_lt _ _ hj (by decide), one_le_two, ?_⟩
    simp only [State.addNode, State.pqInsert_pq, State.setNode_pq, List.length_cons]
    omega
  · rw [buildGuard_of_ne_one _ hone]
    exact ⟨fun _ _ => rfl, le_rfl, by dsimp only; omega⟩

theorem merged_nodeAt {s : State} {k x : Nat} (h : (liveSyms s)[k]? = some x) :
    s.merged.2.nodeAt (BitVec.ofNat 10 k) = s.leafOf x := by
  obtain ⟨hleaves, hnext, hroom⟩ := guarded_frame_and_bounds s
  have hk : (BitVec.ofNat 10 k).toNat < (liveSyms s).length := by
    obtain ⟨hlt, -⟩ := List.getElem?_eq_some_iff.mp h
    exact Nat.lt_of_le_of_lt (by rw [BitVec.toNat_ofNat]; exact Nat.mod_le _ _) hlt
  calc s.merged.2.nodeAt (BitVec.ofNat 10 k)
    _ = s.guarded.2.nodeAt (BitVec.ofNat 10 k) := buildMerge_nodeAt_of_lt _ _ (hk.trans_le hnext) hroom
    _ = s.scanned.nodeAt (BitVec.ofNat 10 k) := hleaves _ hk
    _ = s.leafOf x := scanned_nodeAt h

/-- Settles O35: the scan writes the leaves, and neither the guard nor the merge loop writes below the next free index. -/
theorem buildLeavesInSymbolOrder : Obligations.BuildLeavesInSymbolOrder := by
  unfold Obligations.BuildLeavesInSymbolOrder
  intro s t hs h
  refine ⟨fun k x hk => ?leaf, ?sentinel⟩
  case leaf =>
    rw [exec_build hs] at h
    cases h
    exact (buildEnd_nodeAt _ _ _).trans (merged_nodeAt (s := { s with cmd := 0x03, seq := .busy }) hk)
  case sentinel => rw [liveSyms_eq, List.getLast?_concat]

/-! ## No byte counted -/

/-- What the merge loop starts from: two sentinel leaves. -/
structure TwoSentinels (s : State) : Prop where
  pq : s.pq = [1, 0]
  first : s.nodeAt 0 = leafRec 256 1
  second : s.nodeAt 1 = leafRec 256 0

theorem guarded_of_sentinel_only {s : State} (h : liveSyms s = [256]) : ∃ g, s.guarded = (2, g) ∧ TwoSentinels g := by
  refine ⟨s.scanned.addNode 1 (leafRec 256 0), by rw [State.guarded, h]; rfl, ?pq, ?first,
    addNode_nodeAt_self _ _ (by decide)⟩
  case pq =>
    rw [State.scanned, h]
    rfl
  case first =>
    have hleaf : s.scanned.nodeAt 0 = s.leafOf 256 := scanned_nodeAt (k := 0) (by rw [h]; rfl)
    exact (addNode_nodeAt_of_lt _ _ (by decide) (by decide)).trans hleaf

/-- The sentinel of weight 0 has the lesser key. -/
theorem TwoSentinels.extractMin {s : State} (h : TwoSentinels s) : s.extractMin = some (1, { s with pq := [0] }) := by
  obtain ⟨hpq, hfirst, hsecond⟩ := h
  have hlt : s.key 1 < s.key 0 := (s.key_lt_key_iff 1 0).mpr (.inl (by rw [hfirst, hsecond]; decide))
  have hleast : ∀ j ∈ s.pq, j ≠ 1 → s.key 1 < s.key j := by
    simp only [hpq, List.mem_cons, List.not_mem_nil, or_false]
    rintro j (rfl | rfl) hne
    · exact absurd rfl hne
    · exact hlt
  rw [State.extractMin_of_least (by rw [hpq]; exact List.mem_cons_self) hleast, hpq]
  rfl

/-- The one merge. -/
theorem TwoSentinels.buildMerge {s : State} (h : TwoSentinels s) :
    buildMerge 2 2 s = (3, { s with pq := [] }.addNode 2 (internalRec 1 1 0)) := by
  have hlast : State.extractMin { s with pq := [0] } = some (0, { s with pq := [] }) := extractMin_of_pq_singleton rfl
  have hrec : State.mergeOf { s with pq := [] } 1 0 = internalRec 1 1 0 := by
    change internalRec ((s.nodeAt 1).weight + (s.nodeAt 0).weight) 1 0 = _
    rw [h.first, h.second]
    rfl
  rw [buildMerge_step h.extractMin hlast, hrec]
  exact buildMerge_of_pq_singleton rfl 1 3

theorem merged_of_sentinel_only {s : State} (h : liveSyms s = [256]) :
    ∃ m, s.merged = (3, m) ∧ m.pq = [2] ∧ m.nodeAt 0 = leafRec 256 1 ∧ m.nodeAt 1 = leafRec 256 0 ∧
      m.nodeAt 2 = internalRec 1 1 0 := by
  obtain ⟨g, hguarded, hg⟩ := guarded_of_sentinel_only h
  refine ⟨State.addNode { g with pq := [] } 2 (internalRec 1 1 0), ?merge, rfl, ?first, ?second,
    addNode_nodeAt_self _ _ (by decide)⟩
  case merge =>
    rw [State.merged, hguarded, hg.pq]
    exact hg.buildMerge
  case first => exact (addNode_nodeAt_of_lt _ _ (by decide) (by decide)).trans hg.first
  case second => exact (addNode_nodeAt_of_lt _ _ (by decide) (by decide)).trans hg.second

/-- A node memory with an internal root over two sentinel leaves holds the tree of R134. -/
theorem treeIs_two_sentinels {s : State} (h0 : s.nodeAt 0 = leafRec 256 1) (h1 : s.nodeAt 1 = leafRec 256 0)
    (h2 : s.nodeAt 2 = internalRec 1 1 0) (hroot : s.root = 2) (hncount : s.ncount = 3) :
    TreeIs s (.node (.leaf 256) (.leaf 256)) := by
  have hholds : holds s s.root (.node (.leaf 256) (.leaf 256)) = true := by
    simp only [holds, hroot, h2, internalRec, h1, h0, leafRec]
    decide
  have hindices : indices s s.root (.node (.leaf 256) (.leaf 256)) = [2, 1, 0] := by
    simp only [indices, hroot, h2, internalRec, List.singleton_append]
  refine ⟨hholds, ?_, by rw [hncount]; decide, rfl, by decide⟩
  rw [hindices, hncount]
  decide

/-- Settles O39: the scan makes the sentinel's leaf only, the guard the second one, and the loop merges the two. -/
theorem buildOfEmptyInput : Obligations.BuildOfEmptyInput := by
  unfold Obligations.BuildOfEmptyInput
  intro s hs hfreq
  have hlive : liveSyms { s with cmd := 0x03, seq := .busy } = [256] := liveSyms_of_no_byte hfreq
  obtain ⟨m, hmerged, hpq, h0, h1, h2⟩ := merged_of_sentinel_only hlive
  refine ⟨_, exec_build hs, ?_⟩
  rw [hmerged, buildEnd_of_pq_singleton hpq]
  exact ⟨h0, h1, h2, rfl, rfl, treeIs_two_sentinels h0 h1 h2 rfl rfl⟩

end Sys2Proof.Machine
end

section
/-!
PROOFS. The magic (43_header_codec R160, R164): the commands MAGW and MAGR.
-/
namespace Sys2Proof.Machine

/-! ## A word read back from BIN -/

/-- The number that the low `n` bits of a number denote (R10). -/
theorem bitsVal_bitsN (n v : Nat) : bitsVal (bitsN n v) = v % 2 ^ n := by
  induction n with
  | zero => rw [Nat.pow_zero, Nat.mod_one]; rfl
  | succ n ih => rw [bitsN, bitsVal_cons, bitsN_length, ih, Nat.toNat_testBit, Nat.mod_pow_succ, Nat.add_comm]

/-- A group read answers the word whose bits stand next on BIN (R69). -/
theorem bitsRead_word {n : Nat} {m : BitVec n} {rest : List Bit} {s : State} (h : s.binRest = bitsN n m.toNat ++ rest) :
    s.bitsRead n = .value m.toNat (s.skipBin n) := by
  have hread := bitsRead_value h
  rwa [bitsN_length, bitsVal_bitsN, Nat.mod_eq_of_lt m.isLt] at hread

/-! ## The steps of MAGR (R164) -/

theorem magrBody_match {s : State} {rest : List Bit} (h : s.binRest = bitsN 32 s.magic.toNat ++ rest) :
    magrBody s = .ok (s.skipBin 32) := by
  simp only [magrBody, bitsRead_word h, BitVec.ofNat_toNat, BitVec.setWidth_eq]
  exact if_pos rfl

theorem magrBody_mismatch {s : State} {m : BitVec 32} {rest : List Bit} (h : s.binRest = bitsN 32 m.toNat ++ rest)
    (hm : m ≠ s.magic) : magrBody s = .raised .fmtMagic m (s.skipBin 32) := by
  simp only [magrBody, bitsRead_word h, BitVec.ofNat_toNat, BitVec.setWidth_eq]
  exact if_neg hm

theorem magrBody_ended {s : State} (h : s.binRest.length < 32) :
    magrBody s = .raised .fmtEosMagic (BitVec.ofNat 32 s.binRest.length) (s.skipBin s.binRest.length) := by
  simp only [magrBody, bitsRead_ended h]

/-! ## The obligations -/

/-- Settles O28: the one step of MAGW is a group write. -/
theorem magwResult : Obligations.MagwResult := by
  unfold Obligations.MagwResult
  refine ⟨rfl, fun s hs => ?_⟩
  have hbody : magwBody { s with cmd := 0x09, seq := .busy } = .ok _ := congrArg Run.ok (bitsWrite_eq _ 32 s.magic.toNat)
  exact (runCommand_ready hs).trans (accept_ok rfl hbody)

/-- Settles O29: a group read of the word at hand, compared with MAGIC, or its END. -/
theorem magrResult : Obligations.MagrResult := by
  unfold Obligations.MagrResult
  refine ⟨rfl, fun s hs => ⟨fun m rest hbin => ⟨?same, ?other⟩, ?short⟩⟩
  case same =>
    rintro rfl
    exact (runCommand_ready hs).trans (accept_ok rfl (magrBody_match hbin))
  case other =>
    intro hm
    exact runCommand_raised hs rfl (magrBody_mismatch hbin hm)
  case short =>
    intro hshort
    exact runCommand_raised hs rfl (magrBody_ended hshort)

end Sys2Proof.Machine
end

section
/-!
PROOFS. The reader of a header, `rd()` (43_header_codec R166, R170): its branches, a whole tree read, and an error after the records
of an unfinished header.
-/
namespace Sys2Proof.Machine

theorem State.skipBin_skipBin (s : State) (j k : Nat) : (s.skipBin j).skipBin k = s.skipBin (j + k) := by
  simp only [State.skipBin, BitVec.ofNat_add, BitVec.add_assoc, Nat.add_assoc]

theorem binRest_advanceBin_of_cons {s : State} {b : Bit} {bits : List Bit} (h : s.binRest = b :: bits) :
    s.advanceBin.binRest = bits := by
  rw [binRest_advanceBin, h, List.tail_cons]

/-! ## The branches of `rd()`, by what stands next on BIN -/

section Branches
variable {s t u : State} {bits : List Bit} {levels n : Nat}

theorem rd_end (h : s.binRest = []) : rd (levels + 1) n s = .raised .fmtEosTree (BitVec.ofNat 32 n) s := by
  rw [rd, bitRead_nil h]

theorem rd_leaf {x : Sym} (h : s.binRest = true :: (bitsN 9 x.toNat ++ bits)) (hn : n < 513) (hx : x.toNat ≤ 256) :
    rd (levels + 1) n s = .ok (BitVec.ofNat 10 n) (n + 1) ((s.skipBin 10).setNode (BitVec.ofNat 10 n) (leafRec x 0)) := by
  have hfield : s.advanceBin.binRest = bitsN 9 x.toNat ++ bits := binRest_advanceBin_of_cons h
  have hroom : n ≠ Config.nnode := Nat.ne_of_lt hn
  have hsym : ¬ Config.eos < x.toNat := Nat.not_lt.mpr hx
  simp only [rd, bitRead_cons h, if_neg hroom, if_true, bitsRead_word hfield, if_neg hsym, State.skipBin_advanceBin,
    BitVec.ofNat_toNat, BitVec.setWidth_eq]

theorem rd_leaf_cut (h : s.binRest = true :: bits) (hn : n < 513) (hbits : bits.length < 9) :
    rd (levels + 1) n s = .raised .fmtEosTree (BitVec.ofNat 32 (n + 1)) (s.skipBin (bits.length + 1)) := by
  have hfield : s.advanceBin.binRest = bits := binRest_advanceBin_of_cons h
  have hroom : n ≠ Config.nnode := Nat.ne_of_lt hn
  simp only [rd, bitRead_cons h, if_neg hroom, if_true, bitsRead_ended (hfield ▸ hbits), hfield, State.skipBin_advanceBin]

section Internal
variable (h : s.binRest = false :: bits) (hn : n < 513)
include h hn

theorem rd_node_left_raised {e : ErrKind} {info : BitVec 32} (hleft : rd levels (n + 1) s.advanceBin = .raised e info t) :
    rd (levels + 1) n s = .raised e info t := by
  have hroom : n ≠ Config.nnode := Nat.ne_of_lt hn
  simp [rd, bitRead_cons h, hroom, hleft]

theorem rd_node_right_raised {e : ErrKind} {info : BitVec 32} {l : NodeIdx} {m : Nat}
    (hleft : rd levels (n + 1) s.advanceBin = .ok l m t) (hright : rd levels m t = .raised e info u) :
    rd (levels + 1) n s = .raised e info u := by
  have hroom : n ≠ Config.nnode := Nat.ne_of_lt hn
  simp [rd, bitRead_cons h, hroom, hleft, hright]

theorem rd_node {l r : NodeIdx} {m k : Nat} (hleft : rd levels (n + 1) s.advanceBin = .ok l m t)
    (hright : rd levels m t = .ok r k u) :
    rd (levels + 1) n s = .ok (BitVec.ofNat 10 n) k (u.setNode (BitVec.ofNat 10 n) (internalRec 0 l r)) := by
  have hroom : n ≠ Config.nnode := Nat.ne_of_lt hn
  simp [rd, bitRead_cons h, hroom, hleft, hright]

end Internal
end Branches

/-! ## A whole tree -/

/-- The node memory with a tree stored in pre-order from index `n` on, as `rd()` writes it. -/
def storeTree : Tree → Nat → State → State
  | .leaf x, n, s => s.setNode (BitVec.ofNat 10 n) (leafRec x 0)
  | .node l r, n, s =>
    (storeTree r (n + 1 + l.size) (storeTree l (n + 1) s)).setNode (BitVec.ofNat 10 n)
      (internalRec 0 (BitVec.ofNat 10 (n + 1)) (BitVec.ofNat 10 (n + 1 + l.size)))

/-- Storing a tree writes NODE only. -/
theorem storeTree_frame (t : Tree) (n : Nat) (s : State) : storeTree t n s = { s with node := (storeTree t n s).node } := by
  induction t generalizing n s with
  | leaf x => rfl
  | node l r hl hr => rw [storeTree, hr, hl]; rfl

/-- After a tree is read, BIN holds what stands behind its serialisation. -/
theorem binRest_storeTree_skipBin {t : Tree} {rest : List Bit} {s : State} (n : Nat) (h : s.binRest = t.ser ++ rest) :
    (storeTree t n (s.skipBin t.ser.length)).binRest = rest := by
  calc (storeTree t n (s.skipBin t.ser.length)).binRest
    _ = (s.skipBin t.ser.length).binRest := by rw [storeTree_frame]; rfl
    _ = rest := by rw [binRest_skipBin, h, List.drop_left]

theorem storeTree_skipBin (t : Tree) (n k : Nat) (s : State) : storeTree t n (s.skipBin k) = (storeTree t n s).skipBin k := by
  induction t generalizing n s with
  | leaf x => rfl
  | node l r hl hr => rw [storeTree, hl, hr]; rfl

/-- `rd()` on the serialisation of a tree that fits (R98, R166). -/
theorem rd_tree {t : Tree} {levels n : Nat} {s : State} {rest : List Bit} (hbin : s.binRest = t.ser ++ rest)
    (hsym : t.symsOk = true) (hsize : n + t.size ≤ 513) (hlevels : 513 ≤ levels + n) :
    rd (levels + 1) n s = .ok (BitVec.ofNat 10 n) (n + t.size) (storeTree t n (s.skipBin t.ser.length)) := by
  induction t generalizing levels n s rest with
  | leaf x =>
    have hx : x.toNat ≤ Config.eos := by simpa [Tree.symsOk, Tree.leaves] using hsym
    have hlen : (Tree.leaf x).ser.length = 10 := by rw [Tree.ser, List.length_cons, bitsN_length]
    rw [hlen, rd_leaf hbin hsize hx]
    rfl
  | node l r hl hr =>
    rw [Tree.size] at hsize
    obtain ⟨levels, rfl⟩ : ∃ k, levels = k + 1 := ⟨levels - 1, by omega⟩
    obtain ⟨hsymL, hsymR⟩ : l.symsOk = true ∧ r.symsOk = true := by
      simpa only [Tree.symsOk, Tree.leaves, List.all_append, Bool.and_eq_true] using hsym
    have hbin' : s.binRest = false :: (l.ser ++ (r.ser ++ rest)) := by
      rw [hbin, Tree.ser, List.cons_append, List.append_assoc]
    have hbinL : s.advanceBin.binRest = l.ser ++ (r.ser ++ rest) := binRest_advanceBin_of_cons hbin'
    have hleft := hl hbinL hsymL (n := n + 1) (levels := levels) (by omega) (by omega)
    have hright := hr (binRest_storeTree_skipBin (n + 1) hbinL) hsymR (n := n + 1 + l.size) (levels := levels) (by omega) (by omega)
    have hlen : (Tree.node l r).ser.length = l.ser.length + 1 + r.ser.length := by
      simp only [Tree.ser, List.length_cons, List.length_append]; omega
    have hcount : n + (Tree.node l r).size = n + 1 + l.size + r.size := by rw [Tree.size]; omega
    rw [rd_node hbin' (by omega) hleft hright, hlen, hcount, ← State.skipBin_skipBin, ← State.skipBin_advanceBin,
      ← storeTree_skipBin]
    rfl

/-! ## Records of an unfinished header -/

theorem pending_zero (rs : List HeaderRec) : pending 0 rs = 0 := by cases rs <;> rfl

theorem pending_pos_succ {k : Nat} {rs : List HeaderRec} (h : 0 < pending k rs) : 0 < pending (k + 1) rs := by
  induction rs generalizing k with
  | nil => exact Nat.succ_pos k
  | cons r rs ih =>
    cases k with
    | zero => rw [pending_zero] at h; omega
    | succ k =>
      cases r with
      | node => exact ih h
      | leaf x => exact ih h

/-- Where subtrees are still to be read, the first of them is not complete, or the records begin with it. -/
theorem first_subtree_of_pending {k : Nat} {rs : List HeaderRec} (h : 0 < pending (k + 1) rs) :
    0 < pending 1 rs ∨ ∃ (t : Tree) (qs : List HeaderRec), rs = t.recs ++ qs ∧ 0 < pending k qs := by
  match rs with
  | [] => exact .inl Nat.one_pos
  | .leaf x :: rs => exact .inr ⟨.leaf x, rs, rfl, h⟩
  | .node :: rs =>
    obtain hleft | ⟨l, qs, hl, hqs⟩ := first_subtree_of_pending (k := k + 1) h
    · exact .inl (pending_pos_succ (k := 1) hleft)
    · have hshorter : qs.length ≤ rs.length := by rw [hl, List.length_append]; exact Nat.le_add_left ..
      obtain hright | ⟨r, ps, hr, hps⟩ := first_subtree_of_pending hqs
      · have hnode : pending 1 (.node :: rs) = pending 1 qs := by rw [hl]; exact pending_recs l 1 qs
        exact .inl (hnode ▸ hright)
      · exact .inr ⟨.node l r, ps, by rw [hl, hr, Tree.recs, List.cons_append, List.append_assoc], hps⟩
termination_by rs.length

/-- With `n` nodes allocated and these bits left on BIN, `rd()` raises this error after `k` of the bits, whatever the state. As in
`rd_tree`, there is a level for each node that is not allocated. -/
def RdRaises (n : Nat) (bits : List Bit) (e : ErrKind) (info : BitVec 32) (k : Nat) : Prop :=
  ∀ (levels : Nat) (s : State), 513 ≤ levels + n → s.binRest = bits →
    ∃ node, rd (levels + 1) n s = .raised e info { s.skipBin k with node := node }

section Raises
variable {n k : Nat} {bits : List Bit} {e : ErrKind} {info : BitVec 32}

/-- An error in the left child of an internal node. -/
theorem RdRaises.left (hn : n < 513) (h : RdRaises (n + 1) bits e info k) : RdRaises n (false :: bits) e info (k + 1) := by
  intro levels s hlevels hbin
  obtain ⟨levels, rfl⟩ : ∃ m, levels = m + 1 := ⟨levels - 1, by omega⟩
  have hbinL : s.advanceBin.binRest = bits := binRest_advanceBin_of_cons hbin
  obtain ⟨node, hleft⟩ := h levels s.advanceBin (by omega) hbinL
  rw [State.skipBin_advanceBin] at hleft
  exact ⟨node, rd_node_left_raised hbin hn hleft⟩

/-- An error in the right child of an internal node. -/
theorem RdRaises.right {l : Tree} (hsym : l.symsOk = true) (hn : n + 1 + l.size ≤ 513)
    (h : RdRaises (n + 1 + l.size) bits e info k) : RdRaises n (false :: (l.ser ++ bits)) e info (l.ser.length + k + 1) := by
  intro levels s hlevels hbin
  obtain ⟨levels, rfl⟩ : ∃ m, levels = m + 1 := ⟨levels - 1, by omega⟩
  have hbinL : s.advanceBin.binRest = l.ser ++ bits := binRest_advanceBin_of_cons hbin
  have hleft := rd_tree hbinL hsym hn (levels := levels) (by omega)
  obtain ⟨node, hright⟩ := h levels _ (by omega) (binRest_storeTree_skipBin (n + 1) hbinL)
  refine ⟨node, ?_⟩
  rw [rd_node_right_raised hbin (by omega) hleft hright, storeTree_frame, State.skipBin_advanceBin,
    Nat.add_right_comm, ← State.skipBin_skipBin s (l.ser.length + 1) k]
  rfl

end Raises

/-- `rd()` reads the records of an unfinished header, and what it raises after them it raises. -/
theorem RdRaises.of_records {n k : Nat} {bits : List Bit} {e : ErrKind} {info : BitVec 32} {rs : List HeaderRec}
    (hrs : Unfinished rs) (hn : n + rs.length ≤ 513) (h : RdRaises (n + rs.length) bits e info k) :
    RdRaises n (recBits rs ++ bits) e info ((recBits rs).length + k) := by
  match rs, hrs with
  | [], _ => simpa [recBits] using h
  | .leaf x :: rs, ⟨hpending, _⟩ => rw [pending, pending_zero] at hpending; omega
  | .node :: rs, ⟨hpending, hsym⟩ =>
    have hsym : rs.all HeaderRec.symOk = true := hsym
    have hbits : recBits (.node :: rs) = false :: recBits rs := rfl
    rw [hbits, List.length_cons, List.cons_append, Nat.add_right_comm]
    rw [List.length_cons, Nat.add_comm rs.length, ← Nat.add_assoc] at hn h
    obtain hleft | ⟨l, qs, hl, hqs⟩ := first_subtree_of_pending (k := 1) hpending
    · exact .left (by omega) (.of_records ⟨hleft, hsym⟩ hn h)
    · have hlen : rs.length = l.size + qs.length := by rw [hl, List.length_append, recs_length]
      have hrec : recBits rs = l.ser ++ recBits qs := by rw [hl, recBits_append, ser_eq_recBits]
      rw [hl, List.all_append, recs_symOk, Bool.and_eq_true] at hsym
      rw [hlen, ← Nat.add_assoc] at hn h
      rw [hrec, List.append_assoc, List.length_append, Nat.add_assoc l.ser.length]
      exact .right hsym.1 (by omega) (.of_records ⟨hqs, hsym.2⟩ hn h)
termination_by rs.length

/-- BIN ends where a tag bit is missing (R171), even where the capacity is used up (R170). -/
theorem rdRaises_end (n : Nat) : RdRaises n [] .fmtEosTree (BitVec.ofNat 32 n) 0 :=
  fun _ s _ hbin => ⟨s.node, by rw [rd_end hbin, State.skipBin_zero]⟩

/-- BIN ends inside the symbol field of a leaf, whose node is allocated (R171). -/
theorem rdRaises_leaf_cut {n : Nat} {field : List Bit} (hn : n < 513) (hfield : field.length < 9) :
    RdRaises n (true :: field) .fmtEosTree (BitVec.ofNat 32 (n + 1)) (field.length + 1) :=
  fun _ s _ hbin => ⟨(s.skipBin (field.length + 1)).node, rd_leaf_cut hbin hn hfield⟩

/-! ## The obligation -/

theorem hdrrBody_raised {s t : State} {e : ErrKind} {info : BitVec 32}
    (h : rd (Config.nnode + 1) 0 s.dropTree.dropCodes = .raised e info t) : hdrrBody s = .raised e info t.dropTree := by
  rw [hdrrBody, h]

/-- What `rd()` raises from its start HDRR raises, both flags cleared (R166, R241). -/
theorem RdRaises.hdrrRaises {s : State} {e : ErrKind} {info k : Nat} (hs : Ready s)
    (h : RdRaises 0 s.binRest e (BitVec.ofNat 32 info) k) : HdrrRaises s k e.code info := by
  obtain ⟨node, hrd⟩ := h Config.nnode (State.dropCodes (State.dropTree { s with cmd := 0x06, seq := .busy })) le_rfl rfl
  exact ⟨_, runCommand_raised hs rfl (hdrrBody_raised hrd), rfl⟩

/-- Settles O47: `rd()` reads the records and meets the end of BIN at the next tag bit or inside a leaf's symbol. -/
theorem hdrrTruncatedRaises : Obligations.HdrrTruncatedRaises := by
  unfold Obligations.HdrrTruncatedRaises
  intro s rs hs hrs
  refine ⟨fun hlen hbin => RdRaises.hdrrRaises (e := .fmtEosTree) hs ?atTag,
    fun field hlen hfield hbin => RdRaises.hdrrRaises (e := .fmtEosTree) hs ?inField⟩
  case atTag =>
    have hraises := RdRaises.of_records hrs (n := 0) (by omega) (rdRaises_end _)
    rw [List.append_nil, Nat.add_zero, Nat.zero_add] at hraises
    exact hbin ▸ hraises
  case inField =>
    have hraises := RdRaises.of_records hrs (n := 0) (by omega) (rdRaises_leaf_cut (by omega) hfield)
    rw [Nat.zero_add, Nat.add_comm field.length, ← Nat.add_assoc] at hraises
    exact hbin ▸ hraises

end Sys2Proof.Machine
end

section
/-!
PROOFS. The payload decoder DEC (45_payload_decoder R190, R194): the paths a sequence of bits takes in a tree, the loop along such
paths on the tree the block holds, and its two ends.
-/
namespace Sys2Proof.Machine

/-! ## Paths in a tree -/

theorem leaves_subset_of_reach {t v : Tree} {p : List Bit} (h : t.reach p = some v) : v.leaves ⊆ t.leaves := by
  induction t generalizing p with
  | leaf x =>
    cases p with
    | nil => cases h; exact List.Subset.refl _
    | cons b p => cases h
  | node l r hl hr =>
    match p, h with
    | [], h => cases h; exact List.Subset.refl _
    | false :: p, h => exact List.Subset.trans (hl h) (List.subset_append_left ..)
    | true :: p, h => exact List.Subset.trans (hr h) (List.subset_append_right ..)

theorem sym_le_of_reach_leaf {t : Tree} {p : List Bit} {x : Sym} (hsym : t.symsOk = true) (h : t.reach p = some (.leaf x)) :
    x.toNat ≤ 256 :=
  of_decide_eq_true (List.all_eq_true.mp hsym x (leaves_subset_of_reach h (List.mem_singleton_self x)))

theorem path_ne_nil_of_reach_leaf {t : Tree} {p : List Bit} {x : Sym} (hnode : t.isNode = true)
    (h : t.reach p = some (.leaf x)) : p ≠ [] := by
  rintro rfl
  cases h
  cases hnode

/-- Bits read from the root of a tree on end at an internal node, or begin with the path of a leaf. -/
theorem reach_node_or_leaf (t : Tree) (bits : List Bit) :
    (∃ v, t.reach bits = some v ∧ v.isNode = true) ∨ ∃ p rest x, bits = p ++ rest ∧ t.reach p = some (.leaf x) := by
  induction t generalizing bits with
  | leaf x => exact .inr ⟨[], bits, x, rfl, rfl⟩
  | node l r hl hr =>
    cases bits with
    | nil => exact .inl ⟨.node l r, rfl, rfl⟩
    | cons b bits =>
      have hchild : (∃ v, (if b then r else l).reach bits = some v ∧ v.isNode = true) ∨
          ∃ p rest x, bits = p ++ rest ∧ (if b then r else l).reach p = some (.leaf x) := by
        cases b with
        | false => exact hl bits
        | true => exact hr bits
      obtain ⟨v, hv⟩ | ⟨p, rest, x, rfl, hx⟩ := hchild
      · exact .inl ⟨v, hv⟩
      · exact .inr ⟨b :: p, rest, x, rfl, hx⟩

/-- The path of a leaf of a byte, with its symbol. -/
def IsByteWalk (t : Tree) (w : List Bit × Sym) : Prop := t.reach w.1 = some (.leaf w.2) ∧ w.2.toNat < 256

/-- Any bits are paths of leaves of bytes, then the path of a sentinel leaf and a rest, or a path that stops at an internal node. -/
theorem exists_byteWalks {t : Tree} (hnode : t.isNode = true) (hsym : t.symsOk = true) (bits : List Bit) :
    ∃ (walks : List (List Bit × Sym)) (path rest : List Bit) (v : Tree), bits = walks.flatMap Prod.fst ++ path ++ rest ∧
      (∀ w ∈ walks, IsByteWalk t w) ∧ t.reach path = some v ∧ (v = .leaf 256 ∨ v.isNode = true ∧ rest = []) := by
  obtain ⟨v, hv, hvnode⟩ | ⟨p, bits', x, hcut, hx⟩ := reach_node_or_leaf t bits
  · exact ⟨[], bits, [], v, (List.append_nil _).symm, by simp, hv, .inr ⟨hvnode, rfl⟩⟩
  · by_cases heos : x = 256
    · exact ⟨[], p, bits', .leaf x, hcut, by simp, hx, .inl (congrArg Tree.leaf heos)⟩
    · have hpath : 0 < p.length := List.length_pos_of_ne_nil (path_ne_nil_of_reach_leaf hnode hx)
      have hshorter : bits'.length < bits.length := by rw [hcut, List.length_append]; omega
      have hbyte : x.toNat < 256 :=
        Nat.lt_of_le_of_ne (sym_le_of_reach_leaf hsym hx) fun h => heos (BitVec.eq_of_toNat_eq h)
      obtain ⟨walks, path, rest, v, hbits, hwalks, hend⟩ := exists_byteWalks hnode hsym bits'
      refine ⟨(p, x) :: walks, path, rest, v, ?_, List.forall_mem_cons.mpr ⟨⟨hx, hbyte⟩, hwalks⟩, hend⟩
      rw [hcut, hbits, List.flatMap_cons, List.append_assoc p, List.append_assoc p]
termination_by bits.length

/-! ## The node memory under a tree -/

/-- Which tree stands at an index depends on NODE alone. -/
theorem holds_of_node_eq {s u : State} {i : NodeIdx} {t : Tree} (h : holds s i t = true) (hsame : u.node = s.node) :
    holds u i t = true := by
  have hat : u.nodeAt = s.nodeAt := by funext j; simp only [State.nodeAt, hsame]
  induction t generalizing i with
  | leaf x => rwa [holds, hat]
  | node l r hl hr =>
    simp only [holds, Bool.and_eq_true] at h ⊢
    obtain ⟨hinternal, hleft, hright⟩ := h
    rw [hat]
    exact ⟨hinternal, hl hleft, hr hright⟩

section Holds
variable {s : State} {i : NodeIdx} {l r : Tree}

theorem holds_leaf_iff {x : Sym} : holds s i (.leaf x) = true ↔ (s.nodeAt i).leaf = true ∧ (s.nodeAt i).sym = x := by
  rw [holds, Bool.and_eq_true, beq_iff_eq]

theorem leaf_false_of_holds_node (h : holds s i (.node l r) = true) : (s.nodeAt i).leaf = false := by
  rw [holds, Bool.and_eq_true, Bool.not_eq_true'] at h
  exact h.1

theorem holds_child (h : holds s i (.node l r) = true) (b : Bit) :
    holds s (if b then (s.nodeAt i).right else (s.nodeAt i).left) (if b then r else l) = true := by
  rw [holds, Bool.and_eq_true, Bool.and_eq_true] at h
  obtain ⟨-, hl, hr⟩ := h
  cases b with
  | false => exact hl
  | true => exact hr

end Holds

/-! ## The loop along a path -/

/-- How DEC's loop goes on where CUR has come to the root of a subtree (R190): it ends at a sentinel leaf, writes the byte of
another leaf and returns to ROOT, and reads on at an internal node. -/
def decArrive : Tree → List Bit → State → Run
  | .leaf x, bits, s => if x = 256 then .ok s else decLoop bits ((s.symWrite (x.setWidth 8)).setCur s.root)
  | .node _ _, bits, s => decLoop bits s

/-- One bit read moves CUR to a child, and the loop goes on there. -/
theorem decLoop_cons {s : State} {v : Tree} {b : Bit} (bits : List Bit)
    (h : holds s (s.advanceBin.stepCur b).cur v = true) :
    decLoop (b :: bits) s = decArrive v bits (s.advanceBin.stepCur b) := by
  have h : holds (s.advanceBin.stepCur b) (s.advanceBin.stepCur b).cur v = true := holds_of_node_eq h rfl
  cases v with
  | leaf x =>
    obtain ⟨hleaf, rfl⟩ := holds_leaf_iff.mp h
    simp only [decLoop, hleaf, if_true, decArrive]
  | node l r => simp only [decLoop, leaf_false_of_holds_node h, decArrive, Bool.false_eq_true, if_false]

/-- Along a path from an internal node on, DEC's loop moves CUR and consumes the bits. -/
theorem decLoop_path {s : State} {t v : Tree} {p : List Bit} (bits : List Bit) (hholds : holds s s.cur t = true)
    (hnode : t.isNode = true) (hv : t.reach p = some v) :
    ∃ i, holds s i v = true ∧ decLoop (p ++ bits) s = decArrive v bits ((s.skipBin p.length).setCur i) := by
  induction p generalizing s t with
  | nil =>
    obtain rfl : t = v := Option.some.inj hv
    cases t with
    | leaf x => cases hnode
    | node l r => exact ⟨s.cur, hholds, by rw [List.length_nil, State.skipBin_zero]; rfl⟩
  | cons b p ih =>
    cases t with
    | leaf x => cases hnode
    | node l r =>
      rw [Tree.reach] at hv
      have hchild := holds_child hholds b
      have hstep := decLoop_cons (s := s) (p ++ bits) hchild
      generalize (if b then r else l) = c at hv hchild hstep
      cases c with
      | leaf x =>
        cases p with
        | nil => cases hv; exact ⟨_, hchild, hstep⟩
        | cons b' p => cases hv
      | node l' r' =>
        obtain ⟨i, hi, hloop⟩ := ih (s := s.advanceBin.stepCur b) (holds_of_node_eq hchild rfl) rfl hv
        refine ⟨i, holds_of_node_eq hi rfl, hstep.trans (hloop.trans ?_)⟩
        rw [List.length_cons, ← State.skipBin_advanceBin]
        rfl

/-! ## The loop along the paths of bytes -/

/-- After DEC has read the paths of bytes and then one more path, which ended at index `i`. -/
def State.decoded (s : State) (walks : List (List Bit × Sym)) (path : List Bit) (i : NodeIdx) : State :=
  { s with
    cur := i, binPos := s.binPos + (walks.flatMap Prod.fst ++ path).length,
    binCnt := s.binCnt + BitVec.ofNat 64 (walks.flatMap Prod.fst ++ path).length,
    sout := s.sout ++ walks.map (fun w => w.2.setWidth 8), soutCnt := s.soutCnt + BitVec.ofNat 64 walks.length }

theorem State.decoded_nil (s : State) (i : NodeIdx) : s.decoded [] [] i = s.setCur i := by
  simp [State.decoded, State.setCur]

theorem State.decoded_skipBin (s : State) (walks : List (List Bit × Sym)) (path : List Bit) (i j : NodeIdx) :
    ((s.decoded walks [] i).skipBin path.length).setCur j = s.decoded walks path j := by
  simp [State.decoded, State.skipBin, State.setCur, BitVec.ofNat_add, BitVec.add_assoc, Nat.add_assoc]

/-- The byte of one more path. -/
theorem State.decoded_snoc (s : State) (walks : List (List Bit × Sym)) (w : List Bit × Sym) (i j : NodeIdx) :
    ((s.decoded walks w.1 i).symWrite (w.2.setWidth 8)).setCur j = s.decoded (walks ++ [w]) [] j := by
  simp [State.decoded, State.symWrite, State.setCur, BitVec.ofNat_add, BitVec.add_assoc]

section Loop
variable {s : State} {t : Tree} {walks : List (List Bit × Sym)} (hholds : holds s s.root t = true) (hnode : t.isNode = true)
include hholds hnode

/-- From ROOT on, after the paths of bytes, DEC's loop follows one more path. -/
theorem decLoop_decoded_path {v : Tree} {path : List Bit} (bits : List Bit) (hv : t.reach path = some v) :
    ∃ i, holds s i v = true ∧
      decLoop (path ++ bits) (s.decoded walks [] s.root) = decArrive v bits (s.decoded walks path i) := by
  have hroot : holds (s.decoded walks [] s.root) s.root t = true := holds_of_node_eq hholds rfl
  obtain ⟨i, hi, hloop⟩ := decLoop_path bits hroot hnode hv
  exact ⟨i, holds_of_node_eq hi rfl, by rw [hloop, State.decoded_skipBin]⟩

/-- Along the paths of leaves of bytes, DEC's loop writes the byte of each. -/
theorem decLoop_byteWalks (bits : List Bit) (hwalks : ∀ w ∈ walks, IsByteWalk t w) :
    decLoop (walks.flatMap Prod.fst ++ bits) (s.setCur s.root) = decLoop bits (s.decoded walks [] s.root) := by
  induction walks using List.reverseRecOn generalizing bits with
  | nil => rw [State.decoded_nil]; rfl
  | append_singleton walks w ih =>
    rw [List.forall_mem_append, List.forall_mem_singleton] at hwalks
    obtain ⟨hbefore, hw, hbyte⟩ := hwalks
    have hsym : w.2 ≠ 256 := by intro h; rw [h] at hbyte; exact absurd hbyte (by decide)
    obtain ⟨i, -, hloop⟩ := decLoop_decoded_path hholds hnode (walks := walks) bits hw
    rw [List.flatMap_append, List.flatMap_singleton, List.append_assoc, ih _ hbefore, hloop, decArrive, if_neg hsym,
      State.decoded_snoc]
    rfl

/-- The steps of DEC where BIN holds the paths of bytes and one more path. -/
theorem decBody_eq_decArrive {v : Tree} {path rest : List Bit} (hwalks : ∀ w ∈ walks, IsByteWalk t w)
    (hpath : t.reach path = some v) (hbits : s.binRest = walks.flatMap Prod.fst ++ path ++ rest) :
    ∃ i, holds s i v = true ∧ decBody s = decArrive v rest (s.decoded walks path i) := by
  obtain ⟨i, hi, hloop⟩ := decLoop_decoded_path hholds hnode (walks := walks) rest hpath
  exact ⟨i, hi, by rw [decBody, hbits, List.append_assoc, decLoop_byteWalks hholds hnode _ hwalks, hloop]⟩

end Loop

/-! ## The command on the tree the block holds -/

section Command
variable {s : State} {t : Tree} {walks : List (List Bit × Sym)} {path : List Bit} (hs : Ready s) (hvalid : s.treeValid = true)
  (ht : TreeIs s t) (hwalks : ∀ w ∈ walks, IsByteWalk t w)
include hs hvalid ht hwalks

/-- DEC ends in DONE at a sentinel leaf. -/
theorem exec_dec_done {rest : List Bit} (hbits : s.binRest = walks.flatMap Prod.fst ++ path ++ rest)
    (hpath : t.reach path = some (.leaf 256)) :
    ∃ i, holds s i (.leaf 256) = true ∧ exec .dec s = .next { s.decoded walks path i with cmd := 0x08, seq := .done } := by
  obtain ⟨hholds, -, -, hnode, -⟩ := ht
  obtain ⟨i, hi, hbody⟩ := decBody_eq_decArrive (s := { s with cmd := 0x08, seq := .busy }) (holds_of_node_eq hholds rfl)
    hnode hwalks hpath hbits
  rw [decArrive, if_pos rfl] at hbody
  exact ⟨i, holds_of_node_eq hi rfl, (runCommand_ready hs).trans ((accept_ok hvalid hbody).trans rfl)⟩

/-- DEC raises E_FMT_EOS_PAYLOAD with CUR where BIN ends at an internal node. -/
theorem exec_dec_raised {v : Tree} (hbits : s.binRest = walks.flatMap Prod.fst ++ path) (hpath : t.reach path = some v)
    (hv : v.isNode = true) :
    ∃ i, holds s i v = true ∧ exec .dec s = .next { s.decoded walks path i with
      cmd := 0x08, seq := .error, err := 0x13, einfo := i.setWidth 32 } := by
  obtain ⟨hholds, -, -, hnode, -⟩ := ht
  obtain ⟨i, hi, hbody⟩ := decBody_eq_decArrive (s := { s with cmd := 0x08, seq := .busy }) (holds_of_node_eq hholds rfl)
    hnode hwalks hpath (hbits.trans (List.append_nil _).symm)
  cases v with
  | leaf x => cases hv
  | node l r =>
    rw [decArrive, decLoop] at hbody
    exact ⟨i, holds_of_node_eq hi rfl, runCommand_raised hs hvalid hbody⟩

end Command

/-! ## The obligation -/

/-- Settles O53: any bits are paths of bytes and a last path, and DEC's loop follows them to one of its two ends. -/
theorem decAlwaysEnds : Obligations.DecAlwaysEnds := by
  unfold Obligations.DecAlwaysEnds
  intro s t hs hvalid ht
  have ⟨_, _, _, hnode, hsym⟩ := ht
  obtain ⟨walks, path, rest, v, hbits, hwalks, hpath, rfl | ⟨hv, rfl⟩⟩ := exists_byteWalks hnode hsym s.binRest
  · obtain ⟨i, hi, hexec⟩ := exec_dec_done hs hvalid ht hwalks hbits hpath
    have hmem : (256 : Sym) ∈ t.leaves := leaves_subset_of_reach hpath (List.mem_singleton_self _)
    exact ⟨_, walks, path, rest, _, hexec, hbits, hwalks, hpath, holds_of_node_eq hi rfl, rfl,
      .inl ⟨rfl, rfl, rfl, rfl⟩, fun hno => absurd hmem hno⟩
  · obtain ⟨i, hi, hexec⟩ := exec_dec_raised hs hvalid ht hwalks (hbits.trans (List.append_nil _)) hpath hv
    exact ⟨_, walks, path, [], v, hexec, hbits, hwalks, hpath, holds_of_node_eq hi rfl, rfl,
      .inr ⟨hv, rfl, rfl, rfl, rfl⟩, fun _ => rfl⟩

end Sys2Proof.Machine
end

section
/-!
PROOFS. CLEAR and REWIND (46_orchestration R200, R202).
-/
namespace Sys2Proof.Machine

theorem irq_of_idle {s : State} (h : s.seq = .idle) : s.irq = false := by
  rw [State.irq, h]
  exact Bool.and_false s.ie

/-- Settles O26: CLEAR's one step is `clearBlock`, and no interrupt is raised in IDLE. -/
theorem clearResult : Obligations.ClearResult := by
  unfold Obligations.ClearResult
  exact ⟨rfl, fun s hs => ⟨_, exec_clear hs, irq_of_idle rfl, rfl⟩⟩

/-- Settles O27: REWIND's one step is `symRewind`. -/
theorem rewindResult : Obligations.RewindResult := by
  unfold Obligations.RewindResult
  have hbody (t : State) : rewindBody t = .ok t.symRewind := rfl
  exact ⟨rfl, fun s hs => (runCommand_ready hs).trans (accept_ok rfl (hbody _))⟩

end Sys2Proof.Machine
end

section
/-!
PROOFS. A tree written to BOUT by HDRW (43_header_codec R162), and a tree read from BIN by HDRR into the node memory (R166).
-/
namespace Sys2Proof.Machine

/-! ## Writing -/

theorem emit_leaf {s : State} {i : NodeIdx} {x : Sym} (h : holds s i (.leaf x) = true) (levels : Nat) :
    emit (levels + 1) i s = .ok ((Tree.leaf x).ser.foldl State.bitWrite s) := by
  obtain ⟨hleaf, rfl⟩ := holds_leaf_iff.mp h
  simp only [emit, hleaf, if_true, Tree.ser, List.foldl_cons, State.bitsWrite]

theorem emit_node {s : State} {i : NodeIdx} (h : (s.nodeAt i).leaf = false) (levels : Nat) :
    emit (levels + 1) i s =
      (emit levels (s.nodeAt i).left (s.bitWrite false)).andThen (emit levels (s.nodeAt i).right) := by
  rw [emit, if_neg (by simp [h])]

/-- What BOUT is written does not touch the tree. -/
theorem holds_foldl_bitWrite {s : State} {i : NodeIdx} {t : Tree} (h : holds s i t = true) (bits : List Bit) :
    holds (bits.foldl State.bitWrite s) i t = true :=
  holds_of_node_eq h (by rw [foldl_bitWrite])

/-- `emit(i)` writes the serialisation of the tree at `i` (R98, R162). -/
theorem emit_tree {s : State} {i : NodeIdx} {t : Tree} {levels : Nat} (h : holds s i t = true) (hlevels : t.depth < levels) :
    emit levels i s = .ok (t.ser.foldl State.bitWrite s) := by
  induction t generalizing s i levels with
  | leaf x =>
    obtain ⟨levels, rfl⟩ : ∃ k, levels = k + 1 := ⟨levels - 1, by omega⟩
    exact emit_leaf h levels
  | node l r hl hr =>
    rw [Tree.depth] at hlevels
    obtain ⟨levels, rfl⟩ : ∃ k, levels = k + 1 := ⟨levels - 1, by omega⟩
    have hleft := hl (holds_foldl_bitWrite (holds_child h false) [false]) (levels := levels) (by omega)
    have hright := hr (holds_foldl_bitWrite (holds_child h true) (false :: l.ser)) (levels := levels) (by omega)
    rw [emit_node (leaf_false_of_holds_node h)]
    calc (emit levels (s.nodeAt i).left (s.bitWrite false)).andThen (emit levels (s.nodeAt i).right)
      _ = emit levels (s.nodeAt i).right ((false :: l.ser).foldl State.bitWrite s) :=
        congrArg (fun run : Run => run.andThen (emit levels (s.nodeAt i).right)) hleft
      _ = .ok (r.ser.foldl State.bitWrite ((false :: l.ser).foldl State.bitWrite s)) := hright
      _ = .ok ((Tree.node l r).ser.foldl State.bitWrite s) := by rw [← List.foldl_append]; rfl

/-- The steps of HDRW on the tree at ROOT. -/
theorem hdrwBody_tree {s : State} {t : Tree} (h : holds s s.root t = true) (hdepth : t.depth ≤ 256) :
    hdrwBody s = .ok (t.ser.foldl State.bitWrite s) :=
  emit_tree h (Nat.lt_succ_of_le hdepth)

/-! ## Reading -/

theorem nodeAt_setNode_self (s : State) {n : Nat} (r : NodeRec) (hn : n < 513) :
    (s.setNode (BitVec.ofNat 10 n) r).nodeAt (BitVec.ofNat 10 n) = r :=
  addNode_nodeAt_self s r hn

theorem nodeAt_setNode_ofNat_ne (s : State) {n k : Nat} (r : NodeRec) (hn : n < 513) (hk : k < 513) (h : k ≠ n) :
    (s.setNode (BitVec.ofNat 10 n) r).nodeAt (BitVec.ofNat 10 k) = s.nodeAt (BitVec.ofNat 10 k) := by
  refine nodeAt_setNode_ne s r fun e => h ?_
  have hidx := congrArg BitVec.toNat e
  rw [BitVec.toNat_ofNat, BitVec.toNat_ofNat] at hidx
  omega

/-- A tree stored from index `n` on leaves the entries below `n`. -/
theorem nodeAt_storeTree_of_lt (t : Tree) {n k : Nat} (s : State) (hn : n + t.size ≤ 513) (hk : k < n) :
    (storeTree t n s).nodeAt (BitVec.ofNat 10 k) = s.nodeAt (BitVec.ofNat 10 k) := by
  induction t generalizing n s with
  | leaf x =>
    rw [Tree.size] at hn
    exact nodeAt_setNode_ofNat_ne s _ (by omega) (by omega) (by omega)
  | node l r hl hr =>
    rw [Tree.size] at hn
    rw [storeTree, nodeAt_setNode_ofNat_ne _ _ (by omega) (by omega) (by omega), hr _ (by omega) (by omega),
      hl _ (by omega) (by omega)]

/-- A node memory that agrees with a stored tree on the entries it occupies holds the tree. -/
theorem holds_of_agrees_storeTree {t : Tree} {n : Nat} {s u : State} (hn : n + t.size ≤ 513)
    (h : ∀ k, n ≤ k → k < n + t.size → u.nodeAt (BitVec.ofNat 10 k) = (storeTree t n s).nodeAt (BitVec.ofNat 10 k)) :
    holds u (BitVec.ofNat 10 n) t = true := by
  induction t generalizing n s with
  | leaf x =>
    rw [Tree.size] at hn h
    have hrec : u.nodeAt (BitVec.ofNat 10 n) = leafRec x 0 :=
      (h n le_rfl (by omega)).trans (nodeAt_setNode_self s _ hn)
    exact holds_leaf_iff.mpr (by rw [hrec]; exact ⟨rfl, rfl⟩)
  | node l r hl hr =>
    rw [Tree.size] at hn h
    have hrec : u.nodeAt (BitVec.ofNat 10 n) =
        internalRec 0 (BitVec.ofNat 10 (n + 1)) (BitVec.ofNat 10 (n + 1 + l.size)) :=
      (h n le_rfl (by omega)).trans (nodeAt_setNode_self _ _ (by omega))
    have habove : ∀ k, n < k → k < n + (l.size + r.size + 1) → u.nodeAt (BitVec.ofNat 10 k) =
        (storeTree r (n + 1 + l.size) (storeTree l (n + 1) s)).nodeAt (BitVec.ofNat 10 k) := fun k hlow hhigh =>
      (h k hlow.le hhigh).trans (nodeAt_setNode_ofNat_ne _ _ (by omega) (by omega) (by omega))
    have hleft : holds u (BitVec.ofNat 10 (n + 1)) l = true := hl (s := s) (by omega) fun k hlow hhigh =>
      (habove k (by omega) (by omega)).trans (nodeAt_storeTree_of_lt r _ (by omega) (by omega))
    have hright : holds u (BitVec.ofNat 10 (n + 1 + l.size)) r = true := hr (by omega) fun k hlow hhigh =>
      habove k (by omega) (by omega)
    rw [holds, hrec]
    simp only [internalRec, hleft, hright, Bool.not_false, Bool.and_self]

theorem holds_storeTree {t : Tree} {n : Nat} (s : State) (hn : n + t.size ≤ 513) :
    holds (storeTree t n s) (BitVec.ofNat 10 n) t = true :=
  holds_of_agrees_storeTree (s := s) hn fun _ _ _ => rfl

/-- After HDRR has read a tree: BIN behind its serialisation, the tree stored from index 0 on, no codes. -/
def State.headerRead (s : State) (t : Tree) : State :=
  { storeTree t 0 (s.dropTree.dropCodes.skipBin t.ser.length) with
    root := 0, ncount := BitVec.ofNat 10 t.size, treeValid := true }

section HeaderRead
variable {s : State} {t : Tree}

theorem holds_headerRead (hsize : t.size ≤ 513) : holds (s.headerRead t) (s.headerRead t).root t = true :=
  holds_of_node_eq (holds_storeTree (n := 0) _ (by omega)) rfl

/-- HDRR's frame. -/
theorem headerRead_frame (s : State) (t : Tree) :
    s.headerRead t = { s.skipBin t.ser.length with
      treeValid := true, codeValid := false, root := 0, ncount := BitVec.ofNat 10 t.size,
      node := (s.headerRead t).node, code := (s.headerRead t).code, freeCtr := s.freeCtr + 2 } := by
  rw [State.headerRead, storeTree_frame]
  rfl

theorem binRest_headerRead {rest : List Bit} (h : s.binRest = t.ser ++ rest) : (s.headerRead t).binRest = rest :=
  binRest_storeTree_skipBin 0 (s := s.dropTree.dropCodes) h

/-- The steps of HDRR on the serialisation of a tree (R166). -/
theorem hdrrBody_tree {rest : List Bit} (hbin : s.binRest = t.ser ++ rest) (hnode : t.isNode = true) (hsym : t.symsOk = true)
    (hsize : t.size ≤ 513) : hdrrBody s = .ok (s.headerRead t) := by
  have hrd := rd_tree (n := 0) (levels := Config.nnode) (s := s.dropTree.dropCodes) hbin hsym (by omega) le_rfl
  have hholds := holds_storeTree (n := 0) (s.dropTree.dropCodes.skipBin t.ser.length) (t := t) (by omega)
  cases t with
  | leaf x => cases hnode
  | node l r =>
    simp only [hdrrBody, hrd, leaf_false_of_holds_node hholds, Bool.false_eq_true, if_false, Nat.zero_add]
    rfl

end HeaderRead

end Sys2Proof.Machine
end

section
/-!
PROOFS. The container of no bytes (46_orchestration R217): what COMPRESS's steps make of an empty SIN, and DECOMPRESS on a container.
-/
namespace Sys2Proof.Machine

/-! ## The steps of COMPRESS on an empty SIN -/

/-- The tree of the empty input (R134). -/
def emptyInputTree : Tree := .node (.leaf 256) (.leaf 256)

/-- The bits R217 writes out. -/
theorem container_emptyInput (m : BitVec 32) :
    container m emptyInputTree [true] =
      bitsN 32 m.toNat ++ [false] ++ (true :: bitsN 9 256) ++ (true :: bitsN 9 256) ++ [true] := by
  simp [container, emptyInputTree, Tree.ser]

theorem countBody_nil {s : State} (h : s.sinRest = []) : countBody s = .ok s.zeroFreq := by
  rw [countBody, h]
  rfl

/-- BUILD's scan, guard and merge loop write NODE and PQ only, once the tree and the codes are dropped. -/
theorem merged_frame (s : State) : maskTree s.merged.2 = maskTree s.dropTree.dropCodes := by
  have hscan := buildLeaves_frame (List.range Config.nsym) 0 { s.dropTree.dropCodes with pq := [] }
  rw [buildLeaves_eq] at hscan
  exact (buildMerge_frame ..).trans ((buildGuard_frame ..).trans hscan)

/-- States equal but for NODE and PQ. -/
theorem eq_of_maskTree {s t : State} (h : maskTree t = maskTree s) : t = { s with node := t.node, pq := t.pq } := by
  have hrestored := congrArg (fun u : State => { u with node := t.node, pq := t.pq }) h
  simpa only [maskTree] using hrestored

/-- BUILD with no byte counted makes the tree of R134 and leaves MAGIC and the streams (R130). -/
theorem buildBody_of_no_byte {s : State} (h : ∀ x, x < 256 → s.freqAt x = 0) :
    ∃ u, buildBody s = .ok u ∧ holds u u.root emptyInputTree = true ∧
      u = { s with treeValid := true, codeValid := false, node := u.node, code := u.code, pq := [], root := 2, ncount := 3,
                   freeCtr := u.freeCtr } := by
  obtain ⟨m, hmerged, hpq, h0, h1, h2⟩ := merged_of_sentinel_only (liveSyms_of_no_byte h)
  have hbody : buildBody s = .ok { m with pq := [], root := 2, ncount := 3, treeValid := true } := by
    rw [buildBody_eq, hmerged, buildEnd_of_pq_singleton hpq]
    rfl
  have hm : m = { s.dropTree.dropCodes with node := m.node, pq := m.pq } :=
    eq_of_maskTree (by rw [← merged_frame, hmerged])
  obtain ⟨hholds, -⟩ := treeIs_two_sentinels (s := { m with pq := [], root := 2, ncount := 3, treeValid := true })
    h0 h1 h2 rfl rfl
  exact ⟨_, hbody, hholds, by rw [hm]; rfl⟩

section Walk
variable {s : State} {i : NodeIdx} (levels : Nat) (len : CodeLen) (val : CodeVal)

theorem walk_leaf {x : Sym} (h : holds s i (.leaf x) = true) :
    walk (levels + 1) i len val s = .ok (s.setCode x.toNat { len := len, val := val }) := by
  obtain ⟨hleaf, rfl⟩ := holds_leaf_iff.mp h
  rw [walk, if_pos hleaf]

theorem walk_node (h : (s.nodeAt i).leaf = false) :
    walk (levels + 1) i len val s =
      (walk levels (s.nodeAt i).left (len + 1) (val <<< 1) s).andThen
        (walk levels (s.nodeAt i).right (len + 1) (val <<< 1 ||| 1)) := by
  rw [walk, if_neg (by simp [h])]

end Walk

theorem codeAt_setCode_self (s : State) {x : Nat} (c : CodeRec) (hx : x < 257) : (s.setCode x c).codeAt x = c :=
  (codeAt_setCode s x x c hx).trans (if_pos rfl)

/-- DERIVE's walk of two sentinel leaves writes the sentinel's code twice, and the right leaf's stays (R153). -/
theorem walk_emptyInputTree {s : State} {i : NodeIdx} (h : holds s i emptyInputTree = true) :
    ∃ u, walk walkLevels i 0 0 s = .ok u ∧ u.codeAt 256 = { len := 1, val := 1 } ∧ u = { s with code := u.code } := by
  let t : State := s.setCode 256 { len := 1, val := 0 }
  have hleftLeaf : holds s (s.nodeAt i).left (.leaf 256) = true := holds_child h false
  have hrightLeaf : holds t (s.nodeAt i).right (.leaf 256) = true := holds_of_node_eq (s := s) (holds_child h true) rfl
  have hleft : walk 256 (s.nodeAt i).left 1 0 s = .ok t := walk_leaf 255 1 0 hleftLeaf
  have hright : walk 256 (s.nodeAt i).right 1 1 t = .ok (t.setCode 256 { len := 1, val := 1 }) := walk_leaf 255 1 1 hrightLeaf
  have hwalk := calc walk walkLevels i 0 0 s
    _ = (walk 256 (s.nodeAt i).left 1 0 s).andThen (walk 256 (s.nodeAt i).right 1 1) :=
      walk_node 256 0 0 (leaf_false_of_holds_node h)
    _ = walk 256 (s.nodeAt i).right 1 1 t := by rw [hleft, Run.andThen]
    _ = .ok (t.setCode 256 { len := 1, val := 1 }) := hright
  exact ⟨_, hwalk, codeAt_setCode_self t _ (by decide), rfl⟩

/-- DERIVE on the tree of the empty input gives the sentinel the one bit 1. -/
theorem deriveBody_emptyInputTree {s : State} (h : holds s s.root emptyInputTree = true) :
    ∃ u, deriveBody s = .ok u ∧ u.codeAt 256 = { len := 1, val := 1 } ∧
      u = { s with codeValid := true, code := u.code, freeCtr := u.freeCtr } := by
  obtain ⟨u, hwalk, hcode, hu⟩ := walk_emptyInputTree
    (s := { s.dropCodes with code := Vector.replicate 257 { len := 0, val := 0 } }) (holds_of_node_eq h rfl)
  have hbody : deriveBody s = .ok { u with codeValid := true } := by rw [deriveBody, hwalk, Run.andThen]
  exact ⟨_, hbody, hcode, by rw [hu]; rfl⟩

/-- ENC on an empty SIN writes the sentinel's code (R180). -/
theorem encBody_nil {s : State} (hsin : s.sinRest = []) (hcode : s.codeAt 256 = { len := 1, val := 1 }) :
    encBody s = .ok ([true].foldl State.bitWrite s) := by
  have hcode : s.codeAt Config.eos = { len := 1, val := 1 } := hcode
  rw [encBody, hsin, encLoop, writeCode, hcode]
  rfl

/-- The first three steps of COMPRESS on an empty SIN make the tree and the sentinel's code, and leave SIN, BOUT and MAGIC. -/
theorem count_build_derive_empty {s : State} (hsin : s.sinRest = []) :
    ∃ u, (((countBody s).andThen buildBody).andThen deriveBody) = .ok u ∧ holds u u.root emptyInputTree = true ∧
      u.codeAt 256 = { len := 1, val := 1 } ∧ u.sin = s.sin ∧ u.bout = s.bout ∧ u.magic = s.magic := by
  have hzero : ∀ x, x < 256 → s.zeroFreq.freqAt x = 0 := fun x hx => by simp [State.freqAt, State.zeroFreq, hx]
  obtain ⟨b, hbuild, hholds, hb⟩ := buildBody_of_no_byte hzero
  obtain ⟨d, hderive, hcode, hd⟩ := deriveBody_emptyInputTree hholds
  have hsteps : (((countBody s).andThen buildBody).andThen deriveBody) = .ok d := by
    simp only [countBody_nil hsin, Run.andThen, hbuild, hderive]
  have hroot : d.root = b.root := by rw [hd]
  have hnode : d.node = b.node := by rw [hd]
  exact ⟨d, hsteps, hroot ▸ holds_of_node_eq hholds hnode, hcode,
    by rw [hd, hb]; rfl, by rw [hd, hb]; rfl, by rw [hd, hb]; rfl⟩

/-- The last four steps of COMPRESS where SIN is empty: the magic, the tree and the sentinel's code go to BOUT. -/
theorem magw_hdrw_rewind_enc_empty {s : State} {t : Tree} (hholds : holds s s.root t = true) (hdepth : t.depth ≤ 256)
    (hsin : s.sin = []) (hcode : s.codeAt 256 = { len := 1, val := 1 }) :
    ∃ u, ((((magwBody s).andThen hdrwBody).andThen rewindBody).andThen encBody) = .ok u ∧
      u.bout = s.bout ++ container s.magic t [true] := by
  have hmagic : magwBody s = .ok ((bitsN 32 s.magic.toNat).foldl State.bitWrite s) := rfl
  have hheader : hdrwBody ((bitsN 32 s.magic.toNat).foldl State.bitWrite s) =
      .ok ((bitsN 32 s.magic.toNat ++ t.ser).foldl State.bitWrite s) := by
    rw [hdrwBody_tree (holds_foldl_bitWrite (by rw [foldl_bitWrite]; exact hholds) _) hdepth, List.foldl_append]
  have hpayload : encBody ((bitsN 32 s.magic.toNat ++ t.ser).foldl State.bitWrite s).symRewind =
      .ok ([true].foldl State.bitWrite ((bitsN 32 s.magic.toNat ++ t.ser).foldl State.bitWrite s).symRewind) := by
    rw [foldl_bitWrite]
    exact encBody_nil hsin hcode
  have hsteps : ((((magwBody s).andThen hdrwBody).andThen rewindBody).andThen encBody) =
      .ok ([true].foldl State.bitWrite ((bitsN 32 s.magic.toNat ++ t.ser).foldl State.bitWrite s).symRewind) := by
    simp only [hmagic, Run.andThen, hheader, rewindBody, hpayload]
  refine ⟨_, hsteps, ?_⟩
  simp only [foldl_bitWrite, State.symRewind_bout, container, List.append_assoc]

/-- COMPRESS's steps on an empty SIN append the container of R217. -/
theorem compressBody_empty {s : State} (hsin : s.sin = []) :
    ∃ u, compressBody s = .ok u ∧ u.bout = s.bout ++ container s.magic emptyInputTree [true] := by
  have hrest : s.sinRest = [] := by rw [State.sinRest, hsin, List.drop_nil]
  obtain ⟨d, htables, hholds, hcode, hdsin, hdbout, hdmagic⟩ := count_build_derive_empty hrest
  obtain ⟨u, houtput, hbout⟩ := magw_hdrw_rewind_enc_empty hholds (by decide) (hdsin.trans hsin) hcode
  exact ⟨u, by rw [compressBody, htables]; exact houtput, by rw [hbout, hdbout, hdmagic]⟩

/-! ## The steps of DECOMPRESS on a container -/

/-- DECOMPRESS's steps on the magic, a tree, the paths of bytes and the path of a sentinel leaf (R206): the tree stored, the byte of
each path written, and the container consumed. -/
theorem decompressBody_container {s : State} {t : Tree} {walks : List (List Bit × Sym)} {path rest : List Bit}
    (hnode : t.isNode = true) (hsym : t.symsOk = true) (hsize : t.size ≤ 513) (hwalks : ∀ w ∈ walks, IsByteWalk t w)
    (hpath : t.reach path = some (.leaf 256))
    (hbin : s.binRest = container s.magic t (walks.flatMap Prod.fst ++ path) ++ rest) :
    ∃ i, decompressBody s = .ok (((s.skipBin 32).headerRead t).decoded walks path i) := by
  have hbin : s.binRest = bitsN 32 s.magic.toNat ++ (t.ser ++ (walks.flatMap Prod.fst ++ path ++ rest)) := by
    simpa only [container, List.append_assoc] using hbin
  have hmagic : (s.skipBin 32).binRest = t.ser ++ (walks.flatMap Prod.fst ++ path ++ rest) := by
    rw [binRest_skipBin, hbin, List.drop_left' (bitsN_length 32 _)]
  obtain ⟨i, -, hpayload⟩ := decBody_eq_decArrive (s := (s.skipBin 32).headerRead t) (holds_headerRead hsize) hnode hwalks hpath
    (binRest_headerRead hmagic)
  rw [decArrive, if_pos rfl] at hpayload
  refine ⟨i, ?_⟩
  simp only [decompressBody, magrBody_match hbin, Run.andThen, hdrrBody_tree hmagic hnode hsym hsize, hpayload]

/-! ## The obligation -/

/-- Settles O59: from no counts BUILD makes the tree of two sentinel leaves and DERIVE gives the sentinel the bit 1, which DEC
follows from the root to a sentinel leaf. -/
theorem emptyInputContainer : Obligations.EmptyInputContainer := by
  unfold Obligations.EmptyInputContainer
  intro s hs _ hsin
  refine ⟨?compress, fun b rest hb hbin => ?decompress⟩
  case compress =>
    obtain ⟨u, hbody, hbout⟩ := compressBody_empty (s := { s with cmd := 0x0C, seq := .busy }) hsin
    refine ⟨_, (runCommand_ready hs).trans (accept_ok rfl hbody), rfl, ?_⟩
    rw [← container_emptyInput]
    exact hbout
  case decompress =>
    rw [← container_emptyInput] at hbin
    obtain ⟨i, hbody⟩ := decompressBody_container (s := { b with cmd := 0x0D, seq := .busy }) (walks := []) rfl (by decide)
      (by decide) (by simp) rfl hbin
    refine ⟨_, (runCommand_ready hb).trans (accept_ok rfl hbody), rfl, ?_⟩
    rw [headerRead_frame]
    exact List.append_nil b.sout

end Sys2Proof.Machine
end

section
/-!
PROOFS. The errors of the sequencer (60_exceptions R235, R244): a command word in ERROR, and where E_SEQ comes from.
-/
namespace Sys2Proof.Machine

/-! ## A word written in ERROR (R244) -/

/-- Every word of the opcode map runs its command through the one command runner, under its own number. -/
theorem exec_eq_runCommand {w : Byte} {i : Instr} (h : decodeCommand w = .ok i) :
    ∃ pre body, ∀ s, exec i s = runCommand w pre body s := by
  have hrows : ∀ r ∈ opcodeMap, ∃ pre body, ∀ s, exec r.instr s = runCommand r.value pre body s := by
    intro r hr
    fin_cases hr <;> exact ⟨_, _, fun _ => rfl⟩
  obtain ⟨r, hr, rfl, rfl⟩ := decodeCommand_eq_ok_iff.mp h
  exact hrows r hr

theorem writeCmd_error {w : Byte} {s : State} (hs : s.seq = .error) (hw : w ≠ 0x01) : writeCmd w s = .next s := by
  cases hdecode : decodeCommand w with
  | ok i =>
    obtain ⟨pre, body, hexec⟩ := exec_eq_runCommand hdecode
    rw [writeCmd, hdecode]
    exact (hexec s).trans (runCommand_error hs hw)
  | error e => exact (writeCmd_illegal hdecode s).trans (runCommand_error hs hw)

/-- Settles O9: a legal word and an illegal one go through one runner, which in ERROR ignores every word but CLEAR's. -/
theorem errorsDoNotNest : Obligations.ErrorsDoNotNest := by
  unfold Obligations.ErrorsDoNotNest
  intro s hs
  have hbusy : s.seq ≠ .busy := by simp [hs]
  exact ⟨fun v hv => (hostMove_writeReg_cmd v hbusy).trans (writeCmd_error hs hv), _, exec_clear hbusy, rfl, rfl, rfl⟩

/-! ## Steps that raise no E_SEQ -/

/-- A run raises no E_SEQ, and where all its steps ran, ERR holds `err`. -/
def Run.NoSeq (err : BitVec 8) : Run → Prop
  | .ok t => t.err = err
  | .raised e _ _ => e ≠ .seq
  | .stuck => True

@[simp] theorem Run.noSeq_raised {err : BitVec 8} {e : ErrKind} {info : BitVec 32} {t : State} :
    (Run.raised e info t).NoSeq err ↔ e ≠ .seq := Iff.rfl

/-- The steps of a command raise no E_SEQ, and leave ERR alone where they all run. -/
def RaisesNoSeq (body : State → Run) : Prop := ∀ s, (body s).NoSeq s.err

theorem Run.NoSeq.andThen {err : BitVec 8} {r : Run} {f : State → Run} (hr : r.NoSeq err)
    (hf : ∀ t, t.err = err → (f t).NoSeq err) : (r.andThen f).NoSeq err := by
  cases r with
  | ok t => exact hf t hr
  | raised e info t => exact hr
  | stuck => trivial

theorem RaisesNoSeq.andThen {f g : State → Run} (hf : RaisesNoSeq f) (hg : RaisesNoSeq g) :
    RaisesNoSeq (fun s => (f s).andThen g) :=
  fun s => (hf s).andThen (fun t ht => ht ▸ hg t)

/-- A frame by a mask that does not blank ERR covers it. -/
theorem err_of_mask {mask : State → State} {s t : State} (h : mask t = mask s) (hmask : ∀ u, (mask u).err = u.err) :
    t.err = s.err := by
  rw [← hmask t, h, hmask s]

theorem bitsWrite_err (s : State) (n v : Nat) : (s.bitsWrite n v).err = s.err :=
  err_of_mask (bitsWrite_frame s n v) (fun _ => rfl)

theorem rewindBody_raisesNoSeq : RaisesNoSeq rewindBody := fun _ => rfl

theorem magwBody_raisesNoSeq : RaisesNoSeq magwBody := fun s => bitsWrite_err s 32 s.magic.toNat

theorem countLoop_raisesNoSeq (xs : List Byte) : RaisesNoSeq (countLoop xs) := by
  induction xs with
  | nil => exact fun _ => rfl
  | cons x xs ih =>
    intro s
    simp only [countLoop]
    split
    · simp
    · exact ih _

theorem countBody_raisesNoSeq : RaisesNoSeq countBody := fun s => countLoop_raisesNoSeq s.sinRest s.zeroFreq

theorem err_maskTree (s : State) : (maskTree s).err = s.err := by simp only [maskTree]

theorem buildEnd_err (n : Nat) (s : State) : (buildEnd n s).err = s.err := by
  unfold buildEnd
  split
  next => rfl
  next r u hmin => exact err_of_mask (t := u) (extractMin_frame hmin) err_maskTree

theorem buildBody_raisesNoSeq : RaisesNoSeq buildBody := by
  intro s
  rw [buildBody_eq]
  exact (buildEnd_err ..).trans (err_of_mask (s := s.dropTree.dropCodes) (merged_frame s) err_maskTree)

theorem walk_raisesNoSeq (levels : Nat) (i : NodeIdx) (len : CodeLen) (val : CodeVal) :
    RaisesNoSeq (walk levels i len val) := by
  induction levels generalizing i len val with
  | zero => exact fun _ => trivial
  | succ levels ih =>
    intro s
    rw [walk]
    split
    · rfl
    · exact (ih _ _ _).andThen (ih _ _ _) s

theorem deriveBody_raisesNoSeq : RaisesNoSeq deriveBody :=
  fun _ => (walk_raisesNoSeq _ _ _ _ _).andThen (fun _ ht => ht)

theorem emit_raisesNoSeq (levels : Nat) (i : NodeIdx) : RaisesNoSeq (emit levels i) := by
  induction levels generalizing i with
  | zero => exact fun _ => trivial
  | succ levels ih =>
    intro s
    rw [emit]
    split
    · exact bitsWrite_err ..
    · exact (ih _).andThen (ih _) (s.bitWrite false)

theorem hdrwBody_raisesNoSeq : RaisesNoSeq hdrwBody := fun s => emit_raisesNoSeq walkLevels s.root s

theorem writeCode_raisesNoSeq (x : Nat) : RaisesNoSeq (writeCode x) := by
  intro s
  unfold writeCode
  split
  · simp
  · exact bitsWrite_err ..

theorem encLoop_raisesNoSeq (xs : List Byte) : RaisesNoSeq (encLoop xs) := by
  induction xs with
  | nil => exact writeCode_raisesNoSeq Config.eos
  | cons x xs ih => exact fun s => (writeCode_raisesNoSeq x.toNat).andThen ih s.advanceSin

theorem encBody_raisesNoSeq : RaisesNoSeq encBody := fun s => encLoop_raisesNoSeq s.sinRest s

theorem decLoop_raisesNoSeq (bits : List Bit) : RaisesNoSeq (decLoop bits) := by
  induction bits with
  | nil => exact fun _ => by simp [decLoop]
  | cons b bits ih =>
    intro s
    simp only [decLoop]
    split
    · split
      · rfl
      · exact ih _
    · exact ih _

theorem decBody_raisesNoSeq : RaisesNoSeq decBody := fun s => decLoop_raisesNoSeq s.binRest (s.setCur s.root)

theorem magrBody_raisesNoSeq : RaisesNoSeq magrBody := by
  intro s
  have hread := bitsReadFrom_frame 32 0 0 s
  unfold magrBody State.bitsRead
  cases hr : bitsReadFrom 32 0 0 s with
  | ended k t => simp
  | value v t =>
    rw [hr] at hread
    dsimp only
    split
    · exact err_of_mask hread.1 (fun _ => rfl)
    · simp

/-- The errors of `rd()` are those of R170. -/
theorem rd_raised_ne_seq {levels n : Nat} {s t : State} {e : ErrKind} {info : BitVec 32}
    (h : rd levels n s = .raised e info t) : e ≠ .seq := by
  fun_induction rd levels n s with
  | case1 | case2 | case3 | case4 | case5 => cases h; decide
  | case6 | case9 => cases h
  | case7 => rename_i hleft ih; exact ih (hleft.trans h)
  | case8 => rename_i hright _ ih; exact ih (hright.trans h)

theorem hdrrBody_raisesNoSeq : RaisesNoSeq hdrrBody := by
  intro s
  have hframe := rd_frame (Config.nnode + 1) 0 s.dropTree.dropCodes
  unfold hdrrBody
  cases hr : rd (Config.nnode + 1) 0 s.dropTree.dropCodes with
  | raised e info t => exact rd_raised_ne_seq hr
  | ok r n t =>
    rw [hr] at hframe
    dsimp only
    split
    · simp
    · exact err_of_mask (t := t) (s := s.dropTree.dropCodes) hframe (fun _ => rfl)

theorem compressBody_raisesNoSeq : RaisesNoSeq compressBody :=
  (((((countBody_raisesNoSeq.andThen buildBody_raisesNoSeq).andThen deriveBody_raisesNoSeq).andThen
    magwBody_raisesNoSeq).andThen hdrwBody_raisesNoSeq).andThen rewindBody_raisesNoSeq).andThen encBody_raisesNoSeq

theorem decompressBody_raisesNoSeq : RaisesNoSeq decompressBody :=
  (magrBody_raisesNoSeq.andThen hdrrBody_raisesNoSeq).andThen decBody_raisesNoSeq

/-! ## E_SEQ is a failed precondition (R235) -/

theorem ErrKind.code_ne_seq {e : ErrKind} (h : e ≠ .seq) : e.code ≠ 0x02 := by
  cases e with
  | seq => exact absurd rfl h
  | _ => decide

/-- A command without a precondition, whose steps raise no E_SEQ, leaves E_SEQ in ERR only where it stood there. -/
theorem runCommand_always_err {w : Byte} {body : State → Run} {s t : State} (hbody : RaisesNoSeq body)
    (h : runCommand w always body s = .next t) : t.err ≠ 0x02 ∨ s.err = 0x02 := by
  have hsteps := hbody { s with cmd := w, seq := .busy }
  obtain ⟨-, -, rfl⟩ | ⟨-, ⟨hpre, -⟩ | ⟨u, hu, rfl⟩ | ⟨e, info, u, hu, rfl⟩⟩ := runCommand_next h
  · exact (em _).symm
  · cases hpre
  · rw [hu] at hsteps
    have herr : u.err = s.err := hsteps
    exact herr ▸ (em _).symm
  · rw [hu] at hsteps
    exact .inl (ErrKind.code_ne_seq hsteps)

theorem runCommand_precondition {w : Byte} {pre : State → Bool} {body : State → Run} {s : State} (hs : Ready s)
    (hpre : pre { s with cmd := w, seq := .busy } = false) :
    runCommand w pre body s = .next { s with cmd := w, seq := .error, err := 0x02, einfo := w.setWidth 32 } :=
  (runCommand_ready hs).trans (accept_precondition hpre)

/-- Settles O25: the four preconditions are read before any step; no step of any command raises E_SEQ, and CLEAR zeroes ERR. -/
theorem preconditionFailsRaiseSeq : Obligations.PreconditionFailsRaiseSeq := by
  unfold Obligations.PreconditionFailsRaiseSeq
  refine fun s hs => ⟨fun htree => ?needsTree, fun hcode => runCommand_precondition hs hcode, ?others⟩
  case needsTree =>
    exact ⟨runCommand_precondition hs htree, runCommand_precondition hs htree, runCommand_precondition hs htree⟩
  case others =>
    simp only [List.forall_mem_cons]
    refine ⟨?clear, fun t h => runCommand_always_err countBody_raisesNoSeq h,
      fun t h => runCommand_always_err buildBody_raisesNoSeq h, fun t h => runCommand_always_err hdrrBody_raisesNoSeq h,
      fun t h => runCommand_always_err magwBody_raisesNoSeq h, fun t h => runCommand_always_err magrBody_raisesNoSeq h,
      fun t h => runCommand_always_err rewindBody_raisesNoSeq h, fun t h => runCommand_always_err compressBody_raisesNoSeq h,
      fun t h => runCommand_always_err decompressBody_raisesNoSeq h, List.forall_mem_nil _⟩
    intro t h
    have herr : t.err = 0 := congrArg State.err (exec_clear_next h)
    exact .inl (by simp [herr])

end Sys2Proof.Machine
end

section
/-!
PROOFS. Host accesses while a command runs (70_reset R263).
-/
namespace Sys2Proof.Machine

/-- A read of STATUS answers in every STATE (R64). -/
theorem hostMove_readReg_status (s : State) :
    hostMove (.readReg 0x01) s = .next { s with hostData := some (.reg32 s.status) } :=
  if_neg fun h => h.2 rfl

theorem hostMove_readReg_busy {s : State} {n : Nat} (hs : s.seq = .busy) (hn : n ≠ 0x01) :
    hostMove (.readReg n) s = .refused .accessWhileBusy :=
  if_pos ⟨hs, hn⟩

theorem hostMove_writeReg_busy {s : State} (n : Nat) (v : BitVec 64) (hs : s.seq = .busy) :
    hostMove (.writeReg n v) s = .refused .accessWhileBusy :=
  if_pos hs

theorem tableAccess_busy (size i : Nat) (f : State → State) {s : State} (hs : s.seq = .busy) :
    tableAccess size i f s = .refused .accessWhileBusy :=
  if_pos hs

/-- Settles O10: STATUS is the one register whose read STATE does not guard; each access to a table is a `tableAccess`. -/
theorem busyAllowsOnlyStatus : Obligations.BusyAllowsOnlyStatus := by
  unfold Obligations.BusyAllowsOnlyStatus
  intro s hs
  refine ⟨hostMove_readReg_status s, fun n hn => hostMove_readReg_busy hs hn, fun n v => hostMove_writeReg_busy n v hs,
    fun i => ⟨?readFreq, ?readNode, ?readCode⟩, fun i c => ?writeFreq, fun i r => ?writeNode, fun i r => ?writeCode⟩
  all_goals
    unfold hostMove
    exact tableAccess_busy _ i _ hs

end Sys2Proof.Machine
end

section
/-!
PROOFS. Decoding and encoding (30_encoding sections 1 and 3): the records by their bits, and that each encoding has one meaning.
-/
namespace Sys2Proof.Machine

/-! ## Words and their bits -/

theorem bitsVal_bitsN_toNat {n : Nat} (m : BitVec n) : bitsVal (bitsN n m.toNat) = m.toNat := by
  rw [bitsVal_bitsN, Nat.mod_eq_of_lt m.isLt]

/-- Bits are the bits of the word they make. -/
theorem bitsN_ofNat_bitsVal {n : Nat} {p : List Bit} (h : p.length = n) : bitsN n (BitVec.ofNat n (bitsVal p)).toNat = p := by
  subst h
  rw [BitVec.toNat_ofNat, Nat.mod_eq_of_lt (bitsVal_lt p), bitsN_bitsVal]

theorem bitsN_toNat_injective {n : Nat} {x y : BitVec n} (h : bitsN n x.toNat = bitsN n y.toNat) : x = y :=
  BitVec.eq_of_toNat_eq (by rw [← bitsVal_bitsN_toNat x, h, bitsVal_bitsN_toNat])

/-! ## The records (R97, R99, R100) -/

theorem decodeRecord_magic {bits : List Bit} (h : bits.length = 32) :
    decodeRecord bits = .ok (.magicField (BitVec.ofNat 32 (bitsVal bits))) := if_pos h

theorem decodeRecord_leaf {field : List Bit} (hlen : field.length = 9) (hsym : bitsVal field ≤ Config.eos) :
    decodeRecord (true :: field) = .ok (.leafRecord (BitVec.ofNat 9 (bitsVal field))) := by
  have hne : (true :: field).length ≠ 32 := by rw [List.length_cons, hlen]; decide
  rw [decodeRecord, if_neg hne]
  exact (if_pos hlen).trans (if_pos hsym)

/-- Bits that decode are in one of the three formats. -/
theorem decodeRecord_eq_ok {bits : List Bit} {i : Instr} (h : decodeRecord bits = .ok i) :
    (bits.length = 32 ∧ i = .magicField (BitVec.ofNat 32 (bitsVal bits))) ∨ (bits = [false] ∧ i = .nodeRecord) ∨
      ∃ field, bits = true :: field ∧ field.length = 9 ∧ bitsVal field ≤ Config.eos ∧
        i = .leafRecord (BitVec.ofNat 9 (bitsVal field)) := by
  unfold decodeRecord at h
  split at h
  next hlen => cases h; exact .inl ⟨hlen, rfl⟩
  next =>
    split at h
    next => cases h; exact .inr (.inl ⟨rfl, rfl⟩)
    next _ field _ =>
      split at h
      next hlen =>
        split at h
        next hsym => cases h; exact .inr (.inr ⟨field, rfl, hlen, hsym, rfl⟩)
        next => cases h
      next => cases h
    next => cases h

/-! ## The obligations -/

/-- Settles O3: a command's word is in the opcode map, and the bits of a record denote its operand. -/
theorem decodeInvertsEncode : Obligations.DecodeInvertsEncode := by
  unfold Obligations.DecodeInvertsEncode
  intro i hwf
  cases i with
  | magicField m =>
    rw [encode, decode, decodeRecord_magic (bitsN_length 32 _), bitsVal_bitsN_toNat, BitVec.ofNat_toNat, BitVec.setWidth_eq]
  | leafRecord x =>
    have hsym : bitsVal (bitsN 9 x.toNat) ≤ Config.eos := by
      rw [bitsVal_bitsN_toNat]
      exact of_decide_eq_true hwf
    rw [encode, decode, decodeRecord_leaf (bitsN_length 9 _) hsym, bitsVal_bitsN_toNat, BitVec.ofNat_toNat, BitVec.setWidth_eq]
  | _ => rfl

/-- Settles O4: a command decodes by its row of the map, which is its encoding; a record by one of the three formats. -/
theorem decodedIsTheEncodingOfItsInstruction : Obligations.DecodedIsTheEncodingOfItsInstruction := by
  unfold Obligations.DecodedIsTheEncodingOfItsInstruction
  intro e i h
  cases e with
  | command w =>
    have hrows : ∀ r ∈ opcodeMap, r.instr.wf = true ∧ encode r.instr = .command r.value := by decide
    obtain ⟨r, hr, rfl, rfl⟩ := decodeCommand_eq_ok_iff.mp h
    exact hrows r hr
  | record bits =>
    obtain ⟨hlen, rfl⟩ | ⟨rfl, rfl⟩ | ⟨field, rfl, hlen, hsym, rfl⟩ := decodeRecord_eq_ok h
    · exact ⟨rfl, by rw [encode, bitsN_ofNat_bitsVal hlen]⟩
    · exact ⟨rfl, rfl⟩
    · have hfield : bitsN 9 (BitVec.ofNat 9 (bitsVal field)).toNat = field := bitsN_ofNat_bitsVal hlen
      refine ⟨decide_eq_true ?_, by rw [encode, hfield]⟩
      rw [← bitsVal_bitsN_toNat, hfield]
      exact hsym

end Sys2Proof.Machine
end

section
/-!
PROOFS. The serialisation of a tree (30_encoding R98): none is the beginning of another tree's, and its length.
-/
namespace Sys2Proof.Machine

/-- A serialisation tells where it ends. -/
theorem ser_append_inj {t u : Tree} {a b : List Bit} (h : t.ser ++ a = u.ser ++ b) : t = u ∧ a = b := by
  induction t generalizing u a b with
  | leaf x =>
    cases u with
    | leaf y =>
      obtain ⟨hfield, hrest⟩ := List.append_inj (List.cons.inj h).2 (by rw [bitsN_length, bitsN_length])
      exact ⟨congrArg Tree.leaf (bitsN_toNat_injective hfield), hrest⟩
    | node l r => cases (List.cons.inj h).1
  | node l r hl hr =>
    cases u with
    | leaf y => cases (List.cons.inj h).1
    | node l' r' =>
      have htail : l.ser ++ (r.ser ++ a) = l'.ser ++ (r'.ser ++ b) := by
        simpa only [Tree.ser, List.cons_append, List.append_assoc, List.cons.injEq, true_and] using h
      obtain ⟨rfl, hright⟩ := hl htail
      obtain ⟨rfl, hrest⟩ := hr hright
      exact ⟨rfl, hrest⟩

theorem size_add_one (t : Tree) : t.size + 1 = 2 * t.leaves.length := by
  induction t with
  | leaf x => rfl
  | node l r hl hr => rw [Tree.size, Tree.leaves, List.length_append]; omega

theorem ser_length_add_one (t : Tree) : t.ser.length + 1 = 11 * t.leaves.length := by
  induction t with
  | leaf x => rw [Tree.ser, List.length_cons, bitsN_length]; rfl
  | node l r hl hr => rw [Tree.ser, Tree.leaves, List.length_cons, List.length_append, List.length_append]; omega

/-- Settles O5: both trees are read off the bits together, and the lengths add up over the tree. -/
theorem headerIsSelfDelimitingAndSized : Obligations.HeaderIsSelfDelimitingAndSized := by
  unfold Obligations.HeaderIsSelfDelimitingAndSized
  refine ⟨fun t u a b h => ser_append_inj h, fun t => ⟨ser_length_add_one t, size_add_one t⟩, fun t h => ?_, fun t h => ?_⟩
  all_goals
    have hlen := ser_length_add_one t
    rw [h] at hlen
    omega

end Sys2Proof.Machine
end

section
/-!
PROOFS. A step as the instruction it runs (10_state R24, 30_encoding R95), and the container records (R97, R99).
-/
namespace Sys2Proof.Machine

theorem step_cons {s : State} {a : HostAction} {rest : List HostAction} (h : s.host = a :: rest) :
    step s = hostMove a { s with host := rest } := by
  rw [step, h]

theorem step_idle {s : State} (h : s.host = []) : step s = .next s := by
  rw [step, h]

theorem writeCmd_ok {w : Byte} {i : Instr} (h : decodeCommand w = .ok i) (s : State) : writeCmd w s = exec i s := by
  rw [writeCmd, h]

theorem deliver_ok {bits : List Bit} {i : Instr} (h : decodeRecord bits = .ok i) (s : State) :
    hostMove (.deliver bits) s = exec i s := by
  rw [hostMove, deliver, h]

/-- Settles O7: a write of CMD runs the command of its word, a delivery the record of its bits. -/
theorem stepRunsDecodedInstruction : Obligations.StepRunsDecodedInstruction := by
  unfold Obligations.StepRunsDecodedInstruction
  refine ⟨fun s v rest i hs hhost hdecode => ?command, fun s bits rest i hhost hdecode => ?record,
    fun s a rest hhost => step_cons hhost, fun s hhost => step_idle hhost⟩
  case command => rw [step_cons hhost, hostMove_writeReg_cmd (s := { s with host := rest }) v hs, writeCmd_ok hdecode]
  case record => rw [step_cons hhost, deliver_ok hdecode]

/-- The move that carries an encoding runs its instruction, in BUSY too, where both are refused. -/
theorem hostMove_moveOf {e : Encoding} {i : Instr} (h : decode e = .ok i) (s : State) : hostMove (moveOf e) s = exec i s := by
  cases e with
  | command w =>
    by_cases hs : s.seq = .busy
    · obtain ⟨pre, body, hexec⟩ := exec_eq_runCommand h
      rw [moveOf, hexec, runCommand_busy hs]
      exact if_pos hs
    · have hword : (w.setWidth 64).setWidth 8 = w := BitVec.setWidth_setWidth_of_le w (by decide)
      rw [moveOf, hostMove_writeReg_cmd _ hs, hword, writeCmd_ok h]
  | record bits => exact deliver_ok h s

/-- Settles O8: a word that decodes has an encoding, and the move placed for it is the next step. -/
theorem placedWordRunsNext : Obligations.PlacedWordRunsNext := by
  unfold Obligations.PlacedWordRunsNext
  intro s nbits w i h
  unfold decodeTableWord at h
  cases he : tableEncoding nbits w with
  | none => simp [he] at h
  | some e =>
    have hdecode : decode e = .ok i := by
      cases hd : decode e with
      | error err => simp [he, hd, Except.toOption] at h
      | ok j => simpa [he, hd, Except.toOption] using h
    have hplaced : s.withFetchWord nbits w = { s with host := moveOf e :: s.host } := by
      rw [State.withFetchWord, State.placeWord, he]
    rw [hplaced, step_cons (s := { s with host := moveOf e :: s.host }) rfl]
    exact hostMove_moveOf hdecode s

theorem deliverBits_of_not_busy {s : State} (bits : List Bit) (hs : s.seq ≠ .busy) :
    deliverBits bits s = .next { s with bin := s.bin ++ bits } := if_neg hs

/-- Settles O30: a record's meaning is the delivery of its bits. -/
theorem recordsAreDeliveredOnBin : Obligations.RecordsAreDeliveredOnBin := by
  unfold Obligations.RecordsAreDeliveredOnBin
  exact fun s hs => ⟨fun _ => deliverBits_of_not_busy _ hs, deliverBits_of_not_busy _ hs, fun _ => deliverBits_of_not_busy _ hs⟩

end Sys2Proof.Machine
end

section
/-!
PROOFS. Reset (10_state section 7, 70_reset section 1): its values, and how it differs from CLEAR.
-/
namespace Sys2Proof.Machine

/-- The values a reset leaves in the block's registers and tables. -/
structure AtReset (s : State) : Prop where
  registers : s.cmd = 0 ∧ s.seq = .idle ∧ s.err = 0 ∧ s.einfo = 0 ∧ s.root = 0 ∧ s.ncount = 0 ∧ s.cur = 0
  flags : s.treeValid = false ∧ s.codeValid = false ∧ s.ie = false
  counters : s.sinCnt = 0 ∧ s.binCnt = 0 ∧ s.boutCnt = 0 ∧ s.soutCnt = 0
  freq : s.freq = Vector.replicate 256 0
  pq : s.pq = []

theorem atReset_reset : AtReset State.reset := by
  constructor <;> simp [State.reset]

theorem atReset_hardReset (s : State) : AtReset s.hardReset := by
  unfold State.hardReset
  constructor <;> simp

theorem hardReset_of_not_busy {s : State} (hs : s.seq ≠ .busy) :
    s.hardReset = { s.clearBlock with seq := .idle, ie := false } := by
  rw [State.hardReset, if_neg hs]

/-- Settles O16: both ways to reset leave the same values, and no move is pending in `State.reset`. -/
theorem resetValues : Obligations.ResetValues := by
  unfold Obligations.ResetValues
  refine ⟨fun s hs => ?values, step_idle rfl⟩
  case values =>
    have hreset : AtReset s := by
      obtain rfl | ⟨u, hu⟩ := hs
      · exact atReset_reset
      · cases hu; exact atReset_hardReset u
    obtain ⟨⟨hcmd, hseq, herr, heinfo, hroot, hncount, hcur⟩, ⟨htree, hcode, hie⟩, ⟨hsin, hbin, hbout, hsout⟩, hfreq, hpq⟩ := hreset
    have hctrl : s.ctrl = 0 := by rw [State.ctrl, hie]; rfl
    have hzero : ∀ x, x < 256 → s.freqAt x = 0 := fun x hx => by simp [State.freqAt, hx, hfreq]
    exact ⟨hcmd, hseq, htree, hcode, irq_of_idle hseq, hctrl, herr, heinfo, hroot, hncount, hcur, hsin, hbin, hbout, hsout, hzero,
      freqAt_sentinel s, hpq⟩

/-- Settles O17: outside BUSY both are `clearBlock`, the reset with CTRL cleared too; in BUSY the command is refused. -/
theorem resetAndClearDifferInTwoPoints : Obligations.ResetAndClearDifferInTwoPoints := by
  unfold Obligations.ResetAndClearDifferInTwoPoints
  refine fun s => ⟨fun hs => ⟨_, exec_clear hs, ?_, rfl⟩, fun hs => ⟨runCommand_busy hs, _, rfl, ?_⟩⟩
  · exact congrArg Host.Outcome.next (hardReset_of_not_busy hs)
  · obtain ⟨⟨-, hseq, -⟩, -⟩ := atReset_hardReset s
    exact hseq

/-- Settles O20: nothing runs, no flag is set, and the streams are empty. -/
theorem resetMeetsInvariant : Obligations.ResetMeetsInvariant := by
  unfold Obligations.ResetMeetsInvariant
  constructor <;> simp [State.reset]

end Sys2Proof.Machine
end

section
/-!
PROOFS. Trees in the node memory (10_state section 3, R34): the indices a tree occupies, the children on them, and what follows for
the tree the block holds.
-/
namespace Sys2Proof.Machine

/-! ## The indices below NCOUNT -/

theorem nodeRange_length (n : Nat) : (nodeRange n).length = n := by
  rw [nodeRange, List.length_map, List.length_range]

theorem mem_nodeRange {n : Nat} (hn : n ≤ 1024) {j : NodeIdx} : j ∈ nodeRange n ↔ j.toNat < n := by
  rw [nodeRange, List.mem_map]
  constructor
  · rintro ⟨k, hk, rfl⟩
    rw [List.mem_range] at hk
    rwa [BitVec.toNat_ofNat, Nat.mod_eq_of_lt (by omega)]
  · exact fun hj => ⟨j.toNat, List.mem_range.mpr hj, by rw [BitVec.ofNat_toNat, BitVec.setWidth_eq]⟩

theorem nodeRange_nodup {n : Nat} (hn : n ≤ 1024) : (nodeRange n).Nodup := by
  refine List.nodup_range.map_on fun a ha b hb h => ?_
  rw [List.mem_range] at ha hb
  have hidx := congrArg BitVec.toNat h
  rwa [BitVec.toNat_ofNat, BitVec.toNat_ofNat, Nat.mod_eq_of_lt (by omega), Nat.mod_eq_of_lt (by omega)] at hidx

/-! ## A tree at an index -/

section Held
variable {s : State} {i j : NodeIdx} {t u : Tree}

/-- An index holds one tree at most. -/
theorem holds_unique (ht : holds s i t = true) (hu : holds s i u = true) : t = u := by
  induction t generalizing i u with
  | leaf x =>
    obtain ⟨hleaf, rfl⟩ := holds_leaf_iff.mp ht
    cases u with
    | leaf y => rw [(holds_leaf_iff.mp hu).2]
    | node l r => rw [leaf_false_of_holds_node hu] at hleaf; cases hleaf
  | node l r hl hr =>
    cases u with
    | leaf y =>
      obtain ⟨hleaf, -⟩ := holds_leaf_iff.mp hu
      rw [leaf_false_of_holds_node ht] at hleaf; cases hleaf
    | node l' r' =>
      obtain rfl : l = l' := hl (holds_child ht false) (holds_child hu false)
      obtain rfl : r = r' := hr (holds_child ht true) (holds_child hu true)
      rfl

theorem indices_length (s : State) (i : NodeIdx) (t : Tree) : (indices s i t).length = t.size := by
  induction t generalizing i with
  | leaf x => rfl
  | node l r hl hr => rw [indices, List.length_cons, List.length_append, hl, hr, Tree.size]

theorem mem_indices_self (s : State) (i : NodeIdx) (t : Tree) : i ∈ indices s i t := by
  cases t <;> exact List.mem_cons_self

theorem sym_mem_leaves (h : holds s i t = true) (hj : j ∈ indices s i t) (hleaf : (s.nodeAt j).leaf = true) :
    (s.nodeAt j).sym ∈ t.leaves := by
  induction t generalizing i with
  | leaf x =>
    obtain rfl := List.mem_singleton.mp hj
    obtain ⟨-, rfl⟩ := holds_leaf_iff.mp h
    exact List.mem_singleton_self _
  | node l r hl hr =>
    rw [indices, List.mem_cons, List.mem_append] at hj
    obtain rfl | hj | hj := hj
    · rw [leaf_false_of_holds_node h] at hleaf; cases hleaf
    · exact List.mem_append_left _ (hl (holds_child h false) hj)
    · exact List.mem_append_right _ (hr (holds_child h true) hj)

/-- The children of an internal entry. -/
def children (s : State) (k : NodeIdx) : List NodeIdx :=
  if (s.nodeAt k).leaf then [] else [(s.nodeAt k).left, (s.nodeAt k).right]

theorem children_of_leaf (h : (s.nodeAt j).leaf = true) : children s j = [] := if_pos h

theorem children_of_internal (h : (s.nodeAt j).leaf = false) : children s j = [(s.nodeAt j).left, (s.nodeAt j).right] :=
  if_neg (by rw [h]; decide)

/-- Every index of a tree but the one it stands at is a child of one of them, each once. -/
theorem indices_perm_children (h : holds s i t = true) :
    (indices s i t).Perm (i :: (indices s i t).flatMap (children s)) := by
  induction t generalizing i with
  | leaf x =>
    obtain ⟨hleaf, -⟩ := holds_leaf_iff.mp h
    rw [indices, List.flatMap_singleton, children_of_leaf hleaf]
  | node l r hl hr =>
    have hleft := hl (holds_child h false)
    have hright := hr (holds_child h true)
    rw [indices, List.flatMap_cons, children_of_internal (leaf_false_of_holds_node h), List.flatMap_append]
    refine ((hleft.append hright).trans ?_).cons i
    rw [List.cons_append, List.cons_append, List.cons_append, List.nil_append]
    exact List.perm_middle.cons _

end Held

/-- A tree of `n` levels below its root has at least `2 n + 1` nodes. -/
theorem two_mul_depth_lt_size (t : Tree) : 2 * t.depth < t.size := by
  induction t with
  | leaf x => exact Nat.one_pos
  | node l r hl hr => rw [Tree.depth, Tree.size]; omega

/-! ## The tree the block holds -/

section TreeIs
variable {s : State} {t u : Tree} (h : TreeIs s t)
include h

theorem treeIs_size : t.size = s.ncount.toNat := by
  obtain ⟨-, hperm, -⟩ := h
  rw [← indices_length s s.root t, hperm.length_eq, nodeRange_length]

theorem treeIs_ncount_le : s.ncount.toNat ≤ 513 := by
  obtain ⟨-, -, hle, -⟩ := h
  exact hle

theorem treeIs_mem_indices {j : NodeIdx} : j ∈ indices s s.root t ↔ j.toNat < s.ncount.toNat := by
  have hle := treeIs_ncount_le h
  obtain ⟨-, hperm, -⟩ := h
  rw [hperm.mem_iff, mem_nodeRange (by omega)]

theorem treeIs_unique (hu : TreeIs s u) : u = t := by
  obtain ⟨ht, -⟩ := h
  obtain ⟨hu, -⟩ := hu
  exact holds_unique hu ht

theorem treeIs_depth_le : t.depth ≤ (s.ncount.toNat - 1) / 2 ∧ (s.ncount.toNat - 1) / 2 ≤ 256 := by
  have hdepth := two_mul_depth_lt_size t
  have hsize := treeIs_size h
  have hle := treeIs_ncount_le h
  omega

theorem treeIs_sym_le {x : Sym} (hx : x ∈ t.leaves) : x.toNat ≤ 256 := by
  obtain ⟨-, -, -, -, hsym⟩ := h
  exact of_decide_eq_true (List.all_eq_true.mp hsym x hx)

/-- The children on the indices below NCOUNT are these indices but ROOT. -/
theorem treeIs_perm_children : (nodeRange s.ncount.toNat).Perm (s.root :: (nodeRange s.ncount.toNat).flatMap (children s)) := by
  obtain ⟨hholds, hperm, -⟩ := h
  exact hperm.symm.trans ((indices_perm_children hholds).trans ((hperm.flatMap_right _).cons _))

theorem treeIs_children_nodup : ((nodeRange s.ncount.toNat).flatMap (children s)).Nodup := by
  have hnodup := (treeIs_perm_children h).nodup_iff.mp (nodeRange_nodup ((treeIs_ncount_le h).trans (by decide)))
  exact hnodup.of_cons

theorem treeIs_child_lt {i j : NodeIdx} (hi : i.toNat < s.ncount.toNat) (hj : j ∈ children s i) :
    j.toNat < s.ncount.toNat := by
  have hle : s.ncount.toNat ≤ 1024 := (treeIs_ncount_le h).trans (by decide)
  have hmem : j ∈ (nodeRange s.ncount.toNat).flatMap (children s) :=
    List.mem_flatMap.mpr ⟨i, (mem_nodeRange hle).mpr hi, hj⟩
  exact (mem_nodeRange hle).mp ((treeIs_perm_children h).mem_iff.mpr (List.mem_cons_of_mem _ hmem))

theorem treeIs_children_nodup_at {i : NodeIdx} (hi : i.toNat < s.ncount.toNat) : (children s i).Nodup := by
  have hle : s.ncount.toNat ≤ 1024 := (treeIs_ncount_le h).trans (by decide)
  exact (List.nodup_flatMap.mp (treeIs_children_nodup h)).1 i ((mem_nodeRange hle).mpr hi)

end TreeIs

/-- Whether entry `i` is internal and has `j` as a child. -/
def isParent (s : State) (j i : NodeIdx) : Bool :=
  !(s.nodeAt i).leaf && ((s.nodeAt i).left == j || (s.nodeAt i).right == j)

theorem isParent_iff {s : State} {i j : NodeIdx} : isParent s j i = true ↔ j ∈ children s i := by
  cases hleaf : (s.nodeAt i).leaf with
  | true => simp [isParent, hleaf, children_of_leaf hleaf]
  | false =>
    simp only [isParent, hleaf, children_of_internal hleaf, Bool.not_false, Bool.true_and, Bool.or_eq_true, beq_iff_eq,
      List.mem_cons, List.not_mem_nil, or_false]
    rw [eq_comm, eq_comm (b := j)]

/-- Where no entry has one child twice, the parents of `j` are as many as its occurrences as a child. -/
theorem length_filter_isParent {s : State} {l : List NodeIdx} (h : ∀ i ∈ l, (children s i).Nodup) (j : NodeIdx) :
    (l.filter (isParent s j)).length = (l.flatMap (children s)).count j := by
  induction l with
  | nil => rfl
  | cons i l ih =>
    rw [List.forall_mem_cons] at h
    obtain ⟨hi, hl⟩ := h
    rw [List.flatMap_cons, List.count_append, ← ih hl]
    by_cases hparent : isParent s j i = true
    · rw [List.filter_cons_of_pos hparent, List.length_cons, List.count_eq_one_of_mem hi (isParent_iff.mp hparent), Nat.add_comm]
    · rw [List.filter_cons_of_neg hparent, List.count_eq_zero.mpr fun hmem => hparent (isParent_iff.mpr hmem), Nat.zero_add]

/-- R34(d): every entry but ROOT is a child exactly once. -/
theorem treeIs_parents {s : State} {t : Tree} (h : TreeIs s t) {j : NodeIdx} (hj : j.toNat < s.ncount.toNat) :
    ((nodeRange s.ncount.toNat).filter (isParent s j)).length = if j = s.root then 0 else 1 := by
  have hle : s.ncount.toNat ≤ 1024 := (treeIs_ncount_le h).trans (by decide)
  have hcount : (nodeRange s.ncount.toNat).count j = 1 :=
    List.count_eq_one_of_mem (nodeRange_nodup hle) ((mem_nodeRange hle).mpr hj)
  rw [(treeIs_perm_children h).count_eq, List.count_cons] at hcount
  rw [length_filter_isParent fun i hi => treeIs_children_nodup_at h ((mem_nodeRange hle).mp hi)]
  by_cases hroot : j = s.root
  · rw [if_pos (beq_iff_eq.mpr hroot.symm)] at hcount
    rw [if_pos hroot]
    omega
  · rw [if_neg (fun e => hroot (beq_iff_eq.mp e).symm)] at hcount
    rw [if_neg hroot]
    omega

/-! ## The obligations -/

/-- Settles O41: the indices below NCOUNT are ROOT and the children on them, each once; the sizes add up over the tree. -/
theorem treeMeetsEachClauseOfR34 : Obligations.TreeMeetsEachClauseOfR34 := by
  unfold Obligations.TreeMeetsEachClauseOfR34
  intro s t h
  have hsize := treeIs_size h
  have hleaves := size_add_one t
  have ⟨hholds, _, hle, hnode, _⟩ := h
  refine ⟨?count, ?root, fun i hi hinternal => ?child, fun j hj => treeIs_parents h hj, ⟨hsize, by omega⟩,
    fun i hi hleaf => treeIs_sym_le h (sym_mem_leaves hholds ((treeIs_mem_indices h).mpr hi) hleaf),
    fun u hu => treeIs_unique h hu⟩
  case count =>
    cases t with
    | leaf x => cases hnode
    | node l r =>
      have hl := two_mul_depth_lt_size l
      have hr := two_mul_depth_lt_size r
      rw [Tree.size] at hsize hleaves
      exact ⟨by omega, hle, by omega⟩
  case root =>
    refine ⟨(treeIs_mem_indices h).mp (mem_indices_self s s.root t), ?_⟩
    cases t with
    | leaf x => cases hnode
    | node l r => exact leaf_false_of_holds_node hholds
  case child =>
    have hnodup := treeIs_children_nodup_at h hi
    have hchild : ∀ j ∈ children s i, j.toNat < s.ncount.toNat := fun j hj => treeIs_child_lt h hi hj
    rw [children_of_internal hinternal] at hnodup hchild
    simpa [and_assoc] using And.intro hchild hnodup

/-- Settles O42: TREE_VALID vouches for a tree, which has more nodes than twice its depth. -/
theorem validTreeDepthBound : Obligations.ValidTreeDepthBound := by
  unfold Obligations.ValidTreeDepthBound
  intro s hinv hvalid
  obtain ⟨t, ht⟩ := hinv.tree hvalid
  exact ⟨t, ht, treeIs_depth_le ht⟩

end Sys2Proof.Machine
end

section
/-!
PROOFS. HDRW on the tree the block holds (43_header_codec R162, R163).
-/
namespace Sys2Proof.Machine

theorem ser_length (t : Tree) : t.ser.length = 11 * t.leaves.length - 1 := by
  have h := ser_length_add_one t
  omega

/-- The steps of HDRW on the tree the block holds. -/
theorem hdrwBody_treeIs {s : State} {t : Tree} (h : TreeIs s t) :
    hdrwBody s = .ok { s with bout := s.bout ++ t.ser, boutCnt := s.boutCnt + BitVec.ofNat 64 t.ser.length } := by
  obtain ⟨hdepth, hbound⟩ := treeIs_depth_le h
  obtain ⟨hholds, -⟩ := h
  rw [hdrwBody_tree hholds (hdepth.trans hbound), foldl_bitWrite]

/-- TREE_VALID's meaning looks at NODE, ROOT and NCOUNT only. -/
theorem treeIs_congr {s u : State} {t : Tree} (h : TreeIs s t) (hnode : u.node = s.node) (hroot : u.root = s.root)
    (hncount : u.ncount = s.ncount) : TreeIs u t := by
  obtain ⟨hholds, hperm, hle, ht⟩ := h
  have hindices : ∀ i t, indices u i t = indices s i t := fun i t => by
    induction t generalizing i with
    | leaf x => rfl
    | node l r hl hr => rw [indices, indices, hl, hr, nodeAt_of_node_eq hnode]
  exact ⟨hroot ▸ holds_of_node_eq hholds hnode, by rw [hindices, hroot, hncount]; exact hperm, hncount ▸ hle, ht⟩

theorem exec_hdrw_treeIs {s : State} {t : Tree} (hs : Ready s) (hvalid : s.treeValid = true) (h : TreeIs s t) :
    exec .hdrw s = .next { s with
      cmd := 0x05, seq := .done, bout := s.bout ++ t.ser, boutCnt := s.boutCnt + BitVec.ofNat 64 t.ser.length } :=
  (runCommand_ready hs).trans
    (accept_ok hvalid (hdrwBody_treeIs (s := { s with cmd := 0x05, seq := .busy }) (treeIs_congr h rfl rfl rfl)))

/-- Settles O45: `emit` writes the serialisation of the tree at ROOT, which no walk of 257 levels cuts off. -/
theorem hdrwResult : Obligations.HdrwResult := by
  unfold Obligations.HdrwResult
  refine ⟨rfl, fun s hs hvalid => runCommand_precondition hs hvalid, fun s t hs hvalid h => ⟨?_, ser_length t, fun x hx =>
    treeIs_sym_le h hx⟩⟩
  rw [exec_hdrw_treeIs hs hvalid h, ser_length]

end Sys2Proof.Machine
end

section
/-!
PROOFS. HDRR (43_header_codec R166, R170): the tree it stores in pre-order, and the headers it rejects.
-/
namespace Sys2Proof.Machine

/-! ## A tree stored in pre-order -/

/-- The entries from index `n` on are those of a tree read by `rd()`: numbered in pre-order, weights 0. -/
def StoredAt (u : State) : Tree → Nat → Prop
  | .leaf x, n => u.nodeAt (BitVec.ofNat 10 n) = leafRec x 0
  | .node l r, n =>
    u.nodeAt (BitVec.ofNat 10 n) = internalRec 0 (BitVec.ofNat 10 (n + 1)) (BitVec.ofNat 10 (n + 1 + l.size)) ∧
      StoredAt u l (n + 1) ∧ StoredAt u r (n + 1 + l.size)

theorem StoredAt.congr {s u : State} {t : Tree} {n : Nat} (h : StoredAt s t n)
    (hsame : ∀ k, n ≤ k → k < n + t.size → u.nodeAt (BitVec.ofNat 10 k) = s.nodeAt (BitVec.ofNat 10 k)) : StoredAt u t n := by
  induction t generalizing n with
  | leaf x => exact (hsame n le_rfl (Nat.lt_succ_self n)).trans h
  | node l r hl hr =>
    obtain ⟨hroot, hleft, hright⟩ := h
    rw [Tree.size] at hsame
    exact ⟨(hsame n le_rfl (by omega)).trans hroot, hl hleft fun k _ _ => hsame k (by omega) (by omega),
      hr hright fun k _ _ => hsame k (by omega) (by omega)⟩

theorem storedAt_storeTree {t : Tree} {n : Nat} (s : State) (hn : n + t.size ≤ 513) : StoredAt (storeTree t n s) t n := by
  induction t generalizing n s with
  | leaf x => exact nodeAt_setNode_self s _ hn
  | node l r hl hr =>
    rw [Tree.size] at hn
    refine ⟨nodeAt_setNode_self _ _ (by omega), (hl s (n := n + 1) (by omega)).congr fun k hlow hhigh => ?_,
      (hr (storeTree l (n + 1) s) (n := n + 1 + l.size) (by omega)).congr fun k hlow hhigh => ?_⟩
    · rw [storeTree, nodeAt_setNode_ofNat_ne _ _ (by omega) (by omega) (by omega),
        nodeAt_storeTree_of_lt r _ (by omega) (by omega)]
    · rw [storeTree, nodeAt_setNode_ofNat_ne _ _ (by omega) (by omega) (by omega)]

theorem StoredAt.weight {u : State} {t : Tree} {n k : Nat} (h : StoredAt u t n) (hlow : n ≤ k) (hhigh : k < n + t.size) :
    (u.nodeAt (BitVec.ofNat 10 k)).weight = 0 := by
  induction t generalizing n with
  | leaf x =>
    obtain rfl : k = n := by rw [Tree.size] at hhigh; omega
    rw [show u.nodeAt (BitVec.ofNat 10 k) = leafRec x 0 from h, leafRec]
  | node l r hl hr =>
    obtain ⟨hroot, hleft, hright⟩ := h
    rw [Tree.size] at hhigh
    obtain rfl | hroom := hlow.eq_or_lt
    · rw [hroot, internalRec]
    · by_cases hk : k < n + 1 + l.size
      · exact hl hleft hroom hk
      · exact hr hright (by omega) (by omega)

theorem StoredAt.indices {u : State} {t : Tree} {n : Nat} (h : StoredAt u t n) :
    indices u (BitVec.ofNat 10 n) t = (List.range' n t.size).map (BitVec.ofNat 10) := by
  induction t generalizing n with
  | leaf x => rfl
  | node l r hl hr =>
    obtain ⟨hroot, hleft, hright⟩ := h
    have hsplit : List.range' n (l.size + r.size + 1) =
        n :: (List.range' (n + 1) l.size ++ List.range' (n + 1 + l.size) r.size) := by
      rw [List.range'_append_1, List.range'_succ]
    rw [Machine.indices, hroot]
    simp only [internalRec, hl hleft, hr hright, Tree.size, hsplit, List.map_cons, List.map_append]

theorem StoredAt.indices_zero {u : State} {t : Tree} (h : StoredAt u t 0) : Machine.indices u 0 t = nodeRange t.size := by
  rw [nodeRange, List.range_eq_range']
  exact h.indices

section HeaderRead
variable {s : State} {t : Tree}

theorem storedAt_headerRead (hsize : t.size ≤ 513) : StoredAt (s.headerRead t) t 0 :=
  (storedAt_storeTree (s.dropTree.dropCodes.skipBin t.ser.length) (n := 0) (by omega)).congr fun _ _ _ => rfl

theorem treeIs_headerRead (hnode : t.isNode = true) (hsym : t.symsOk = true) (hsize : t.size ≤ 513) :
    TreeIs (s.headerRead t) t := by
  have hncount : (s.headerRead t).ncount.toNat = t.size := (BitVec.toNat_ofNat ..).trans (Nat.mod_eq_of_lt (by omega))
  refine ⟨holds_headerRead hsize, ?_, hncount ▸ hsize, hnode, hsym⟩
  rw [hncount, show (s.headerRead t).root = 0 from rfl, (storedAt_headerRead hsize).indices_zero]

/-- HDRR on the serialisation of a tree (R166). -/
theorem exec_hdrr_tree {rest : List Bit} (hs : Ready s) (hbin : s.binRest = t.ser ++ rest) (hnode : t.isNode = true)
    (hsym : t.symsOk = true) (hsize : t.size ≤ 513) :
    exec .hdrr s = .next { State.headerRead { s with cmd := 0x06, seq := .busy } t with seq := .done } :=
  (runCommand_ready hs).trans (accept_ok rfl (hdrrBody_tree (s := { s with cmd := 0x06, seq := .busy }) hbin hnode hsym hsize))

end HeaderRead

/-- Settles O46: `rd()` stores the tree it reads in pre-order from index 0 on; the tree of another block is read the same way. -/
theorem hdrrInvertsHdrw : Obligations.HdrrInvertsHdrw := by
  unfold Obligations.HdrrInvertsHdrw
  refine ⟨fun s t rest hs hnode hsize hsym hbin => ?one, fun a a' b t written rest ha hvalid ht hhdrw hbout hb hbin => ?two⟩
  case one =>
    have hstored := (storedAt_headerRead (s := { s with cmd := 0x06, seq := .busy }) hsize).congr
      (u := { State.headerRead { s with cmd := 0x06, seq := .busy } t with seq := .done }) fun _ _ _ => rfl
    refine ⟨_, exec_hdrr_tree hs hbin hnode hsym hsize, ?frame, treeIs_congr (treeIs_headerRead hnode hsym hsize) rfl rfl rfl,
      hstored.indices_zero, fun k hk => hstored.weight (Nat.zero_le k) (by omega)⟩
    case frame => rw [headerRead_frame]; rfl
  case two =>
    have hsize := (treeIs_size ht).trans_le (treeIs_ncount_le ht)
    have ⟨_, _, _, hnode, hsym⟩ := ht
    obtain rfl : written = t.ser := by
      rw [exec_hdrw_treeIs ha hvalid ht] at hhdrw
      cases hhdrw
      exact (List.append_cancel_left hbout).symm
    exact ⟨_, exec_hdrr_tree hb hbin hnode hsym hsize, treeIs_congr (treeIs_headerRead hnode hsym hsize) rfl rfl rfl⟩

/-! ## Headers that are rejected -/

/-- A leaf of a reserved symbol, its nine bits consumed (R170). -/
theorem rdRaises_reserved {n : Nat} {x : Sym} (hn : n < 513) (hx : 256 < x.toNat) (rest : List Bit) :
    RdRaises n (true :: (bitsN 9 x.toNat ++ rest)) .fmtSym (BitVec.ofNat 32 x.toNat) 10 := by
  intro levels s _ hbin
  have hfield : s.advanceBin.binRest = bitsN 9 x.toNat ++ rest := binRest_advanceBin_of_cons hbin
  have hroom : n ≠ Config.nnode := Nat.ne_of_lt hn
  have hsym : Config.eos < x.toNat := hx
  refine ⟨(s.skipBin 10).node, ?_⟩
  simp only [rd, bitRead_cons hbin, if_neg hroom, if_true, bitsRead_word hfield, if_pos hsym, State.skipBin_advanceBin]

/-- The tag bit of a 514th node (R170). -/
theorem rdRaises_overflow (tag : Bit) (rest : List Bit) : RdRaises 513 (tag :: rest) .fmtTreeOvf 513 1 := by
  intro levels s _ hbin
  have hfull : 513 = Config.nnode := rfl
  refine ⟨s.node, ?_⟩
  simp only [rd, bitRead_cons hbin, if_pos hfull]
  rfl

/-- A lone leaf is no tree (R166). -/
theorem hdrrBody_lone_leaf {s : State} {x : Sym} {rest : List Bit} (hbin : s.binRest = true :: (bitsN 9 x.toNat ++ rest))
    (hx : x.toNat ≤ 256) :
    hdrrBody s = .raised .fmtRootLeaf (BitVec.ofNat 32 x.toNat)
      ((s.dropTree.dropCodes.skipBin 10).setNode (BitVec.ofNat 10 0) (leafRec x 0)).dropTree := by
  have hrd := rd_leaf (s := s.dropTree.dropCodes) (levels := Config.nnode) hbin (n := 0) (by decide) hx
  have hroot := nodeAt_setNode_self (s.dropTree.dropCodes.skipBin 10) (leafRec x 0) (n := 0) (by decide)
  simp only [hdrrBody, hrd, hroot, BitVec.ofNat_toNat]
  exact if_pos rfl

/-- Settles O48: the lone leaf is rejected after `rd()`, the reserved symbol and the 514th node by it. -/
theorem hdrrRejectsLoneLeafAndOversizeTree : Obligations.HdrrRejectsLoneLeafAndOversizeTree := by
  unfold Obligations.HdrrRejectsLoneLeafAndOversizeTree
  refine ⟨fun s x rest hs hx hbin => ?lone, fun s rs x rest hs hrs hlen hx hbin => RdRaises.hdrrRaises (e := .fmtSym) hs ?reserved,
    fun s rs tag rest hs hrs hlen hbin => RdRaises.hdrrRaises (e := .fmtTreeOvf) hs ?oversize⟩
  case lone =>
    exact ⟨_, runCommand_raised hs rfl (hdrrBody_lone_leaf (s := { s with cmd := 0x06, seq := .busy }) hbin hx), rfl⟩
  case reserved =>
    rw [List.append_assoc] at hbin
    exact hbin ▸ RdRaises.of_records hrs (n := 0) (by omega) (rdRaises_reserved (by omega) hx rest)
  case oversize =>
    have hraises := rdRaises_overflow tag rest
    exact hbin ▸ RdRaises.of_records hrs (n := 0) (by omega) (by rwa [hlen])

end Sys2Proof.Machine
end

section
/-!
PROOFS. The codes of a tree (42_code_table_deriver R151, R153): a code is the path to a leaf of its symbol, and no leaf's path goes
on to another leaf.
-/
namespace Sys2Proof.Machine

theorem reach_append (t : Tree) (p q : List Bit) : t.reach (p ++ q) = (t.reach p).bind (·.reach q) := by
  induction p generalizing t with
  | nil => cases t <;> rfl
  | cons b p ih =>
    cases t with
    | leaf x => rfl
    | node l r => exact ih _

/-- From a leaf no bit leads on. -/
theorem nil_of_leaf_reach {x : Sym} {p : List Bit} {v : Tree} (h : (Tree.leaf x).reach p = some v) : p = [] := by
  cases p with
  | nil => rfl
  | cons b p => cases h

theorem reach_leaf_of_prefix {t : Tree} {p q : List Bit} {x y : Sym} (hp : t.reach p = some (.leaf x))
    (hq : t.reach q = some (.leaf y)) (hpq : p <+: q) : x = y := by
  obtain ⟨c, rfl⟩ := hpq
  rw [reach_append, hp, Option.bind_some] at hq
  obtain rfl := nil_of_leaf_reach hq
  cases hq
  rfl

/-- A path cut short ends at an internal node. -/
theorem reach_node_of_strict_prefix {t w : Tree} {p q : List Bit} (hq : t.reach q = some w) (hpq : p <+: q)
    (hlen : p.length < q.length) : ∃ v, t.reach p = some v ∧ v.isNode = true := by
  obtain ⟨c, rfl⟩ := hpq
  rw [reach_append, Option.bind_eq_some_iff] at hq
  obtain ⟨v, hv, hc⟩ := hq
  refine ⟨v, hv, ?_⟩
  cases v with
  | leaf x =>
    rw [nil_of_leaf_reach hc, List.append_nil] at hlen
    exact absurd hlen (Nat.lt_irrefl _)
  | node l r => rfl

theorem length_le_depth_of_reach {t v : Tree} {p : List Bit} (h : t.reach p = some v) : p.length ≤ t.depth := by
  induction t generalizing p with
  | leaf x => rw [nil_of_leaf_reach h]; exact Nat.zero_le _
  | node l r hl hr =>
    rw [Tree.depth]
    match p, h with
    | [], _ => exact Nat.zero_le _
    | false :: p, h => have hlen := hl h; rw [List.length_cons]; omega
    | true :: p, h => have hlen := hr h; rw [List.length_cons]; omega

/-- A code leads from the root to a leaf of its symbol. -/
theorem reach_of_code {t : Tree} {x : Sym} {p : List Bit} (h : t.code x = some p) : t.reach p = some (.leaf x) := by
  induction t generalizing p with
  | leaf y =>
    rw [Tree.code] at h
    split at h
    next hxy => cases h; rw [← hxy]; rfl
    next => cases h
  | node l r hl hr =>
    rw [Tree.code] at h
    split at h
    next q hq => cases h; exact hr hq
    next =>
      obtain ⟨q, hq, rfl⟩ := Option.map_eq_some_iff.mp h
      exact hl hq

theorem code_isSome_iff {t : Tree} {x : Sym} : (t.code x).isSome = true ↔ x ∈ t.leaves := by
  induction t with
  | leaf y =>
    rw [Tree.code, Tree.leaves, List.mem_singleton]
    by_cases hxy : y = x
    · simp [hxy]
    · simp [hxy, Ne.symm hxy]
  | node l r hl hr =>
    rw [Tree.code, Tree.leaves, List.mem_append, ← hl, ← hr]
    cases r.code x with
    | none => simp
    | some p => simp

/-! ## Entries of the code table (R37) -/

theorem bitsVal_concat (p : List Bit) (b : Bit) : bitsVal (p ++ [b]) = 2 * bitsVal p + b.toNat := by
  rw [bitsVal, List.foldl_append, List.foldl_cons, List.foldl_nil, bitsVal]

theorem ofNat_shiftLeft_one (n v : Nat) : BitVec.ofNat n v <<< 1 = BitVec.ofNat n (2 * v) := by
  apply BitVec.eq_of_toNat_eq
  rw [BitVec.toNat_shiftLeft, BitVec.toNat_ofNat, BitVec.toNat_ofNat, Nat.shiftLeft_eq, Nat.pow_one, Nat.mod_mul_mod, Nat.mul_comm]

/-- One level down to the left: a 0 at the end of the code. -/
theorem codeEntry_left (pre : List Bit) :
    codeEntry (some (pre ++ [false])) =
      { len := (codeEntry (some pre)).len + 1, val := (codeEntry (some pre)).val <<< 1 } := by
  simp only [codeEntry, List.length_append, List.length_singleton, bitsVal_concat, ofNat_shiftLeft_one, BitVec.ofNat_add,
    Bool.toNat_false, Nat.add_zero, BitVec.ofNat_eq_ofNat]

/-- One level down to the right: a 1 at the end of the code. -/
theorem codeEntry_right (pre : List Bit) :
    codeEntry (some (pre ++ [true])) =
      { len := (codeEntry (some pre)).len + 1, val := (codeEntry (some pre)).val <<< 1 ||| 1 } := by
  have hor : BitVec.ofNat 256 (2 * bitsVal pre) ||| 1#256 = BitVec.ofNat 256 (2 * bitsVal pre) + 1#256 := by
    rw [← ofNat_shiftLeft_one]
    refine (BitVec.add_eq_or_of_and_eq_zero _ _ ?_).symm
    ext k hk
    by_cases h0 : k = 0 <;> simp [h0]
  simp only [codeEntry, List.length_append, List.length_singleton, bitsVal_concat, ofNat_shiftLeft_one, BitVec.ofNat_add,
    Bool.toNat_true, BitVec.ofNat_eq_ofNat, hor]

/-- The entry of a code of at most 256 bits gives the code back. -/
theorem codeBits_of_codeEntry {s : State} {x : Nat} {c : Option (List Bit)} (h : s.codeAt x = codeEntry c)
    (hlen : ∀ p, c = some p → p.length ≤ 256) : codeBits s x = c.getD [] := by
  rw [codeBits, h]
  cases c with
  | none => rfl
  | some p =>
    have hp := hlen p rfl
    have hval : bitsVal p < 2 ^ 256 := (bitsVal_lt p).trans_le (Nat.pow_le_pow_right (by decide) hp)
    rw [codeEntry, BitVec.toNat_ofNat, BitVec.toNat_ofNat, Nat.mod_eq_of_lt (by omega), Nat.mod_eq_of_lt hval, bitsN_bitsVal]
    rfl

theorem code_isSome_of_len_ne_zero {c : Option (List Bit)} (h : (codeEntry c).len ≠ 0) : c.isSome = true := by
  cases c with
  | none => exact absurd rfl h
  | some p => rfl

end Sys2Proof.Machine
end

section
/-!
PROOFS. DERIVE (42_code_table_deriver R150 to R156): its walk writes the code of every symbol on a leaf.
-/
namespace Sys2Proof.Machine

/-- The walk of a subtree at the end of the path `pre` writes the codes that go on from `pre`, and no other entry. -/
theorem walk_tree {s : State} {i : NodeIdx} {t : Tree} {levels : Nat} (pre : List Bit) (h : holds s i t = true)
    (hsym : t.symsOk = true) (hlevels : t.depth < levels) :
    ∃ u, walk levels i (codeEntry (some pre)).len (codeEntry (some pre)).val s = .ok u ∧ u = { s with code := u.code } ∧
      ∀ x : Nat, x ≤ 256 →
        u.codeAt x = (t.code (BitVec.ofNat 9 x)).elim (s.codeAt x) (fun p => codeEntry (some (pre ++ p))) := by
  induction t generalizing s i levels pre with
  | leaf y =>
    obtain ⟨levels, rfl⟩ : ∃ k, levels = k + 1 := ⟨levels - 1, by omega⟩
    have hy : y.toNat ≤ 256 := of_decide_eq_true (List.all_eq_true.mp hsym y (List.mem_singleton_self y))
    refine ⟨_, walk_leaf levels _ _ h, rfl, fun x hx => ?_⟩
    rw [codeAt_setCode s y.toNat x _ (by omega), Tree.code]
    by_cases hxy : x = y.toNat
    · have hsame : y = BitVec.ofNat 9 x := by rw [hxy, BitVec.ofNat_toNat, BitVec.setWidth_eq]
      rw [if_pos hxy, if_pos hsame, Option.elim_some, List.append_nil]
    · have hother : y ≠ BitVec.ofNat 9 x := by
        rintro rfl
        rw [BitVec.toNat_ofNat, Nat.mod_eq_of_lt (by omega)] at hxy
        exact hxy rfl
      rw [if_neg hxy, if_neg hother, Option.elim_none]
  | node l r hl hr =>
    obtain ⟨levels, rfl⟩ : ∃ k, levels = k + 1 := ⟨levels - 1, by omega⟩
    rw [Tree.depth] at hlevels
    obtain ⟨hsymL, hsymR⟩ : l.symsOk = true ∧ r.symsOk = true := by
      simpa only [Tree.symsOk, Tree.leaves, List.all_append, Bool.and_eq_true] using hsym
    obtain ⟨u, hleft, hu, hcodeL⟩ := hl (pre ++ [false]) (holds_child h false) hsymL (levels := levels) (by omega)
    obtain ⟨v, hright, hv, hcodeR⟩ := hr (pre ++ [true]) (s := u) (holds_of_node_eq (holds_child h true) (by rw [hu])) hsymR
      (levels := levels) (by omega)
    rw [codeEntry_left] at hleft
    rw [codeEntry_right] at hright
    refine ⟨v, ?_, by rw [hv, hu], fun x hx => ?_⟩
    · rw [walk_node levels _ _ (leaf_false_of_holds_node h)]
      exact (congrArg (fun run : Run => run.andThen _) hleft).trans hright
    · rw [hcodeR x hx, hcodeL x hx, Tree.code]
      cases r.code (BitVec.ofNat 9 x) with
      | some p => rw [Option.elim_some, Option.elim_some, List.append_assoc]; rfl
      | none =>
        cases l.code (BitVec.ofNat 9 x) with
        | some p => rw [Option.elim_none, Option.elim_some, List.append_assoc]; rfl
        | none => rfl

/-- The steps of DERIVE on the tree the block holds. -/
theorem deriveBody_treeIs {s : State} {t : Tree} (h : TreeIs s t) :
    ∃ u, deriveBody s = .ok u ∧ u = { s with codeValid := true, code := u.code, freeCtr := u.freeCtr } ∧
      ∀ x : Nat, x ≤ 256 → u.codeAt x = codeEntry (t.code (BitVec.ofNat 9 x)) := by
  obtain ⟨hdepth, hbound⟩ := treeIs_depth_le h
  obtain ⟨hholds, -, -, -, hsym⟩ := h
  obtain ⟨u, hwalk, hu, hcode⟩ := walk_tree (levels := walkLevels)
    (s := { s.dropCodes with code := Vector.replicate 257 { len := 0, val := 0 } }) [] (holds_of_node_eq hholds rfl) hsym
    (Nat.lt_succ_of_le (hdepth.trans hbound))
  have hbody : deriveBody s = .ok { u with codeValid := true } :=
    congrArg (fun run : Run => run.andThen fun t => .ok { t with codeValid := true }) hwalk
  refine ⟨_, hbody, by rw [hu]; rfl, fun x hx => (hcode x hx).trans ?_⟩
  have hx' : x < 257 := Nat.lt_succ_of_le hx
  cases t.code (BitVec.ofNat 9 x) with
  | some p => rfl
  | none => simp [State.codeAt, hx', codeEntry]

/-- The codes of the tree the block holds have 1 to 256 bits (R152). -/
theorem treeIs_code_length {s : State} {t : Tree} (h : TreeIs s t) {x : Sym} {p : List Bit} (hp : t.code x = some p) :
    1 ≤ p.length ∧ p.length ≤ 256 := by
  obtain ⟨hdepth, hbound⟩ := treeIs_depth_le h
  obtain ⟨-, -, -, hnode, -⟩ := h
  have hreach := reach_of_code hp
  exact ⟨List.length_pos_of_ne_nil (path_ne_nil_of_reach_leaf hnode hreach),
    (length_le_depth_of_reach hreach).trans (hdepth.trans hbound)⟩

theorem codeBits_treeIs {s u : State} {t : Tree} (h : TreeIs s t) {x : Nat}
    (hx : u.codeAt x = codeEntry (t.code (BitVec.ofNat 9 x))) : codeBits u x = (t.code (BitVec.ofNat 9 x)).getD [] :=
  codeBits_of_codeEntry hx fun _ hp => (treeIs_code_length h hp).2

/-- DERIVE on the tree the block holds (R150). -/
theorem exec_derive_treeIs {s : State} {t : Tree} (hs : Ready s) (hvalid : s.treeValid = true) (h : TreeIs s t) :
    ∃ u, exec .derive s = .next u ∧
      u = { s with cmd := 0x04, seq := .done, codeValid := true, code := u.code, freeCtr := u.freeCtr } ∧
      ∀ x : Nat, x ≤ 256 → u.codeAt x = codeEntry (t.code (BitVec.ofNat 9 x)) := by
  obtain ⟨u, hbody, hu, hcode⟩ := deriveBody_treeIs (s := { s with cmd := 0x04, seq := .busy }) (treeIs_congr h rfl rfl rfl)
  exact ⟨_, (runCommand_ready hs).trans (accept_ok hvalid hbody), by rw [hu]; rfl, hcode⟩

/-- Settles O43: the walk of the tree at ROOT writes each code over a table of `{0, 0}`, and a code is no longer than the tree is
deep. -/
theorem deriveResult : Obligations.DeriveResult := by
  unfold Obligations.DeriveResult
  refine ⟨rfl, fun s hs hvalid => runCommand_precondition hs hvalid, fun s t hs hvalid h => ?_⟩
  obtain ⟨u, hexec, hu, hcode⟩ := exec_derive_treeIs hs hvalid h
  exact ⟨u, hexec, hu, hcode, fun x p hp => treeIs_code_length h hp, fun x hx => codeBits_treeIs h (hcode x hx)⟩

/-- Settles O44: two codes lead to two leaves, and the path of a leaf goes on to no other. -/
theorem derivedCodesArePrefixFree : Obligations.DerivedCodesArePrefixFree := by
  unfold Obligations.DerivedCodesArePrefixFree
  intro s u t hs hvalid h hexec a b ha hb hab hlenA hlenB hprefix
  obtain ⟨u', hexec', -, hcode⟩ := exec_derive_treeIs hs hvalid h
  obtain rfl : u = u' := by rw [hexec'] at hexec; cases hexec; rfl
  rw [hcode a ha] at hlenA
  rw [hcode b hb] at hlenB
  obtain ⟨p, hp⟩ := Option.isSome_iff_exists.mp (code_isSome_of_len_ne_zero hlenA)
  obtain ⟨q, hq⟩ := Option.isSome_iff_exists.mp (code_isSome_of_len_ne_zero hlenB)
  rw [codeBits_treeIs h (hcode a ha), codeBits_treeIs h (hcode b hb), hp, hq, Option.getD_some, Option.getD_some] at hprefix
  have hsame := congrArg BitVec.toNat (reach_leaf_of_prefix (reach_of_code hp) (reach_of_code hq) hprefix)
  rw [BitVec.toNat_ofNat, BitVec.toNat_ofNat, Nat.mod_eq_of_lt (by omega), Nat.mod_eq_of_lt (by omega)] at hsame
  exact hab hsame

end Sys2Proof.Machine
end

section
/-!
PROOFS. The payload encoder ENC (44_payload_encoder R180 to R182).
-/
namespace Sys2Proof.Machine

theorem codeBits_of_code_eq {s t : State} (h : t.code = s.code) (x : Nat) : codeBits t x = codeBits s x := by
  rw [codeBits, codeBits, codeAt_of_code_eq h]

/-- SIN with `n` more bytes read and counted, and BOUT with more bits written and counted. -/
def State.encode (s : State) (n : Nat) (bits : List Bit) : State :=
  { s with
    sinPos := s.sinPos + n, sinCnt := s.sinCnt + BitVec.ofNat 64 n,
    bout := s.bout ++ bits, boutCnt := s.boutCnt + BitVec.ofNat 64 bits.length }

theorem State.encode_zero (s : State) : s.encode 0 [] = s := by simp [State.encode]

theorem State.encode_encode (s : State) (j k : Nat) (p q : List Bit) :
    (s.encode j p).encode k q = s.encode (j + k) (p ++ q) := by
  simp only [State.encode, List.length_append, BitVec.ofNat_add, BitVec.add_assoc, Nat.add_assoc, List.append_assoc]

theorem State.advanceSin_eq_encode (s : State) : s.advanceSin = s.encode 1 [] := by
  simp [State.encode, State.advanceSin]

theorem writeCode_ok {s : State} {x : Nat} (h : (s.codeAt x).len ≠ 0) : writeCode x s = .ok (s.encode 0 (codeBits s x)) := by
  rw [writeCode, if_neg h, State.bitsWrite, foldl_bitWrite, State.encode, Nat.add_zero, BitVec.add_zero]
  rfl

theorem writeCode_raised {s : State} {x : Nat} (h : (s.codeAt x).len = 0) :
    writeCode x s = .raised .noCode (BitVec.ofNat 32 x) s := if_pos h

/-- The codes of bytes, one after another. -/
def codesBits (s : State) (xs : List Byte) : List Bit := xs.flatMap (fun y => codeBits s y.toNat)

/-- ENC's loop writes the codes of bytes that have one. -/
theorem encLoop_append {s : State} {xs : List Byte} (h : ∀ x ∈ xs, (s.codeAt x.toNat).len ≠ 0) (rest : List Byte) :
    encLoop (xs ++ rest) s = encLoop rest (s.encode xs.length (codesBits s xs)) := by
  induction xs generalizing s with
  | nil => exact congrArg (encLoop rest) s.encode_zero.symm
  | cons x xs ih =>
    rw [List.forall_mem_cons] at h
    obtain ⟨hx, hxs⟩ := h
    have hwrite : writeCode x.toNat s.advanceSin = .ok (s.encode 1 (codeBits s x.toNat)) := by
      rw [writeCode_ok (s := s.advanceSin) hx, State.advanceSin_eq_encode, State.encode_encode]
      rfl
    have hrest := ih (s := s.encode 1 (codeBits s x.toNat)) hxs
    rw [State.encode_encode, Nat.add_comm 1] at hrest
    rw [List.cons_append, encLoop, hwrite, Run.andThen]
    exact hrest

theorem encBody_of_sinRest {s : State} {xs rest : List Byte} (hsin : s.sinRest = xs ++ rest)
    (h : ∀ x ∈ xs, (s.codeAt x.toNat).len ≠ 0) : encBody s = encLoop rest (s.encode xs.length (codesBits s xs)) := by
  rw [encBody, hsin, encLoop_append h]

/-- The steps of ENC where every symbol it meets has a code. -/
theorem encBody_ok {s : State} (h : ∀ x ∈ s.sinRest, (s.codeAt x.toNat).len ≠ 0) (heos : (s.codeAt 256).len ≠ 0) :
    encBody s = .ok (s.encode s.sinRest.length (payloadBits s s.sinRest)) := by
  have hlast := writeCode_ok (s := s.encode s.sinRest.length (codesBits s s.sinRest)) (x := 256) heos
  rw [State.encode_encode] at hlast
  exact (encBody_of_sinRest (List.append_nil _).symm h).trans hlast

theorem payloadBits_length (s : State) (xs : List Byte) :
    (payloadBits s xs).length = (xs.map (fun x => (s.codeAt x.toNat).len.toNat)).sum + (s.codeAt 256).len.toNat := by
  rw [payloadBits, List.length_append, List.length_flatMap]
  simp only [codeBits, bitsN_length]
  rfl

/-- Settles O49: ENC's loop writes one code after another, the sentinel's last. -/
theorem encResult : Obligations.EncResult := by
  unfold Obligations.EncResult
  intro s hs hvalid hcodes heos
  have hbody := encBody_ok (s := { s with cmd := 0x07, seq := .busy }) hcodes heos
  exact ⟨(runCommand_ready hs).trans (accept_ok hvalid hbody), payloadBits_length s s.sinRest⟩

/-- Settles O50: the loop writes the codes before the symbol that has none, which raises. -/
theorem encWithoutCodeRaises : Obligations.EncWithoutCodeRaises := by
  unfold Obligations.EncWithoutCodeRaises
  refine fun s hs hvalid => ⟨fun before after x hsin hcodes hx => ?byte, fun hcodes heos => ?sentinel⟩
  case byte =>
    have hbody : encBody { s with cmd := 0x07, seq := .busy } = .raised .noCode (x.setWidth 32)
        (State.encode { s with cmd := 0x07, seq := .busy } (before.length + 1) (codesBits s before)) := by
      rw [encBody_of_sinRest (s := { s with cmd := 0x07, seq := .busy }) hsin hcodes, encLoop,
        writeCode_raised (by exact hx), BitVec.ofNat_toNat, Run.andThen, State.advanceSin_eq_encode, State.encode_encode,
        List.append_nil]
      rfl
    exact runCommand_raised hs hvalid hbody
  case sentinel =>
    have hloop := encBody_of_sinRest (s := { s with cmd := 0x07, seq := .busy }) (xs := s.sinRest) (List.append_nil _).symm hcodes
    exact runCommand_raised hs hvalid (hloop.trans (writeCode_raised heos))

end Sys2Proof.Machine
end

section
/-!
PROOFS. DEC on a payload (45_payload_decoder R195): the paths of a payload, and a payload that is cut short.
-/
namespace Sys2Proof.Machine

/-- The path of a byte's code, with its symbol. -/
def byteWalk (t : Tree) (x : Byte) : List Bit × Sym := ((t.code (x.setWidth 9)).getD [], x.setWidth 9)

/-- The path of the sentinel's code. -/
def eosPath (t : Tree) : List Bit := (t.code 256).getD []

theorem payload_eq_walks (t : Tree) (xs : List Byte) :
    t.payload xs = (xs.map (byteWalk t)).flatMap Prod.fst ++ eosPath t := by
  rw [List.flatMap_map]
  rfl

theorem byteWalk_bytes (t : Tree) (xs : List Byte) : (xs.map (byteWalk t)).map (fun w => w.2.setWidth 8) = xs := by
  have hbyte : ∀ x : Byte, (x.setWidth 9).setWidth 8 = x := fun x => BitVec.setWidth_setWidth_of_le x (by decide)
  simp [List.map_map, Function.comp_def, byteWalk, hbyte]

theorem isByteWalk_byteWalk {t : Tree} {x : Byte} (h : (t.code (x.setWidth 9)).isSome = true) : IsByteWalk t (byteWalk t x) := by
  obtain ⟨p, hp⟩ := Option.isSome_iff_exists.mp h
  refine ⟨?_, ?_⟩
  · rw [byteWalk, hp, Option.getD_some]
    exact reach_of_code hp
  · have hx : x.toNat < 256 := x.isLt
    rw [byteWalk, BitVec.toNat_setWidth]
    omega

theorem reach_eosPath {t : Tree} (h : (t.code 256).isSome = true) : t.reach (eosPath t) = some (.leaf 256) := by
  obtain ⟨p, hp⟩ := Option.isSome_iff_exists.mp h
  rw [eosPath, hp, Option.getD_some]
  exact reach_of_code hp

theorem codes_iff {t : Tree} {xs : List Byte} :
    t.codes xs = true ↔ (∀ x ∈ xs, (t.code (x.setWidth 9)).isSome = true) ∧ (t.code 256).isSome = true := by
  rw [Tree.codes, Bool.and_eq_true, List.all_eq_true]

theorem isByteWalk_of_codes {t : Tree} {xs : List Byte} (h : t.codes xs = true) : ∀ w ∈ xs.map (byteWalk t), IsByteWalk t w := by
  obtain ⟨hbytes, -⟩ := codes_iff.mp h
  exact List.forall_mem_map.mpr fun x hx => isByteWalk_byteWalk (hbytes x hx)

/-- Settles O51: the payload is the paths of its bytes and a path to a sentinel leaf. -/
theorem decInvertsEnc : Obligations.DecInvertsEnc := by
  unfold Obligations.DecInvertsEnc
  intro s t xs rest hs hvalid ht hcodes hbin
  rw [payload_eq_walks] at hbin
  obtain ⟨-, heos⟩ := codes_iff.mp hcodes
  obtain ⟨i, hi, hexec⟩ := exec_dec_done hs hvalid ht (isByteWalk_of_codes hcodes) hbin (reach_eosPath heos)
  refine ⟨_, hexec, ?frame, holds_leaf_iff.mp (holds_of_node_eq hi rfl)⟩
  case frame => simp only [State.decoded, byteWalk_bytes, ← payload_eq_walks, List.length_map]

/-- A payload cut short: the paths of its first bytes, then a path that stops at an internal node. -/
theorem payload_cut {t : Tree} {xs : List Byte} {p : List Bit} (hcodes : t.codes xs = true) (hp : p <+: t.payload xs)
    (hlen : p.length < (t.payload xs).length) :
    ∃ (n : Nat) (path : List Bit) (v : Tree), p = ((xs.take n).map (byteWalk t)).flatMap Prod.fst ++ path ∧
      t.reach path = some v ∧ v.isNode = true := by
  obtain ⟨hbytes, heos⟩ := codes_iff.mp hcodes
  induction xs generalizing p with
  | nil =>
    obtain ⟨v, hv, hnode⟩ := reach_node_of_strict_prefix (reach_eosPath heos) hp hlen
    exact ⟨0, p, v, rfl, hv, hnode⟩
  | cons x xs ih =>
    rw [List.forall_mem_cons] at hbytes
    obtain ⟨hx, hxs⟩ := hbytes
    have hpayload : t.payload (x :: xs) = (byteWalk t x).1 ++ t.payload xs := by
      rw [Tree.payload, List.flatMap_cons, List.append_assoc]; rfl
    rw [hpayload] at hp hlen
    by_cases hcut : p.length < (byteWalk t x).1.length
    · obtain ⟨hreach, -⟩ := isByteWalk_byteWalk hx
      have hpx : p <+: (byteWalk t x).1 := List.prefix_of_prefix_length_le hp (List.prefix_append ..) hcut.le
      obtain ⟨v, hv, hnode⟩ := reach_node_of_strict_prefix hreach hpx hcut
      exact ⟨0, p, v, rfl, hv, hnode⟩
    · obtain ⟨q, rfl⟩ := List.prefix_of_prefix_length_le (List.prefix_append ..) hp (Nat.le_of_not_lt hcut)
      rw [List.length_append, List.length_append] at hlen
      obtain ⟨n, path, v, rfl, hv, hnode⟩ :=
        ih (codes_iff.mpr ⟨hxs, heos⟩) ((List.prefix_append_right_inj _).mp hp) (by omega) hxs
      exact ⟨n + 1, path, v, by rw [List.take_succ_cons, List.map_cons, List.flatMap_cons, List.append_assoc], hv, hnode⟩

/-- Settles O52: a payload cut short is the paths of some of its bytes and a path that stops at an internal node. -/
theorem decTruncatedRaises : Obligations.DecTruncatedRaises := by
  unfold Obligations.DecTruncatedRaises
  rintro s t xs p hs hvalid ht hcodes hbin hp hlen
  obtain ⟨n, path, v, rfl, hv, hnode⟩ := payload_cut hcodes hp hlen
  have hwalks : ∀ w ∈ (xs.take n).map (byteWalk t), IsByteWalk t w := fun w hw =>
    isByteWalk_of_codes hcodes w (List.map_subset _ (List.take_subset n xs) hw)
  obtain ⟨i, hi, hexec⟩ := exec_dec_raised hs hvalid ht hwalks hbin hv hnode
  refine ⟨_, xs.take n, hexec, List.take_prefix n xs, ?frame, ?internal⟩
  case frame => simp only [State.decoded, byteWalk_bytes, List.length_map]
  case internal =>
    cases v with
    | leaf x => cases hnode
    | node l r => exact leaf_false_of_holds_node (holds_of_node_eq hi rfl)

end Sys2Proof.Machine
end

section
/-!
PROOFS. The counts that COUNT leaves (40_frequency_counter R122).
-/
namespace Sys2Proof.Machine

/-- The counts of the 256 bytes add up to the number of bytes. -/
theorem sum_count_bytes (xs : List Byte) : ((List.range 256).map (fun k => xs.count (BitVec.ofNat 8 k))).sum = xs.length := by
  induction xs with
  | nil =>
    simp only [List.count_nil, List.map_const', List.sum_replicate, smul_zero, List.length_nil]
  | cons x xs ih =>
    have hx : x.toNat < 256 := x.isLt
    have hsame : ∀ k ∈ List.range 256, (if x = BitVec.ofNat 8 k then 1 else 0) = if k = x.toNat then 1 else 0 := by
      intro k hk
      rw [List.mem_range] at hk
      refine if_congr ⟨?_, ?_⟩ rfl rfl
      · rintro rfl
        rw [BitVec.toNat_ofNat, Nat.mod_eq_of_lt (by omega)]
      · rintro rfl
        rw [BitVec.ofNat_toNat, BitVec.setWidth_eq]
    have hone : ((List.range 256).map (fun k => if x = BitVec.ofNat 8 k then 1 else 0)).sum = 1 := by
      rw [List.map_congr_left hsame, ← List.sum_toFinset _ List.nodup_range, Finset.sum_ite_eq',
        if_pos (List.mem_toFinset.mpr (List.mem_range.mpr hx))]
    simp only [List.count_cons, beq_iff_eq, List.sum_map_add, ih, hone, List.length_cons]

/-- COUNT's steps where no count overflows. -/
theorem countBody_ok {s : State} (hroom : ∀ x : Byte, s.sinRest.count x < 2 ^ 32) :
    countBody s = .ok (s.sinRest.foldl State.countByte s.zeroFreq) ∧
      (s.sinRest.foldl State.countByte s.zeroFreq).Counts s.sinRest := by
  obtain ⟨hloop, hcounts⟩ := countLoop_append s.counts_zeroFreq hroom []
  rw [List.append_nil] at hloop
  exact ⟨hloop, hcounts⟩

theorem State.Counts.sum {s : State} {xs : List Byte} (h : s.Counts xs) :
    ((List.range 256).map (fun x => (s.freqAt x).toNat)).sum = xs.length := by
  rw [← sum_count_bytes xs]
  refine congrArg List.sum (List.map_congr_left fun k hk => ?_)
  rw [List.mem_range] at hk
  rw [← h (BitVec.ofNat 8 k), BitVec.toNat_ofNat, Nat.mod_eq_of_lt (by omega)]

/-- Settles O31: the loop counts every byte of the rest of SIN. -/
theorem countResult : Obligations.CountResult := by
  unfold Obligations.CountResult
  intro s hs hroom
  obtain ⟨hbody, hcounts⟩ := countBody_ok (s := { s with cmd := 0x02, seq := .busy }) hroom
  refine ⟨_, (runCommand_ready hs).trans (accept_ok rfl hbody), ?frame, hcounts, hcounts.sum⟩
  case frame => rw [foldl_countByte]; rfl

end Sys2Proof.Machine
end

section
/-!
PROOFS. One pass of BUILD's merge loop (41_tree_builder R133): the two least keys leave PQ and a node over them goes in.
-/
namespace Sys2Proof.Machine

/-- `a` and `b` have the two least keys in PQ, and `rest` is what else PQ holds. -/
structure LeastTwo (s : State) (a b : NodeIdx) (rest : List NodeIdx) : Prop where
  perm : s.pq.Perm (a :: b :: rest)
  first : s.key a < s.key b
  second : ∀ j ∈ rest, s.key b < s.key j

/-- The state after a pass. -/
def State.pass (s : State) (n : Nat) (a b : NodeIdx) (rest : List NodeIdx) : State :=
  State.addNode { s with pq := rest } n (s.mergeOf a b)

/-- An index extracted from a PQ without repetitions has the least key of all. -/
theorem extractMin_exists {s : State} (hnodup : s.pq.Nodup) (hne : s.pq ≠ []) :
    ∃ a, a ∈ s.pq ∧ s.extractMin = some (a, { s with pq := s.pq.erase a }) ∧ ∀ j ∈ s.pq.erase a, s.key a < s.key j := by
  cases hmin : s.extractMin with
  | none => exact absurd ((s.extractMin_eq_none_iff).mp hmin) hne
  | some p =>
    obtain ⟨a, t⟩ := p
    obtain ⟨ha, rfl⟩ := State.extractMin_eq_some_iff.mp hmin
    refine ⟨a, List.argmin_mem ha, rfl, fun j hj => ?_⟩
    obtain ⟨hja, hj⟩ := hnodup.mem_erase_iff.mp hj
    exact Nat.lt_of_le_of_ne (List.le_of_mem_argmin hj ha) fun heq => hja (s.key_injective heq.symm)

/-- While PQ holds two indices or more, the loop makes a pass. -/
theorem buildMerge_pass {s : State} (hnodup : s.pq.Nodup) (hlen : 2 ≤ s.pq.length) (fuel n : Nat) :
    ∃ a b rest, LeastTwo s a b rest ∧ buildMerge (fuel + 1) n s = buildMerge fuel (n + 1) (s.pass n a b rest) := by
  obtain ⟨a, ha, hfirst, hleastA⟩ := extractMin_exists hnodup (List.ne_nil_of_length_pos (by omega))
  have hlenA : (s.pq.erase a).length = s.pq.length - 1 := List.length_erase_of_mem ha
  obtain ⟨b, hb, hsecond, hleastB⟩ := extractMin_exists (s := { s with pq := s.pq.erase a }) (hnodup.erase a)
    (List.ne_nil_of_length_pos (by dsimp only; omega))
  refine ⟨a, b, (s.pq.erase a).erase b, ⟨?_, hleastA b hb, hleastB⟩, buildMerge_step hfirst hsecond fuel n⟩
  exact (List.perm_cons_erase ha).trans ((List.perm_cons_erase hb).cons a)

/-- What every pass keeps holds where the loop ends, and there PQ holds one index. -/
theorem buildMerge_induction {P : Nat → State → Prop} (hnodup : ∀ n s, P n s → s.pq.Nodup)
    (hpass : ∀ n s a b rest, P n s → LeastTwo s a b rest → P (n + 1) (s.pass n a b rest))
    {fuel n : Nat} {s : State} (h : P n s) (hfuel : s.pq.length ≤ fuel) (hne : s.pq ≠ []) :
    P (buildMerge fuel n s).1 (buildMerge fuel n s).2 ∧ ∃ r, (buildMerge fuel n s).2.pq = [r] := by
  induction fuel generalizing n s with
  | zero => exact absurd (List.length_eq_zero_iff.mp (Nat.le_zero.mp hfuel)) hne
  | succ fuel ih =>
    have hpos := List.length_pos_of_ne_nil hne
    by_cases hone : s.pq.length = 1
    · obtain ⟨r, hr⟩ := List.length_eq_one_iff.mp hone
      rw [buildMerge_of_pq_singleton hr]
      exact ⟨h, r, hr⟩
    · obtain ⟨a, b, rest, hleast, hstep⟩ := buildMerge_pass (hnodup n s h) (by omega) fuel n
      have hlen := hleast.perm.length_eq
      rw [List.length_cons, List.length_cons] at hlen
      rw [hstep]
      refine ih (hpass n s a b rest h hleast) ?_ (List.cons_ne_nil _ _)
      change rest.length + 1 ≤ fuel
      omega

section Pass
variable {s : State} {n : Nat} {a b : NodeIdx} {rest : List NodeIdx}

theorem pass_pq : (s.pass n a b rest).pq = BitVec.ofNat 10 n :: rest := rfl

theorem pass_nodeAt_of_lt {j : NodeIdx} (hj : j.toNat < n) (hn : n < 513) : (s.pass n a b rest).nodeAt j = s.nodeAt j :=
  addNode_nodeAt_of_lt _ _ hj (by omega)

theorem pass_nodeAt_self (hn : n < 513) : (s.pass n a b rest).nodeAt (BitVec.ofNat 10 n) = s.mergeOf a b :=
  addNode_nodeAt_self _ _ hn

end Pass

/-! ## Weights as numbers -/

/-- The weight of an entry as a number. -/
def State.weightAt (s : State) (i : NodeIdx) : Nat := (s.nodeAt i).weight.toNat

theorem weightAt_of_nodeAt_eq {s t : State} {i : NodeIdx} (h : t.nodeAt i = s.nodeAt i) : t.weightAt i = s.weightAt i := by
  rw [State.weightAt, h, State.weightAt]

theorem weightAt_le_of_key_lt {s : State} {i j : NodeIdx} (h : s.key i < s.key j) : s.weightAt i ≤ s.weightAt j := by
  have hi : i.toNat < 2 ^ 10 := i.isLt
  have hj : j.toNat < 2 ^ 10 := j.isLt
  simp only [State.key, State.weightAt] at h ⊢
  omega

theorem keyLt_of_nodeAt_eq {s t : State} {i j : NodeIdx} (hi : t.nodeAt i = s.nodeAt i) (hj : t.nodeAt j = s.nodeAt j) :
    t.keyLt i j = s.keyLt i j := by
  rw [State.keyLt, State.keyLt, hi, hj]

theorem toNat_ofNat_idx {k : Nat} (hk : k < 1024) : (BitVec.ofNat 10 k : NodeIdx).toNat = k := by
  rw [BitVec.toNat_ofNat, Nat.mod_eq_of_lt hk]

/-! ## What a pass keeps of PQ -/

/-- PQ with `m` leaves made and `n` indices in use. -/
structure QueueOk (m n : Nat) (s : State) : Prop where
  nodup : s.pq.Nodup
  lt : ∀ i ∈ s.pq, i.toNat < n
  ge : m ≤ n
  count : n + s.pq.length = 2 * m
  room : m ≤ 257
  newest : m < n → BitVec.ofNat 10 (n - 1) ∈ s.pq

section Pass
variable {s : State} {m n : Nat} {a b : NodeIdx} {rest : List NodeIdx}

theorem LeastTwo.mem (h : LeastTwo s a b rest) : a ∈ s.pq ∧ b ∈ s.pq ∧ ∀ i ∈ rest, i ∈ s.pq :=
  ⟨h.perm.mem_iff.mpr List.mem_cons_self, h.perm.mem_iff.mpr (List.mem_cons_of_mem _ List.mem_cons_self),
    fun _ hi => h.perm.mem_iff.mpr (List.mem_cons_of_mem _ (List.mem_cons_of_mem _ hi))⟩

theorem LeastTwo.ne (h : LeastTwo s a b rest) : a ≠ b := fun e => Nat.lt_irrefl _ (e ▸ h.first)

/-- A pass finds room in NODE. -/
theorem QueueOk.lt_513 (hq : QueueOk m n s) (h : LeastTwo s a b rest) : n < 513 := by
  have hlen := h.perm.length_eq
  have hcount := hq.count
  have hroom := hq.room
  rw [List.length_cons, List.length_cons] at hlen
  omega

theorem QueueOk.pass (hq : QueueOk m n s) (h : LeastTwo s a b rest) : QueueOk m (n + 1) (s.pass n a b rest) := by
  have hn := hq.lt_513 h
  obtain ⟨-, -, hrest⟩ := h.mem
  have hlen := h.perm.length_eq
  have hcount := hq.count
  rw [List.length_cons, List.length_cons] at hlen
  have hnew : (BitVec.ofNat 10 n : NodeIdx).toNat = n := toNat_ofNat_idx (by omega)
  refine ⟨?nodup, ?lt, Nat.le_succ_of_le hq.ge, ?count, hq.room, fun _ => List.mem_cons_self⟩
  case nodup =>
    refine List.nodup_cons.mpr ⟨fun hmem => ?_, (h.perm.nodup_iff.mp hq.nodup).of_cons.of_cons⟩
    have hlt := hq.lt _ (hrest _ hmem)
    omega
  case lt =>
    rw [pass_pq, List.forall_mem_cons]
    exact ⟨by omega, fun i hi => Nat.lt_succ_of_lt (hq.lt i (hrest i hi))⟩
  case count =>
    rw [pass_pq, List.length_cons]
    omega

end Pass

/-! ## What a pass keeps of the weights -/

/-- Entry `k` is the merge of two lower entries, the lesser key left, and weighs what they do together. -/
def MergedAt (s : State) (k : Nat) : Prop :=
  ∃ l r : NodeIdx, s.nodeAt (BitVec.ofNat 10 k) = internalRec ((s.nodeAt l).weight + (s.nodeAt r).weight) l r ∧
    l.toNat < k ∧ r.toNat < k ∧ s.keyLt l r = true ∧ s.weightAt l + s.weightAt r < 2 ^ 41

/-- The entries below `n`: leaves below `m`, merges from there on, no lighter the later they are made; PQ weighs `total`. -/
structure NodesOk (m total n : Nat) (s : State) : Prop where
  leaf : ∀ k < n, (s.nodeAt (BitVec.ofNat 10 k)).leaf = decide (k < m)
  merged : ∀ k, m ≤ k → k < n → MergedAt s k
  sum : (s.pq.map s.weightAt).sum = total
  small : total < 2 ^ 41
  monotone : ∀ j k, m ≤ j → j ≤ k → k < n → s.weightAt (BitVec.ofNat 10 j) ≤ s.weightAt (BitVec.ofNat 10 k)
  /-- No later merge is lighter: it is one of two indices in PQ. -/
  next : ∀ j, m ≤ j → j < n → ∀ a ∈ s.pq, ∀ b ∈ s.pq, a ≠ b → s.weightAt (BitVec.ofNat 10 j) ≤ s.weightAt a + s.weightAt b

section Pass
variable {s : State} {m total n : Nat} {a b : NodeIdx} {rest : List NodeIdx} (hq : QueueOk m n s) (h : LeastTwo s a b rest)
include hq h

theorem pass_nodeAt {j : NodeIdx} (hj : j.toNat < n) : (s.pass n a b rest).nodeAt j = s.nodeAt j :=
  pass_nodeAt_of_lt hj (hq.lt_513 h)

theorem pass_nodeAt_ofNat {k : Nat} (hk : k < n) :
    (s.pass n a b rest).nodeAt (BitVec.ofNat 10 k) = s.nodeAt (BitVec.ofNat 10 k) := by
  have hn := hq.lt_513 h
  exact pass_nodeAt hq h (by rw [toNat_ofNat_idx (by omega)]; exact hk)

theorem pass_weightAt {j : NodeIdx} (hj : j.toNat < n) : (s.pass n a b rest).weightAt j = s.weightAt j :=
  weightAt_of_nodeAt_eq (pass_nodeAt hq h hj)

theorem pass_weightAt_mem {j : NodeIdx} (hj : j ∈ s.pq) : (s.pass n a b rest).weightAt j = s.weightAt j :=
  pass_weightAt hq h (hq.lt j hj)

omit hq in
theorem NodesOk.sum_eq (hw : NodesOk m total n s) : s.weightAt a + s.weightAt b + (rest.map s.weightAt).sum = total := by
  rw [← hw.sum, (h.perm.map _).sum_eq, List.map_cons, List.map_cons, List.sum_cons, List.sum_cons, Nat.add_assoc]

/-- The new entry weighs what the two extracted ones do together; nothing is lost. -/
theorem pass_weightAt_self (hw : NodesOk m total n s) :
    (s.pass n a b rest).weightAt (BitVec.ofNat 10 n) = s.weightAt a + s.weightAt b := by
  have hsum := hw.sum_eq h
  have hsmall := hw.small
  rw [State.weightAt, pass_nodeAt_self (hq.lt_513 h), State.mergeOf, internalRec, BitVec.toNat_add]
  exact Nat.mod_eq_of_lt (by change s.weightAt a + s.weightAt b < _; omega)

theorem MergedAt.pass {k : Nat} (hk : k < n) (hmerged : MergedAt s k) : MergedAt (s.pass n a b rest) k := by
  obtain ⟨l, r, hrec, hl, hr, hkey, hsmall⟩ := hmerged
  have hatL := pass_nodeAt hq h (hl.trans hk)
  have hatR := pass_nodeAt hq h (hr.trans hk)
  refine ⟨l, r, ?_, hl, hr, ?_, ?_⟩
  · rw [pass_nodeAt_ofNat hq h hk, hrec, hatL, hatR]
  · rw [keyLt_of_nodeAt_eq hatL hatR, hkey]
  · rw [weightAt_of_nodeAt_eq hatL, weightAt_of_nodeAt_eq hatR]
    exact hsmall

theorem mergedAt_pass_self (hw : NodesOk m total n s) : MergedAt (s.pass n a b rest) n := by
  obtain ⟨ha, hb, -⟩ := h.mem
  have hatA := pass_nodeAt hq h (hq.lt a ha)
  have hatB := pass_nodeAt hq h (hq.lt b hb)
  have hsum := hw.sum_eq h
  have hsmall := hw.small
  refine ⟨a, b, ?_, hq.lt a ha, hq.lt b hb, ?_, ?_⟩
  · rw [pass_nodeAt_self (hq.lt_513 h), hatA, hatB]
    rfl
  · rw [keyLt_of_nodeAt_eq hatA hatB, s.keyLt_iff]
    exact h.first
  · rw [weightAt_of_nodeAt_eq hatA, weightAt_of_nodeAt_eq hatB]
    omega

/-- The weights of entries made before, against the new one and the pairs left in PQ. -/
theorem NodesOk.pass (hw : NodesOk m total n s) : NodesOk m total (n + 1) (s.pass n a b rest) := by
  have hn := hq.lt_513 h
  obtain ⟨ha, hb, hrest⟩ := h.mem
  have hself := pass_weightAt_self hq h hw
  have hold : ∀ k, k < n → (s.pass n a b rest).weightAt (BitVec.ofNat 10 k) = s.weightAt (BitVec.ofNat 10 k) := fun k hk =>
    weightAt_of_nodeAt_eq (pass_nodeAt_ofNat hq h hk)
  have hrestW : ∀ i ∈ rest, (s.pass n a b rest).weightAt i = s.weightAt i := fun i hi => pass_weightAt_mem hq h (hrest i hi)
  have hlast : ∀ j, m ≤ j → j < n + 1 → (s.pass n a b rest).weightAt (BitVec.ofNat 10 j) ≤ s.weightAt a + s.weightAt b := by
    intro j hj hjn
    obtain hlt | rfl := Nat.lt_succ_iff_lt_or_eq.mp hjn
    · rw [hold j hlt]
      exact hw.next j hj hlt a ha b hb h.ne
    · exact hself.le
  refine ⟨?leaf, ?merged, ?sum, hw.small, ?monotone, ?next⟩
  case leaf =>
    intro k hk
    obtain hlt | rfl := Nat.lt_succ_iff_lt_or_eq.mp hk
    · rw [pass_nodeAt_ofNat hq h hlt, hw.leaf k hlt]
    · rw [pass_nodeAt_self hn]
      exact (decide_eq_false (Nat.not_lt.mpr hq.ge)).symm
  case merged =>
    intro k hmk hk
    obtain hlt | rfl := Nat.lt_succ_iff_lt_or_eq.mp hk
    · exact (hw.merged k hmk hlt).pass hq h hlt
    · exact mergedAt_pass_self hq h hw
  case sum => rw [pass_pq, List.map_cons, List.sum_cons, List.map_congr_left hrestW, hself, hw.sum_eq h]
  case monotone =>
    intro j k hmj hjk hk
    obtain hlt | rfl := Nat.lt_succ_iff_lt_or_eq.mp hk
    · rw [hold j (by omega), hold k hlt]
      exact hw.monotone j k hmj hjk hlt
    · rw [hself]
      exact hlast j hmj (by omega)
  case next =>
    intro j hmj hj c hc d hd hcd
    refine (hlast j hmj hj).trans ?_
    obtain rfl | hc := List.mem_cons.mp hc
    · exact hself ▸ Nat.le_add_right _ _
    obtain rfl | hd := List.mem_cons.mp hd
    · exact hself ▸ Nat.le_add_left _ _
    have hab := weightAt_le_of_key_lt h.first
    have hbc := weightAt_le_of_key_lt (h.second c hc)
    have hbd := weightAt_le_of_key_lt (h.second d hd)
    rw [hrestW c hc, hrestW d hd]
    omega

end Pass

/-! ## What a pass keeps of the trees -/

/-- Which tree stands at an index depends on the entries it occupies alone. -/
theorem holds_indices_congr {s u : State} {i : NodeIdx} {t : Tree} (hsame : ∀ j ∈ indices s i t, u.nodeAt j = s.nodeAt j) :
    holds u i t = holds s i t ∧ indices u i t = indices s i t := by
  induction t generalizing i with
  | leaf x =>
    rw [holds, holds, hsame i List.mem_cons_self]
    exact ⟨rfl, rfl⟩
  | node l r hl hr =>
    rw [indices, List.forall_mem_cons, List.forall_mem_append] at hsame
    obtain ⟨hroot, hleft, hright⟩ := hsame
    obtain ⟨hholdsL, hindicesL⟩ := hl hleft
    obtain ⟨hholdsR, hindicesR⟩ := hr hright
    rw [holds, holds, indices, indices, hroot, hholdsL, hholdsR, hindicesL, hindicesR]
    exact ⟨rfl, rfl⟩

/-- PQ holds the roots of trees on exactly the indices below `n`, which have the leaf symbols `syms` together. -/
structure ForestOk (syms : List Sym) (n : Nat) (s : State) (tree : NodeIdx → Tree) : Prop where
  held : ∀ i ∈ s.pq, holds s i (tree i) = true
  indices : (s.pq.flatMap fun i => indices s i (tree i)).Perm (nodeRange n)
  leaves : (s.pq.flatMap fun i => (tree i).leaves).Perm syms

theorem nodeRange_succ (n : Nat) : nodeRange (n + 1) = nodeRange n ++ [BitVec.ofNat 10 n] := by
  rw [nodeRange, List.range_succ, List.map_append]
  rfl

section Pass
variable {s : State} {m n : Nat} {a b : NodeIdx} {rest : List NodeIdx} {syms : List Sym} {tree : NodeIdx → Tree}

/-- The trees after a pass. -/
def mergeTrees (tree : NodeIdx → Tree) (n : Nat) (a b : NodeIdx) : NodeIdx → Tree :=
  Function.update tree (BitVec.ofNat 10 n) (.node (tree a) (tree b))

theorem mergeTrees_self : mergeTrees tree n a b (BitVec.ofNat 10 n) = .node (tree a) (tree b) := Function.update_self ..

theorem ForestOk.pass (hf : ForestOk syms n s tree) (hq : QueueOk m n s) (h : LeastTwo s a b rest) :
    ForestOk syms (n + 1) (s.pass n a b rest) (mergeTrees tree n a b) := by
  have hn := hq.lt_513 h
  obtain ⟨ha, hb, hrest⟩ := h.mem
  have hother : ∀ i ∈ rest, mergeTrees tree n a b i = tree i := fun i hi =>
    Function.update_of_ne (nodeIdx_ne_ofNat (hq.lt i (hrest i hi)) (by omega)) _ _
  have hsame : ∀ i ∈ s.pq, holds (s.pass n a b rest) i (tree i) = true ∧
      Machine.indices (s.pass n a b rest) i (tree i) = Machine.indices s i (tree i) := by
    intro i hi
    have hbelow : ∀ j ∈ Machine.indices s i (tree i), (s.pass n a b rest).nodeAt j = s.nodeAt j := fun j hj =>
      pass_nodeAt hq h ((mem_nodeRange (by omega)).mp (hf.indices.mem_iff.mp (List.mem_flatMap.mpr ⟨i, hi, hj⟩)))
    obtain ⟨hholds, hindices⟩ := holds_indices_congr hbelow
    exact ⟨hholds.trans (hf.held i hi), hindices⟩
  have hsplit : ∀ f : NodeIdx → List NodeIdx, (s.pq.flatMap f).Perm (f a ++ f b ++ rest.flatMap f) := fun f => by
    simpa only [List.flatMap_cons, List.append_assoc] using h.perm.flatMap_right f
  have hnode := pass_nodeAt_self (s := s) (a := a) (b := b) (rest := rest) hn
  refine ⟨?held, ?indices, ?leaves⟩
  case held =>
    rw [pass_pq, List.forall_mem_cons, mergeTrees_self]
    refine ⟨?_, fun i hi => by rw [hother i hi]; exact (hsame i (hrest i hi)).1⟩
    rw [holds, hnode]
    simp only [State.mergeOf, internalRec, (hsame a ha).1, (hsame b hb).1, Bool.not_false, Bool.and_self]
  case indices =>
    have htail : rest.flatMap (fun i => Machine.indices (s.pass n a b rest) i (mergeTrees tree n a b i)) =
        rest.flatMap (fun i => Machine.indices s i (tree i)) :=
      List.flatMap_congr fun i hi => by rw [hother i hi, (hsame i (hrest i hi)).2]
    have hhead : Machine.indices (s.pass n a b rest) (BitVec.ofNat 10 n) (.node (tree a) (tree b)) =
        BitVec.ofNat 10 n :: (Machine.indices s a (tree a) ++ Machine.indices s b (tree b)) := by
      rw [Machine.indices, hnode, ← (hsame a ha).2, ← (hsame b hb).2]
      rfl
    rw [pass_pq, List.flatMap_cons, mergeTrees_self, htail, hhead, nodeRange_succ, List.cons_append]
    exact (((hsplit _).symm.trans hf.indices).cons _).trans (List.perm_append_singleton _ _).symm
  case leaves =>
    have htail : rest.flatMap (fun i => (mergeTrees tree n a b i).leaves) = rest.flatMap (fun i => (tree i).leaves) :=
      List.flatMap_congr fun i hi => by rw [hother i hi]
    rw [pass_pq, List.flatMap_cons, mergeTrees_self, htail, Tree.leaves]
    refine List.Perm.trans ?_ hf.leaves
    simpa only [List.flatMap_cons, List.append_assoc] using (h.perm.flatMap_right fun i => (tree i).leaves).symm

end Pass

end Sys2Proof.Machine
end

section
/-!
PROOFS. BUILD from its counts to its tree (41_tree_builder R130 to R135): what the merge loop starts from, and what it leaves.
-/
namespace Sys2Proof.Machine

/-! ## The leaves -/

/-- The leaves BUILD makes: those of the symbols with a count, and the second sentinel where there is one only (R131, R134). -/
def State.leafRecs (s : State) : List NodeRec :=
  (liveSyms s).map s.leafOf ++ if (liveSyms s).length = 1 then [leafRec 256 0] else []

theorem leafRecs_length (s : State) : s.leafRecs.length = leafCount s := by
  have hpos : 1 ≤ (liveSyms s).length := by rw [liveSyms_eq, List.length_append]; exact Nat.le_add_left ..
  rw [State.leafRecs, leafCount, List.length_append, List.length_map]
  split
  next hone => rw [hone]; rfl
  next hone => rw [List.length_nil]; omega

theorem leafCount_bounds (s : State) : 2 ≤ leafCount s ∧ leafCount s ≤ 257 := by
  have hlen := liveSyms_length_le s
  rw [leafCount]
  omega

/-- Every leaf is the record of a leaf with a symbol that is not reserved. -/
theorem forall_mem_leafRecs {s : State} : ∀ r ∈ s.leafRecs, r.leaf = true ∧ r.sym.toNat ≤ 256 := by
  have hlive : ∀ x ∈ liveSyms s, (BitVec.ofNat 9 x : Sym).toNat ≤ 256 := fun x hx => by
    have hlt : x < 257 := List.mem_range.mp (List.mem_of_mem_filter hx)
    rw [BitVec.toNat_ofNat]
    omega
  rw [State.leafRecs, List.forall_mem_append, List.forall_mem_map]
  refine ⟨fun x hx => ⟨rfl, hlive x hx⟩, ?_⟩
  split
  · exact List.forall_mem_singleton.mpr ⟨rfl, le_rfl⟩
  · exact List.forall_mem_nil _

/-- Symbols without a count add nothing. -/
theorem sum_filter_ne_zero (f : Nat → Count) (xs : List Nat) :
    ((xs.filter (fun x => decide (f x ≠ 0))).map (fun x => (f x).toNat)).sum = (xs.map (fun x => (f x).toNat)).sum := by
  induction xs with
  | nil => rfl
  | cons x xs ih =>
    by_cases hx : f x = 0
    · rw [List.filter_cons_of_neg (by simpa using hx), ih, List.map_cons, List.sum_cons, hx]
      exact (Nat.zero_add _).symm
    · rw [List.filter_cons_of_pos (by simpa using hx), List.map_cons, List.sum_cons, ih, List.map_cons, List.sum_cons]

/-- The sum of the 257 counts. -/
def State.total (s : State) : Nat := ((List.range Config.nsym).map (fun x => (s.freqAt x).toNat)).sum

theorem leafRecs_weight_sum (s : State) : (s.leafRecs.map (fun r => r.weight.toNat)).sum = s.total := by
  have hleaf : ∀ x, (s.leafOf x).weight.toNat = (s.freqAt x).toNat := fun x => by
    have hlt : (s.freqAt x).toNat < 2 ^ 32 := (s.freqAt x).isLt
    rw [State.leafOf, leafRec, BitVec.toNat_setWidth, Nat.mod_eq_of_lt (by omega)]
  have hsecond : ((if (liveSyms s).length = 1 then [leafRec 256 0] else []).map (fun r => r.weight.toNat)).sum = 0 := by
    split <;> rfl
  rw [State.leafRecs, List.map_append, List.sum_append, hsecond, Nat.add_zero, List.map_map]
  exact (congrArg List.sum (List.map_congr_left fun x _ => hleaf x)).trans (sum_filter_ne_zero s.freqAt _)

theorem total_lt (s : State) : s.total < 2 ^ 41 := by
  have hle : s.total ≤ ((List.range Config.nsym).map (fun x => (s.freqAt x).toNat)).length * 2 ^ 32 :=
    List.sum_le_card_nsmul _ _ (List.forall_mem_map.mpr fun x _ => (s.freqAt x).isLt.le)
  rw [List.length_map, List.length_range] at hle
  exact hle.trans_lt (by decide)

/-! ## Before the merge loop -/

/-- BUILD's start: a fresh node memory and an empty PQ. -/
def State.blank (s : State) : State := { s.dropTree.dropCodes with pq := [] }

theorem addNodes_append (xs ys : List NodeRec) (s : State) (n : Nat) :
    s.addNodes n (xs ++ ys) = (s.addNodes n xs).addNodes (n + xs.length) ys := by
  induction xs generalizing s n with
  | nil => rfl
  | cons x xs ih =>
    rw [List.length_cons, Nat.add_comm xs.length, ← Nat.add_assoc]
    exact ih (s.addNode n x) (n + 1)

theorem addNodes_pq (rs : List NodeRec) (s : State) (n : Nat) :
    (s.addNodes n rs).pq.Perm ((List.range' n rs.length).map (BitVec.ofNat 10) ++ s.pq) := by
  induction rs generalizing s n with
  | nil => exact List.Perm.refl _
  | cons r rs ih =>
    rw [List.length_cons, List.range'_succ, List.map_cons, List.cons_append]
    exact (ih (s.addNode n r) (n + 1)).trans List.perm_middle

theorem guarded_eq (s : State) : s.guarded = (leafCount s, s.blank.addNodes 0 s.leafRecs) := by
  rw [State.guarded, ← leafRecs_length, State.leafRecs, List.length_append, List.length_map, addNodes_append, Nat.zero_add,
    List.length_map]
  by_cases hone : (liveSyms s).length = 1
  · rw [hone, if_pos rfl]
    exact buildGuard_one s.scanned
  · rw [if_neg hone]
    exact buildGuard_of_ne_one s.scanned hone

/-- A state whose PQ holds leaves only, on the indices below their number. -/
structure LeavesAt (rs : List NodeRec) (s : State) : Prop where
  pq : s.pq.Perm (nodeRange rs.length)
  records : (nodeRange rs.length).map s.nodeAt = rs
  room : rs.length ≤ 257
  leaf : ∀ r ∈ rs, r.leaf = true

theorem leavesAt_addNodes {rs : List NodeRec} {s : State} (hpq : s.pq = []) (hroom : rs.length ≤ 257)
    (hleaf : ∀ r ∈ rs, r.leaf = true) : LeavesAt rs (s.addNodes 0 rs) := by
  refine ⟨?pq, ?records, hroom, hleaf⟩
  case pq =>
    have hperm := addNodes_pq rs s 0
    rwa [hpq, List.append_nil, ← List.range_eq_range'] at hperm
  case records =>
    refine List.ext_getElem (by rw [List.length_map, nodeRange_length]) fun k hk hk' => ?_
    have hat := addNodes_nodeAt (s := s) (n := 0) (List.getElem?_eq_getElem hk') (by omega)
    rw [Nat.zero_add] at hat
    rw [List.getElem_map, ← hat]
    simp only [nodeRange, List.getElem_map, List.getElem_range]

section LeavesAt
variable {rs : List NodeRec} {s : State} (h : LeavesAt rs s)
include h

theorem LeavesAt.nodeAt {k : Nat} (hk : k < rs.length) : s.nodeAt (BitVec.ofNat 10 k) ∈ rs := by
  have hmem : BitVec.ofNat 10 k ∈ nodeRange rs.length := List.mem_map_of_mem (List.mem_range.mpr hk)
  exact h.records ▸ List.mem_map_of_mem hmem

theorem LeavesAt.map_pq {α : Type} (f : NodeRec → α) : (s.pq.map fun i => f (s.nodeAt i)).Perm (rs.map f) := by
  have hmap := h.pq.map fun i => f (s.nodeAt i)
  have hrecords : (nodeRange rs.length).map (fun i => f (s.nodeAt i)) = rs.map f := by
    rw [← h.records, List.map_map, h.records]
    rfl
  exact hrecords ▸ hmap

theorem LeavesAt.queueOk : QueueOk rs.length rs.length s := by
  have hroom := h.room
  refine ⟨h.pq.nodup_iff.mpr (nodeRange_nodup (by omega)), fun i hi => (mem_nodeRange (by omega)).mp (h.pq.mem_iff.mp hi), le_rfl,
    ?_, h.room, fun hlt => absurd hlt (Nat.lt_irrefl _)⟩
  rw [h.pq.length_eq, nodeRange_length]
  omega

theorem LeavesAt.nodesOk {total : Nat} (hsum : (rs.map (fun r => r.weight.toNat)).sum = total) (hsmall : total < 2 ^ 41) :
    NodesOk rs.length total rs.length s := by
  refine ⟨fun k hk => ?leaf, fun k hmk hk => absurd hk (Nat.not_lt.mpr hmk), ?sum, hsmall,
    fun j k hj hjk hk => absurd hk (Nat.not_lt.mpr (hj.trans hjk)), fun j hmj hj => absurd hj (Nat.not_lt.mpr hmj)⟩
  case leaf => rw [h.leaf _ (h.nodeAt hk), decide_eq_true hk]
  case sum => rw [← hsum, ← (h.map_pq fun r => r.weight.toNat).sum_eq]; rfl

theorem LeavesAt.forestOk : ForestOk (rs.map NodeRec.sym) rs.length s (fun i => .leaf (s.nodeAt i).sym) := by
  have hone : ∀ i ∈ s.pq, (s.nodeAt i).leaf = true := fun i hi =>
    h.leaf _ (h.records ▸ List.mem_map_of_mem (h.pq.mem_iff.mp hi))
  refine ⟨fun i hi => holds_leaf_iff.mpr ⟨hone i hi, rfl⟩, ?indices, ?leaves⟩
  case indices => simpa only [indices, List.flatMap_singleton'] using h.pq
  case leaves =>
    have hmap := h.map_pq NodeRec.sym
    rwa [← List.flatMap_pure_eq_map] at hmap

end LeavesAt

/-! ## The merge loop -/

/-- What the merge loop keeps, over the leaves `rs` of the weight `total`. -/
structure Merging (rs : List NodeRec) (total n : Nat) (s : State) : Prop where
  queue : QueueOk rs.length n s
  nodes : NodesOk rs.length total n s
  forest : ∃ tree, ForestOk (rs.map NodeRec.sym) n s tree

theorem Merging.pass {rs : List NodeRec} {total n : Nat} {s : State} {a b : NodeIdx} {rest : List NodeIdx}
    (h : Merging rs total n s) (hleast : LeastTwo s a b rest) : Merging rs total (n + 1) (s.pass n a b rest) := by
  obtain ⟨tree, hforest⟩ := h.forest
  exact ⟨h.queue.pass hleast, h.nodes.pass h.queue hleast, _, hforest.pass h.queue hleast⟩

theorem merging_guarded (s : State) : Merging s.leafRecs s.total s.guarded.1 s.guarded.2 := by
  obtain ⟨-, hroom⟩ := leafCount_bounds s
  rw [← leafRecs_length] at hroom
  have hleaves : LeavesAt s.leafRecs (s.blank.addNodes 0 s.leafRecs) :=
    leavesAt_addNodes rfl hroom fun r hr => (forall_mem_leafRecs r hr).1
  rw [guarded_eq, ← leafRecs_length]
  exact ⟨hleaves.queueOk, hleaves.nodesOk (leafRecs_weight_sum s) (total_lt s), _, hleaves.forestOk⟩

/-- Where BUILD's merge loop ends: one index is left, of the tree over all the leaves. -/
theorem merging_merged (s : State) :
    Merging s.leafRecs s.total s.merged.1 s.merged.2 ∧ ∃ r, s.merged.2.pq = [r] := by
  have hstart := merging_guarded s
  have hlen := hstart.queue.count
  have hone := leafCount_bounds s
  rw [leafRecs_length, guarded_eq] at hlen
  refine buildMerge_induction (P := Merging s.leafRecs s.total) (fun n t h => h.queue.nodup) (fun n t a b rest h => h.pass)
    hstart le_rfl (List.ne_nil_of_length_pos ?_)
  rw [guarded_eq]
  dsimp only at hlen ⊢
  omega

/-! ## What BUILD leaves -/

/-- What BUILD makes of the counts of `s`: `m` is where its merge loop ends, with ROOT in PQ. -/
structure Built (s m t : State) : Prop where
  frame : t = { s with
    treeValid := true, codeValid := false, root := t.root, ncount := t.ncount, node := t.node, code := t.code, pq := [],
    freeCtr := t.freeCtr }
  root : t.root.toNat = 2 * leafCount s - 2
  ncount : t.ncount.toNat = 2 * leafCount s - 1
  merging : Merging s.leafRecs s.total t.ncount.toNat m
  pq : m.pq = [t.root]
  node : t.node = m.node

theorem buildBody_built (s : State) : ∃ t, buildBody s = .ok t ∧ Built s s.merged.2 t := by
  obtain ⟨hmerging, r, hpq⟩ := merging_merged s
  obtain ⟨hleast, hmost⟩ := leafCount_bounds s
  have hnext : s.merged.1 = 2 * leafCount s - 1 := by
    have hcount := hmerging.queue.count
    rw [hpq, leafRecs_length, List.length_singleton] at hcount
    omega
  have hroot : r.toNat = 2 * leafCount s - 2 := by
    have hnewest := hmerging.queue.newest (by rw [leafRecs_length, hnext]; omega)
    rw [hpq, List.mem_singleton, hnext] at hnewest
    rw [← hnewest, toNat_ofNat_idx (by omega)]
    omega
  have hncount : (BitVec.ofNat 10 s.merged.1).toNat = s.merged.1 := toNat_ofNat_idx (by omega)
  refine ⟨_, (buildBody_eq s).trans (congrArg Run.ok (buildEnd_of_pq_singleton hpq _)), ?frame, hroot, hncount.trans hnext,
    hncount.symm ▸ hmerging, hpq, rfl⟩
  case frame =>
    have hm : s.merged.2 = { s.dropTree.dropCodes with node := s.merged.2.node, pq := s.merged.2.pq } :=
      eq_of_maskTree (merged_frame s)
    rw [hm]
    rfl

section Built
variable {s m t : State} (h : Built s m t)
include h

theorem Built.ncount_bounds : 3 ≤ t.ncount.toNat ∧ t.ncount.toNat ≤ 513 := by
  obtain ⟨hleast, hmost⟩ := leafCount_bounds s
  have hncount := h.ncount
  omega

theorem Built.nodeAt (i : NodeIdx) : t.nodeAt i = m.nodeAt i := nodeAt_of_node_eq h.node i

theorem Built.weightAt (i : NodeIdx) : t.weightAt i = m.weightAt i := weightAt_of_nodeAt_eq (h.nodeAt i)

/-- The leaves are below `leafCount`, the internal nodes from there on (R135). -/
theorem Built.leaf {k : Nat} (hk : k < t.ncount.toNat) : (t.nodeAt (BitVec.ofNat 10 k)).leaf = decide (k < leafCount s) := by
  rw [h.nodeAt, h.merging.nodes.leaf k hk, leafRecs_length]

theorem Built.mergedAt {k : Nat} (hlow : leafCount s ≤ k) (hk : k < t.ncount.toNat) : MergedAt t k := by
  obtain ⟨l, r, hrec, hl, hr, hkey, hsmall⟩ := h.merging.nodes.merged k (leafRecs_length s ▸ hlow) hk
  refine ⟨l, r, ?_, hl, hr, ?_, ?_⟩
  · rw [h.nodeAt, h.nodeAt, h.nodeAt, hrec]
  · rw [keyLt_of_nodeAt_eq (h.nodeAt l) (h.nodeAt r), hkey]
  · rw [h.weightAt, h.weightAt]
    exact hsmall

theorem Built.monotone {j k : Nat} (hlow : leafCount s ≤ j) (hjk : j ≤ k) (hk : k < t.ncount.toNat) :
    t.weightAt (BitVec.ofNat 10 j) ≤ t.weightAt (BitVec.ofNat 10 k) := by
  rw [h.weightAt, h.weightAt]
  exact h.merging.nodes.monotone j k (leafRecs_length s ▸ hlow) hjk hk

theorem Built.root_weight : t.weightAt t.root = s.total := by
  have hsum := h.merging.nodes.sum
  rw [h.pq, List.map_singleton, List.sum_singleton] at hsum
  rw [h.weightAt, hsum]

/-- The one tree left in PQ is the tree of the block. -/
theorem Built.treeIs : ∃ u, TreeIs t u ∧ u.leaves.Perm (s.leafRecs.map NodeRec.sym) := by
  obtain ⟨tree, hheld, hindices, hleaves⟩ := h.merging.forest
  obtain ⟨-, hmost⟩ := h.ncount_bounds
  rw [h.pq, List.flatMap_singleton] at hindices hleaves
  rw [h.pq, List.forall_mem_singleton] at hheld
  have hsame := holds_indices_congr (u := t) (s := m) (i := t.root) (t := tree t.root) fun j _ => h.nodeAt j
  refine ⟨tree t.root, ⟨hsame.1.trans hheld, hsame.2 ▸ hindices, hmost, ?isNode, ?symsOk⟩, hleaves⟩
  case isNode =>
    have hroot := h.root
    have hncount := h.ncount
    obtain ⟨hleast, -⟩ := leafCount_bounds s
    have hinternal := h.leaf (k := t.root.toNat) (by omega)
    rw [BitVec.ofNat_toNat, BitVec.setWidth_eq, decide_eq_false (by omega)] at hinternal
    cases htree : tree t.root with
    | leaf x =>
      rw [htree, holds, ← h.nodeAt, hinternal] at hheld
      cases hheld
    | node l r => rfl
  case symsOk =>
    refine List.all_eq_true.mpr fun x hx => decide_eq_true ?_
    obtain ⟨r, hr, rfl⟩ := List.mem_map.mp (hleaves.mem_iff.mp hx)
    exact (forall_mem_leafRecs r hr).2

end Built

/-- The symbols on the leaves. -/
theorem leafRecs_syms (s : State) :
    (1 < (liveSyms s).length → s.leafRecs.map NodeRec.sym = (liveSyms s).map (BitVec.ofNat 9)) ∧
    ((liveSyms s).length = 1 → s.leafRecs.map NodeRec.sym = [256, 256]) := by
  have hsym : ((liveSyms s).map s.leafOf).map NodeRec.sym = (liveSyms s).map (BitVec.ofNat 9) := by
    rw [List.map_map]
    rfl
  refine ⟨fun hmany => ?_, fun hone => ?_⟩
  · rw [State.leafRecs, if_neg (by omega), List.append_nil, hsym]
  · have hlive := liveSyms_eq s
    have hlen := congrArg List.length hlive
    rw [hone, List.length_append, List.length_singleton] at hlen
    rw [List.eq_nil_of_length_eq_zero (by omega : (List.filter _ _).length = 0), List.nil_append] at hlive
    rw [State.leafRecs, hlive]
    rfl

/-- BUILD in every state that takes a command. -/
theorem exec_build_built {s : State} (hs : Ready s) :
    ∃ m t, exec .build s = .next { t with seq := .done } ∧ Built { s with cmd := 0x03, seq := .busy } m t := by
  obtain ⟨t, hbody, hbuilt⟩ := buildBody_built { s with cmd := 0x03, seq := .busy }
  exact ⟨_, t, (runCommand_ready hs).trans (accept_ok rfl hbody), hbuilt⟩

theorem exec_build_next {s t : State} (hs : Ready s) (h : exec .build s = .next t) :
    ∃ m u, t = { u with seq := .done } ∧ Built { s with cmd := 0x03, seq := .busy } m u := by
  obtain ⟨m, u, hexec, hbuilt⟩ := exec_build_built hs
  rw [hexec] at h
  cases h
  exact ⟨m, u, rfl, hbuilt⟩

/-! ## The obligations -/

/-- Settles O34: every pass leaves PQ one shorter and NODE one entry longer. -/
theorem buildResult : Obligations.BuildResult := by
  unfold Obligations.BuildResult
  intro s hs
  obtain ⟨m, t, hexec, h⟩ := exec_build_built hs
  obtain ⟨hleast, hmost⟩ := h.ncount_bounds
  have hncount : t.ncount.toNat = 2 * leafCount s - 1 := h.ncount
  refine ⟨_, hexec, ?frame, h.root, h.ncount, hleast, hmost, fun k hk => ?leaf, fun k hlow hk => ?internal⟩
  case frame => rw [h.frame]
  case leaf => exact (h.leaf (by omega)).trans (decide_eq_true hk)
  case internal => exact (h.leaf hk).trans (decide_eq_false (Nat.not_lt.mpr hlow))

/-- Settles O36: the record a pass writes is the merge of the two least keys, and no later pass touches it. -/
theorem buildMergesInKeyOrder : Obligations.BuildMergesInKeyOrder := by
  unfold Obligations.BuildMergesInKeyOrder
  intro s t hs hexec k hlow hk
  obtain ⟨m, u, rfl, h⟩ := exec_build_next hs hexec
  exact h.mergedAt hlow hk

/-- Settles O37: no pair left in PQ is lighter than a merge already made, and a merge keeps what PQ weighs. -/
theorem buildWeightsMonotoneAndExact : Obligations.BuildWeightsMonotoneAndExact := by
  unfold Obligations.BuildWeightsMonotoneAndExact
  intro s t hs hexec
  obtain ⟨m, u, rfl, h⟩ := exec_build_next hs hexec
  exact ⟨fun j k hlow hjk hk => h.monotone hlow hjk hk, h.root_weight⟩

/-- Settles O38: a pass joins two of the trees whose roots are in PQ, and the last one left has all the leaves. -/
theorem buildMakesWellFormedTree : Obligations.BuildMakesWellFormedTree := by
  unfold Obligations.BuildMakesWellFormedTree
  intro s t hs hexec
  obtain ⟨m, u, rfl, h⟩ := exec_build_next hs hexec
  obtain ⟨tree, htree, hleaves⟩ := h.treeIs
  obtain ⟨hmany, hone⟩ := leafRecs_syms { s with cmd := 0x03, seq := .busy }
  refine ⟨tree, treeIs_congr htree rfl rfl rfl, fun hlen => hmany hlen ▸ hleaves, fun hlen => ?_⟩
  rw [hone hlen] at hleaves
  exact (List.perm_replicate (n := 2)).mp hleaves

end Sys2Proof.Machine
end

section
/-!
PROOFS. BUILD is a function of FREQ (41_tree_builder, inference (g)): two runs over the same leaves make the same passes.
-/
namespace Sys2Proof.Machine

/-- The same PQ, and the same entries below `n`, where PQ's indices are. -/
structure SameBelow (n : Nat) (s t : State) : Prop where
  pq : t.pq = s.pq
  lt : ∀ i ∈ s.pq, i.toNat < n
  nodeAt : ∀ j : NodeIdx, j.toNat < n → t.nodeAt j = s.nodeAt j

section SameBelow
variable {n : Nat} {s t s1 : State} {a : NodeIdx} (h : SameBelow n s t)
include h

theorem SameBelow.key {i : NodeIdx} (hi : i ∈ s.pq) : t.key i = s.key i := by
  rw [State.key, State.key, h.nodeAt i (h.lt i hi)]

/-- The same index has the least key. -/
theorem SameBelow.extractMin (hs : s.extractMin = some (a, s1)) :
    ∃ t1, t.extractMin = some (a, t1) ∧ a.toNat < n ∧ SameBelow n s1 t1 := by
  obtain ⟨hmin, rfl⟩ := State.extractMin_eq_some_iff.mp hs
  have ha : a ∈ s.pq := List.argmin_mem hmin
  refine ⟨_, State.extractMin_of_least (h.pq ▸ ha) fun j hj hne => ?_, h.lt a ha, congrArg (List.erase · a) h.pq,
    fun i hi => h.lt i (List.mem_of_mem_erase hi), h.nodeAt⟩
  rw [h.pq] at hj
  rw [h.key ha, h.key hj]
  exact Nat.lt_of_le_of_ne (List.le_of_mem_argmin hj hmin) fun heq => hne (s.key_injective heq.symm)

theorem SameBelow.addNode (hn : n < 513) (r : NodeRec) : SameBelow (n + 1) (s.addNode n r) (t.addNode n r) := by
  have hnew : (BitVec.ofNat 10 n : NodeIdx).toNat = n := toNat_ofNat_idx (by omega)
  refine ⟨congrArg (BitVec.ofNat 10 n :: ·) h.pq, List.forall_mem_cons.mpr ⟨by omega, fun i hi => Nat.lt_succ_of_lt (h.lt i hi)⟩,
    fun j hj => ?_⟩
  obtain hlt | heq := Nat.lt_succ_iff_lt_or_eq.mp hj
  · rw [addNode_nodeAt_of_lt _ _ hlt (by omega), addNode_nodeAt_of_lt _ _ hlt (by omega), h.nodeAt j hlt]
  · obtain rfl : j = BitVec.ofNat 10 n := BitVec.eq_of_toNat_eq (heq.trans hnew.symm)
    rw [addNode_nodeAt_self _ _ hn, addNode_nodeAt_self _ _ hn]

end SameBelow

theorem SameBelow.addNodes {rs : List NodeRec} {n : Nat} {s t : State} (h : SameBelow n s t) (hn : n + rs.length ≤ 513) :
    SameBelow (n + rs.length) (s.addNodes n rs) (t.addNodes n rs) := by
  induction rs generalizing n s t with
  | nil => exact h
  | cons r rs ih =>
    rw [List.length_cons] at hn
    rw [List.length_cons, Nat.add_comm rs.length, ← Nat.add_assoc]
    exact ih (h.addNode (by omega) r) (by omega)

/-- The merge loop makes the same passes; `n` and PQ's length add up to one number, so that NODE has room. -/
theorem SameBelow.buildMerge {fuel n : Nat} {s t : State} (h : SameBelow n s t) (hn : n + s.pq.length ≤ 514) :
    (buildMerge fuel n t).1 = (buildMerge fuel n s).1 ∧
      SameBelow (buildMerge fuel n s).1 (buildMerge fuel n s).2 (buildMerge fuel n t).2 := by
  induction fuel generalizing n s t with
  | zero => exact ⟨rfl, h⟩
  | succ fuel ih =>
    have hstop : ∀ {s' : State}, s'.extractMin = none → ∀ {t' : State}, SameBelow n s' t' → t'.extractMin = none := fun hs' _ h' =>
      (State.extractMin_eq_none_iff _).mpr (h'.pq.trans ((State.extractMin_eq_none_iff _).mp hs'))
    cases hs : s.extractMin with
    | none =>
      simp only [Machine.buildMerge, hs, hstop hs h]
      exact ⟨trivial, h⟩
    | some p =>
      obtain ⟨a, s1⟩ := p
      obtain ⟨t1, ht, ha, h1⟩ := h.extractMin hs
      cases hs1 : s1.extractMin with
      | none =>
        simp only [Machine.buildMerge, hs, hs1, ht, hstop hs1 h1]
        exact ⟨trivial, h⟩
      | some q =>
        obtain ⟨b, s2⟩ := q
        obtain ⟨t2, ht1, hb, h2⟩ := h1.extractMin hs1
        have hlen : s.pq.length = s2.pq.length + 2 := by
          obtain ⟨hminA, rfl⟩ := State.extractMin_eq_some_iff.mp hs
          obtain ⟨hminB, rfl⟩ := State.extractMin_eq_some_iff.mp hs1
          have hlenA := List.length_erase_add_one (List.argmin_mem hminA)
          have hlenB := List.length_erase_add_one (List.argmin_mem hminB)
          dsimp only at hlenB ⊢
          omega
        have hmerge : t2.mergeOf a b = s2.mergeOf a b := by rw [State.mergeOf, State.mergeOf, h2.nodeAt a ha, h2.nodeAt b hb]
        rw [buildMerge_step hs hs1, buildMerge_step ht ht1, hmerge]
        refine ih (h2.addNode (by omega) _) ?_
        change n + 1 + (s2.pq.length + 1) ≤ 514
        omega

/-! ## The same counts -/

theorem leafRecs_of_freq_eq {s t : State} (h : t.freq = s.freq) : t.leafRecs = s.leafRecs := by
  have hfreq : t.freqAt = s.freqAt := funext (freqAt_of_freq_eq h)
  have hlive : liveSyms t = liveSyms s := by rw [liveSyms, liveSyms, hfreq]
  have hleaf : t.leafOf = s.leafOf := by funext x; rw [State.leafOf, State.leafOf, hfreq]
  rw [State.leafRecs, State.leafRecs, hlive, hleaf]

theorem sameBelow_merged {s t : State} (h : t.freq = s.freq) :
    t.merged.1 = s.merged.1 ∧ SameBelow s.merged.1 s.merged.2 t.merged.2 := by
  have hrecs := leafRecs_of_freq_eq h
  have hlen := leafRecs_length s
  obtain ⟨-, hmost⟩ := leafCount_bounds s
  have hblank : SameBelow 0 s.blank t.blank := ⟨rfl, List.forall_mem_nil _, fun j hj => absurd hj (Nat.not_lt_zero _)⟩
  have hleaves := hblank.addNodes (rs := s.leafRecs) (by omega)
  rw [hlen, Nat.zero_add] at hleaves
  have hpq : s.guarded.2.pq.length = leafCount s := by
    rw [guarded_eq, addNodes_pq_length, hlen]
    exact Nat.zero_add _
  have hguarded : t.guarded = (leafCount s, t.blank.addNodes 0 s.leafRecs) := by
    rw [guarded_eq, ← leafRecs_length, hrecs, hlen]
  rw [guarded_eq] at hpq
  rw [State.merged, State.merged, hguarded, guarded_eq, hleaves.pq]
  exact hleaves.buildMerge (by dsimp only at hpq; omega)

/-- Settles O40: the scan makes the same leaves of the same counts, and the merge loop looks at nothing else. -/
theorem buildDependsOnFreqOnly : Obligations.BuildDependsOnFreqOnly := by
  unfold Obligations.BuildDependsOnFreqOnly
  intro a b t u ha hb hfreq ht hu
  obtain ⟨hnext, hsame⟩ := sameBelow_merged (s := { a with cmd := 0x03, seq := .busy }) (t := { b with cmd := 0x03, seq := .busy })
    hfreq.symm
  obtain ⟨-, r, hpq⟩ := merging_merged { a with cmd := 0x03, seq := .busy }
  rw [exec_build ha, buildEnd_of_pq_singleton hpq] at ht
  rw [exec_build hb, buildEnd_of_pq_singleton (hsame.pq.trans hpq), hnext] at hu
  cases ht
  cases hu
  refine ⟨rfl, rfl, fun k hk => (hsame.nodeAt _ ?_).symm⟩
  have hmod : (BitVec.ofNat 10 (State.merged { a with cmd := 0x03, seq := .busy }).1).toNat ≤
      (State.merged { a with cmd := 0x03, seq := .busy }).1 := by rw [BitVec.toNat_ofNat]; exact Nat.mod_le _ _
  have hidx : (BitVec.ofNat 10 k : NodeIdx).toNat ≤ k := by rw [BitVec.toNat_ofNat]; exact Nat.mod_le _ _
  exact hidx.trans_lt (Nat.lt_of_lt_of_le hk hmod)

end Sys2Proof.Machine
end

section
/-!
PROOFS. The steps of a command look at neither CMD nor STATE (46_orchestration R204, R206: the same steps run in place).
-/
namespace Sys2Proof.Machine

/-- CMD and STATE written, as the command runner does. -/
def State.relabel (s : State) (w : Byte) (q : Seq) : State := { s with cmd := w, seq := q }

def Run.map (f : State → State) : Run → Run
  | .ok s => .ok (f s)
  | .raised e info s => .raised e info (f s)
  | .stuck => .stuck

/-- The steps come to the same whatever CMD and STATE hold, and leave both. -/
def Commutes (body : State → Run) : Prop := ∀ s w q, body (s.relabel w q) = (body s).map (·.relabel w q)

theorem Commutes.andThen {f g : State → Run} (hf : Commutes f) (hg : Commutes g) : Commutes (fun s => (f s).andThen g) := by
  intro s w q
  dsimp only
  rw [hf s w q]
  cases f s with
  | ok t => exact hg t w q
  | raised e info t => rfl
  | stuck => rfl

section Relabel
variable (s : State) (w : Byte) (q : Seq)

/-! ## The loops -/

theorem foldl_bitWrite_relabel (bits : List Bit) :
    bits.foldl State.bitWrite (s.relabel w q) = (bits.foldl State.bitWrite s).relabel w q := by
  rw [foldl_bitWrite, foldl_bitWrite]
  rfl

theorem countLoop_commutes (xs : List Byte) : Commutes (countLoop xs) := by
  induction xs with
  | nil => exact fun _ _ _ => rfl
  | cons x xs ih =>
    intro s w q
    have hfreq : (s.relabel w q).freqAt x.toNat = s.freqAt x.toNat := rfl
    have hnext : (s.relabel w q).countByte x = (s.countByte x).relabel w q := rfl
    rw [countLoop_cons, countLoop_cons, hfreq, hnext, ih]
    split
    · rfl
    · rfl

theorem walk_commutes (levels : Nat) (i : NodeIdx) (len : CodeLen) (val : CodeVal) : Commutes (walk levels i len val) := by
  induction levels generalizing i len val with
  | zero => exact fun _ _ _ => rfl
  | succ levels ih =>
    intro s w q
    have hat : (s.relabel w q).nodeAt i = s.nodeAt i := rfl
    rw [walk, walk, hat]
    split
    · rfl
    · exact (ih _ _ _).andThen (ih _ _ _) s w q

theorem emit_commutes (levels : Nat) (i : NodeIdx) : Commutes (emit levels i) := by
  induction levels generalizing i with
  | zero => exact fun _ _ _ => rfl
  | succ levels ih =>
    intro s w q
    have hat : (s.relabel w q).nodeAt i = s.nodeAt i := rfl
    rw [emit, emit, hat]
    split
    · exact congrArg Run.ok (foldl_bitWrite_relabel (s.bitWrite true) w q (bitsN 9 (s.nodeAt i).sym.toNat))
    · exact (ih _).andThen (ih _) (s.bitWrite false) w q

theorem writeCode_commutes (x : Nat) : Commutes (writeCode x) := by
  intro s w q
  have hat : (s.relabel w q).codeAt x = s.codeAt x := rfl
  rw [writeCode, writeCode, hat]
  split
  · rfl
  · exact congrArg Run.ok (foldl_bitWrite_relabel s w q _)

theorem encLoop_commutes (xs : List Byte) : Commutes (encLoop xs) := by
  induction xs with
  | nil => exact writeCode_commutes Config.eos
  | cons x xs ih => exact fun s w q => (writeCode_commutes x.toNat).andThen ih s.advanceSin w q

theorem decLoop_commutes (bits : List Bit) : Commutes (decLoop bits) := by
  induction bits with
  | nil => exact fun _ _ _ => rfl
  | cons b bits ih =>
    intro s w q
    have hstep : (s.relabel w q).advanceBin.stepCur b = (s.advanceBin.stepCur b).relabel w q := rfl
    have hwrite : ∀ (t : State) (x : Byte) (i : NodeIdx),
        ((t.relabel w q).symWrite x).setCur i = ((t.symWrite x).setCur i).relabel w q := fun _ _ _ => rfl
    have hat : ∀ (t : State) (i : NodeIdx), (t.relabel w q).nodeAt i = t.nodeAt i := fun _ _ => rfl
    have hcur : ∀ t : State, (t.relabel w q).cur = t.cur := fun _ => rfl
    have hroot : ∀ t : State, (t.relabel w q).root = t.root := fun _ => rfl
    simp only [decLoop, hstep, hwrite, hat, hcur, hroot]
    split
    · split
      · rfl
      · exact ih _ w q
    · exact ih _ w q

/-! ## BUILD -/

/-- The merge loop answers the next free index beside the state. -/
def relabelSnd (w : Byte) (q : Seq) (p : Nat × State) : Nat × State := (p.1, p.2.relabel w q)

theorem extractMin_relabel : (s.relabel w q).extractMin = s.extractMin.map (fun p => (p.1, p.2.relabel w q)) := by
  have hmin : (s.relabel w q).pqMin = s.pqMin := rfl
  rw [State.extractMin, State.extractMin, hmin]
  cases s.pqMin with
  | none => rfl
  | some i => rfl

theorem addNodes_relabel (rs : List NodeRec) (n : Nat) : (s.relabel w q).addNodes n rs = (s.addNodes n rs).relabel w q := by
  induction rs generalizing n s with
  | nil => rfl
  | cons r rs ih => exact ih (s.addNode n r) (n + 1)

theorem buildMerge_relabel (fuel n : Nat) : buildMerge fuel n (s.relabel w q) = relabelSnd w q (buildMerge fuel n s) := by
  induction fuel generalizing n s with
  | zero => rfl
  | succ fuel ih =>
    cases hs : s.extractMin with
    | none => simp only [buildMerge, extractMin_relabel, hs, Option.map_none]; rfl
    | some p =>
      obtain ⟨a, s1⟩ := p
      cases hs1 : s1.extractMin with
      | none => simp only [buildMerge, extractMin_relabel, hs, hs1, Option.map_none, Option.map_some]; rfl
      | some p =>
        obtain ⟨b, s2⟩ := p
        have ht : (s.relabel w q).extractMin = some (a, s1.relabel w q) := by rw [extractMin_relabel, hs]; rfl
        have ht1 : (s1.relabel w q).extractMin = some (b, s2.relabel w q) := by rw [extractMin_relabel, hs1]; rfl
        rw [buildMerge_step hs hs1, buildMerge_step ht ht1]
        exact ih (s2.addNode n (s2.mergeOf a b)) (n + 1)

theorem buildEnd_relabel (n : Nat) : buildEnd n (s.relabel w q) = (buildEnd n s).relabel w q := by
  rw [buildEnd, buildEnd, extractMin_relabel]
  cases s.extractMin with
  | none => rfl
  | some p => rfl

theorem merged_relabel : (s.relabel w q).merged = relabelSnd w q s.merged := by
  have hguarded : (s.relabel w q).guarded = relabelSnd w q s.guarded := by
    rw [guarded_eq, guarded_eq]
    exact congrArg (Prod.mk (leafCount s)) (addNodes_relabel s.blank w q s.leafRecs 0)
  rw [State.merged, State.merged, hguarded]
  exact buildMerge_relabel s.guarded.2 w q s.guarded.2.pq.length s.guarded.1

theorem buildBody_commutes : Commutes buildBody := by
  intro s w q
  rw [buildBody_eq, buildBody_eq, merged_relabel]
  exact congrArg Run.ok (buildEnd_relabel s.merged.2 w q s.merged.1)

/-! ## HDRR -/

def BitsResult.map (f : State → State) : BitsResult → BitsResult
  | .value v s => .value v (f s)
  | .ended k s => .ended k (f s)

def RdResult.map (f : State → State) : RdResult → RdResult
  | .ok i n s => .ok i n (f s)
  | .raised e info s => .raised e info (f s)

theorem bitsReadFrom_relabel (m k r : Nat) :
    bitsReadFrom m k r (s.relabel w q) = (bitsReadFrom m k r s).map (·.relabel w q) := by
  induction m generalizing k r s with
  | zero => rfl
  | succ m ih =>
    cases hbin : s.binRest with
    | nil =>
      have hbin' : (s.relabel w q).binRest = [] := hbin
      rw [bitsReadFrom, bitsReadFrom, bitRead_nil hbin, bitRead_nil hbin']
      rfl
    | cons b bits =>
      have hbin' : (s.relabel w q).binRest = b :: bits := hbin
      rw [bitsReadFrom, bitsReadFrom, bitRead_cons hbin, bitRead_cons hbin']
      exact ih s.advanceBin (k + 1) (2 * r + b.toNat)

theorem bitsRead_relabel (n : Nat) : (s.relabel w q).bitsRead n = (s.bitsRead n).map (·.relabel w q) :=
  bitsReadFrom_relabel s w q n 0 0

theorem rd_relabel (levels n : Nat) : rd levels n (s.relabel w q) = (rd levels n s).map (·.relabel w q) := by
  induction levels generalizing n s with
  | zero => rfl
  | succ levels ih =>
    cases hbin : s.binRest with
    | nil =>
      have hbin' : (s.relabel w q).binRest = [] := hbin
      rw [rd_end hbin, rd_end hbin']
      rfl
    | cons tag bits =>
      have hbin' : (s.relabel w q).binRest = tag :: bits := hbin
      have hstep : (s.relabel w q).advanceBin = s.advanceBin.relabel w q := rfl
      by_cases hn : n = Config.nnode
      · simp only [rd, bitRead_cons hbin, bitRead_cons hbin', if_pos hn]
        rfl
      · cases tag with
        | true =>
          simp only [rd, bitRead_cons hbin, bitRead_cons hbin', if_neg hn, if_true, hstep, bitsRead_relabel]
          cases s.advanceBin.bitsRead 9 with
          | ended k t => rfl
          | value v t =>
            simp only [BitsResult.map]
            split
            · rfl
            · rfl
        | false =>
          simp only [rd, bitRead_cons hbin, bitRead_cons hbin', if_neg hn, Bool.false_eq_true, if_false, hstep, ih]
          cases rd levels (n + 1) s.advanceBin with
          | raised e info t => rfl
          | ok l m t =>
            simp only [RdResult.map, ih]
            cases rd levels m t with
            | raised e info u => rfl
            | ok r k u => rfl

end Relabel

/-! ## The steps of each command -/

theorem countBody_commutes : Commutes countBody := fun s w q => countLoop_commutes s.sinRest s.zeroFreq w q

theorem deriveBody_commutes : Commutes deriveBody := fun s w q =>
  (walk_commutes walkLevels s.root 0 0).andThen (g := fun t => .ok { t with codeValid := true }) (fun _ _ _ => rfl)
    { s.dropCodes with code := Vector.replicate 257 { len := 0, val := 0 } } w q

theorem magwBody_commutes : Commutes magwBody := fun s w q => congrArg Run.ok (foldl_bitWrite_relabel s w q _)

theorem hdrwBody_commutes : Commutes hdrwBody := fun s w q => emit_commutes walkLevels s.root s w q

theorem rewindBody_commutes : Commutes rewindBody := fun _ _ _ => rfl

theorem encBody_commutes : Commutes encBody := fun s w q => encLoop_commutes s.sinRest s w q

theorem decBody_commutes : Commutes decBody := fun s w q => decLoop_commutes s.binRest (s.setCur s.root) w q

theorem magrBody_commutes : Commutes magrBody := by
  intro s w q
  rw [magrBody, magrBody, bitsRead_relabel]
  cases s.bitsRead 32 with
  | ended k t => rfl
  | value v t =>
    have hmagic : (t.relabel w q).magic = t.magic := rfl
    simp only [BitsResult.map, hmagic]
    split
    · rfl
    · rfl

theorem hdrrBody_commutes : Commutes hdrrBody := by
  intro s w q
  have hstart : (s.relabel w q).dropTree.dropCodes = s.dropTree.dropCodes.relabel w q := rfl
  rw [hdrrBody, hdrrBody, hstart, rd_relabel]
  cases rd (Config.nnode + 1) 0 s.dropTree.dropCodes with
  | raised e info t => rfl
  | ok r n t =>
    have hat : (t.relabel w q).nodeAt r = t.nodeAt r := rfl
    simp only [RdResult.map, hat]
    split
    · rfl
    · rfl

theorem compressBody_commutes : Commutes compressBody :=
  (((((countBody_commutes.andThen buildBody_commutes).andThen deriveBody_commutes).andThen magwBody_commutes).andThen
    hdrwBody_commutes).andThen rewindBody_commutes).andThen encBody_commutes

theorem decompressBody_commutes : Commutes decompressBody :=
  (magrBody_commutes.andThen hdrrBody_commutes).andThen decBody_commutes

end Sys2Proof.Machine
end

section
/-!
PROOFS. COMPRESS and DECOMPRESS as their steps issued one by one (46_orchestration R204, R206, R208).
-/
namespace Sys2Proof.Machine

/-! ## Commands issued one after another -/

theorem execAll_append_next {is js : List Instr} {s u : State} :
    execAll (is ++ js) s = .next u ↔ ∃ t, execAll is s = .next t ∧ execAll js t = .next u := by
  induction is generalizing s with
  | nil => simp [execAll]
  | cons i is ih =>
    rw [List.cons_append, execAll, execAll]
    cases exec i s with
    | next t => exact ih
    | fault f => simp
    | refused r => simp

/-- What the commands end in, where the steps come to `r`: DONE in the state of the steps, or ERROR in the state that raised, with
the number of the last command that ran in CMD. -/
def EndsAs (u : State) : Run → Prop
  | .ok v => ∃ w, u = v.relabel w .done
  | .raised e info v => ∃ w, u = (v.raiseError e info).relabel w .error
  | .stuck => False

/-- From states that meet `P` the commands do what the steps do, which then meet `Q`; in ERROR they do nothing. -/
structure StepsAs (P Q : State → Prop) (is : List Instr) (body : State → Run) : Prop where
  ignored : ∀ s, s.seq = .error → execAll is s = .next s
  endsAs : ∀ s u w q, P s → Ready (s.relabel w q) → execAll is (s.relabel w q) = .next u → EndsAs u (body s)
  yields : ∀ s v, P s → body s = .ok v → Q v

/-- A sequence ends where the first error does (R208). -/
theorem StepsAs.andThen {P Q R : State → Prop} {is js : List Instr} {f g : State → Run} (hf : StepsAs P Q is f)
    (hg : StepsAs Q R js g) : StepsAs P R (is ++ js) (fun s => (f s).andThen g) := by
  refine ⟨fun s hs => ?ignored, fun s u w q hp hready h => ?endsAs, fun s v hp h => ?yields⟩
  case ignored => exact execAll_append_next.mpr ⟨s, hf.ignored s hs, hg.ignored s hs⟩
  case endsAs =>
    obtain ⟨t, hfirst, hrest⟩ := execAll_append_next.mp h
    have hends := hf.endsAs s t w q hp hready hfirst
    cases hrun : f s with
    | ok v =>
      rw [hrun] at hends
      obtain ⟨w', rfl⟩ := hends
      exact hg.endsAs v u w' .done (hf.yields s v hp hrun) (.inr rfl) hrest
    | raised e info v =>
      rw [hrun] at hends
      obtain ⟨w', rfl⟩ := hends
      have hsame := (hg.ignored _ rfl).symm.trans hrest
      cases hsame
      exact ⟨w', rfl⟩
    | stuck => rw [hrun] at hends; exact hends.elim
  case yields =>
    cases hrun : f s with
    | ok t =>
      rw [hrun] at h
      exact hg.yields t v (hf.yields s t hp hrun) h
    | raised e info t => rw [hrun] at h; cases h
    | stuck => rw [hrun] at h; cases h

/-- What a command that is accepted comes to, by what its steps come to in the state the host sees. -/
theorem runCommand_eq_finish {w : Byte} {pre : State → Bool} {body : State → Run} {s : State} (hs : Ready s)
    (hpre : pre (s.relabel w .busy) = true) (hbody : Commutes body) :
    runCommand w pre body s = finish w ((body s).map (·.relabel w .busy)) := by
  rw [← hbody s w .busy, runCommand_ready hs, accept]
  exact if_pos hpre

/-- One command. -/
theorem stepsAs_single {P Q : State → Prop} {i : Instr} {w : Byte} {pre : State → Bool} {body : State → Run}
    (hexec : ∀ s, exec i s = runCommand w pre body s) (hw : w ≠ 0x01) (hpre : ∀ s w q, P s → pre (s.relabel w q) = true)
    (hbody : Commutes body) (hyields : ∀ s v, P s → body s = .ok v → Q v) : StepsAs P Q [i] body := by
  refine ⟨fun s hs => ?ignored, fun s u w' q hp hready h => ?endsAs, hyields⟩
  case ignored =>
    rw [execAll, hexec, runCommand_error hs hw]
    rfl
  case endsAs =>
    have hpre' : pre ((s.relabel w' q).relabel w .busy) = true := hpre s w .busy hp
    rw [execAll, hexec, runCommand_eq_finish hready hpre' hbody, hbody s w' q] at h
    cases hrun : body s with
    | ok v =>
      rw [hrun] at h
      cases h
      exact ⟨w, congrArg (fun q => v.relabel w q) (if_neg hw)⟩
    | raised e info v =>
      rw [hrun] at h
      cases h
      exact ⟨w, rfl⟩
    | stuck => rw [hrun] at h; cases h

/-- The sequence command itself ends in the same state, but for its own number in CMD. -/
theorem runCommand_of_endsAs {w : Byte} {body : State → Run} {s u : State} (hs : Ready s) (hw : w ≠ 0x01) (hbody : Commutes body)
    (h : EndsAs u (body s)) : runCommand w always body s = .next { u with cmd := w } := by
  rw [runCommand_eq_finish hs rfl hbody]
  cases hrun : body s with
  | ok v =>
    rw [hrun] at h
    obtain ⟨w', rfl⟩ := h
    exact congrArg (fun q => Host.Outcome.next (v.relabel w q)) (if_neg hw)
  | raised e info v =>
    rw [hrun] at h
    obtain ⟨w', rfl⟩ := h
    rfl
  | stuck => rw [hrun] at h; exact h.elim

/-! ## The flags along the sequences -/

def HasTree (s : State) : Prop := s.treeValid = true
def HasCodes (s : State) : Prop := s.treeValid = true ∧ s.codeValid = true
def AnyState (_ : State) : Prop := True

theorem buildBody_hasTree {s v : State} (h : buildBody s = .ok v) : HasTree v := by
  obtain ⟨t, hbody, hbuilt⟩ := buildBody_built s
  rw [hbody] at h
  cases h
  exact hbuilt.frame ▸ rfl

theorem deriveBody_hasCodes {s v : State} (hs : HasTree s) (h : deriveBody s = .ok v) : HasCodes v := by
  have hframe := walk_frame walkLevels s.root 0 0 { s.dropCodes with code := Vector.replicate 257 { len := 0, val := 0 } }
  unfold deriveBody at h
  cases hwalk : walk walkLevels s.root 0 0 { s.dropCodes with code := Vector.replicate 257 { len := 0, val := 0 } } with
  | ok t =>
    rw [hwalk] at h hframe
    cases h
    have hmask : maskCode t = maskCode s.dropCodes := hframe
    exact ⟨(congrArg State.treeValid hmask).trans hs, rfl⟩
  | raised e info t => rw [hwalk] at h; cases h
  | stuck => rw [hwalk] at h; cases h

theorem hasCodes_of_maskBout {s v : State} (h : maskBout v = maskBout s) (hs : HasCodes s) : HasCodes v := by
  obtain ⟨htree, hcode⟩ := hs
  exact ⟨(congrArg State.treeValid h).trans htree, (congrArg State.codeValid h).trans hcode⟩

theorem hdrwBody_hasCodes {s v : State} (hs : HasCodes s) (h : hdrwBody s = .ok v) : HasCodes v := by
  have hframe := emit_frame walkLevels s.root s
  rw [← hdrwBody, h] at hframe
  exact hasCodes_of_maskBout hframe hs

theorem hdrrBody_hasTree {s v : State} (h : hdrrBody s = .ok v) : HasTree v := by
  unfold hdrrBody at h
  split at h
  · cases h
  · split at h
    · cases h
    · cases h; rfl

theorem compress_stepsAs :
    StepsAs AnyState AnyState [.count, .build, .derive, .magw, .hdrw, .rewind, .enc] compressBody := by
  have hcount : StepsAs AnyState AnyState [.count] countBody :=
    stepsAs_single (fun _ => rfl) (by decide) (fun _ _ _ _ => rfl) countBody_commutes (fun _ _ _ _ => trivial)
  have hbuild : StepsAs AnyState HasTree [.build] buildBody :=
    stepsAs_single (fun _ => rfl) (by decide) (fun _ _ _ _ => rfl) buildBody_commutes (fun _ _ _ => buildBody_hasTree)
  have hderive : StepsAs HasTree HasCodes [.derive] deriveBody :=
    stepsAs_single (fun _ => rfl) (by decide) (fun _ _ _ hs => hs) deriveBody_commutes (fun _ _ => deriveBody_hasCodes)
  have hmagw : StepsAs HasCodes HasCodes [.magw] magwBody :=
    stepsAs_single (fun _ => rfl) (by decide) (fun _ _ _ _ => rfl) magwBody_commutes
      (fun s v hs h => by cases h; exact hasCodes_of_maskBout (bitsWrite_frame s 32 _) hs)
  have hhdrw : StepsAs HasCodes HasCodes [.hdrw] hdrwBody :=
    stepsAs_single (fun _ => rfl) (by decide) (fun _ _ _ hs => hs.1) hdrwBody_commutes (fun _ _ => hdrwBody_hasCodes)
  have hrewind : StepsAs HasCodes HasCodes [.rewind] rewindBody :=
    stepsAs_single (fun _ => rfl) (by decide) (fun _ _ _ _ => rfl) rewindBody_commutes (fun s v hs h => by cases h; exact hs)
  have henc : StepsAs HasCodes AnyState [.enc] encBody :=
    stepsAs_single (fun _ => rfl) (by decide) (fun _ _ _ hs => hs.2) encBody_commutes (fun _ _ _ _ => trivial)
  have htree := hcount.andThen hbuild
  have hcodes := htree.andThen hderive
  have hmagic := hcodes.andThen hmagw
  have hheader := hmagic.andThen hhdrw
  have hrewound := hheader.andThen hrewind
  exact hrewound.andThen henc

theorem decompress_stepsAs : StepsAs AnyState AnyState [.magr, .hdrr, .dec] decompressBody := by
  have hmagr : StepsAs AnyState AnyState [.magr] magrBody :=
    stepsAs_single (fun _ => rfl) (by decide) (fun _ _ _ _ => rfl) magrBody_commutes (fun _ _ _ _ => trivial)
  have hhdrr : StepsAs AnyState HasTree [.hdrr] hdrrBody :=
    stepsAs_single (fun _ => rfl) (by decide) (fun _ _ _ _ => rfl) hdrrBody_commutes (fun _ _ _ => hdrrBody_hasTree)
  have hdec : StepsAs HasTree AnyState [.dec] decBody :=
    stepsAs_single (fun _ => rfl) (by decide) (fun _ _ _ hs => hs) decBody_commutes (fun _ _ _ _ => trivial)
  have hheader := hmagr.andThen hhdrr
  exact hheader.andThen hdec

/-- Settles O54: the steps look at neither CMD nor STATE, the flags stand where a later step asks for them, and after a raise the
commands left are ignored. -/
theorem sequencesEqualTheirSteps : Obligations.SequencesEqualTheirSteps := by
  unfold Obligations.SequencesEqualTheirSteps
  intro s u hs
  exact ⟨fun h => runCommand_of_endsAs hs (by decide) compressBody_commutes
      (compress_stepsAs.endsAs s u s.cmd s.seq trivial hs h),
    fun h => runCommand_of_endsAs hs (by decide) decompressBody_commutes
      (decompress_stepsAs.endsAs s u s.cmd s.seq trivial hs h)⟩

end Sys2Proof.Machine
end

section
/-!
PROOFS. COMPRESS (46_orchestration R204, R205): the container it appends.
-/
namespace Sys2Proof.Machine

/-! ## The tree has a code for every byte that was counted -/

theorem mem_leafRecs_syms {s : State} {x : Nat} (hx : x ∈ liveSyms s) : BitVec.ofNat 9 x ∈ s.leafRecs.map NodeRec.sym :=
  List.mem_map.mpr ⟨s.leafOf x, List.mem_append_left _ (List.mem_map_of_mem hx), rfl⟩

theorem mem_liveSyms_of_counts {s : State} {xs : List Byte} (h : s.Counts xs) {x : Byte} (hx : x ∈ xs) : x.toNat ∈ liveSyms s := by
  have hlt : x.toNat < Config.nsym := x.isLt.trans (by decide)
  have hpos : 0 < xs.count x := List.count_pos_iff.mpr hx
  rw [← h x] at hpos
  refine List.mem_filter.mpr ⟨List.mem_range.mpr hlt, decide_eq_true fun hzero => ?_⟩
  rw [hzero] at hpos
  exact Nat.lt_irrefl 0 hpos

theorem sentinel_mem_liveSyms (s : State) : 256 ∈ liveSyms s := by
  rw [liveSyms_eq]
  exact List.mem_append_right _ (List.mem_singleton_self _)

theorem codes_of_counts {s : State} {t : Tree} {xs : List Byte} (hleaves : t.leaves.Perm (s.leafRecs.map NodeRec.sym))
    (hcounts : s.Counts xs) : t.codes xs = true := by
  have hcode : ∀ x ∈ liveSyms s, (t.code (BitVec.ofNat 9 x)).isSome = true := fun x hx =>
    code_isSome_iff.mpr (hleaves.mem_iff.mpr (mem_leafRecs_syms hx))
  refine codes_iff.mpr ⟨fun x hx => ?_, hcode 256 (sentinel_mem_liveSyms s)⟩
  rw [← BitVec.ofNat_toNat]
  exact hcode _ (mem_liveSyms_of_counts hcounts hx)

/-! ## The code table of a tree -/

/-- CODE holds the codes of the tree. -/
def HasCodesOf (s : State) (t : Tree) : Prop := ∀ x : Nat, x ≤ 256 → s.codeAt x = codeEntry (t.code (BitVec.ofNat 9 x))

section HasCodesOf
variable {s d : State} {t : Tree} (ht : TreeIs d t) (hcodes : HasCodesOf s t)
include ht hcodes

theorem codeAt_len_ne_zero {x : Nat} (hx : x ≤ 256) (hsome : (t.code (BitVec.ofNat 9 x)).isSome = true) :
    (s.codeAt x).len ≠ 0 := by
  obtain ⟨p, hp⟩ := Option.isSome_iff_exists.mp hsome
  obtain ⟨hpos, hle⟩ := treeIs_code_length ht hp
  rw [hcodes x hx, hp, codeEntry]
  intro hzero
  have hlen := congrArg BitVec.toNat hzero
  rw [BitVec.toNat_ofNat, Nat.mod_eq_of_lt (by omega)] at hlen
  change p.length = 0 at hlen
  omega

/-- The payload under the code table is the payload under the tree. -/
theorem payloadBits_eq_payload (xs : List Byte) : payloadBits s xs = t.payload xs := by
  have hbytes : xs.flatMap (fun x => codeBits s x.toNat) = xs.flatMap (fun x => (t.code (x.setWidth 9)).getD []) :=
    List.flatMap_congr fun x _ => by
      rw [← BitVec.ofNat_toNat, codeBits_treeIs ht (hcodes x.toNat x.isLt.le)]
  rw [payloadBits, Tree.payload, hbytes, codeBits_treeIs ht (hcodes Config.eos le_rfl)]
  rfl

end HasCodesOf

/-! ## The tables (the first three steps) -/

/-- TREE_VALID's meaning looks at ROOT, NCOUNT and the entries below NCOUNT only. -/
theorem treeIs_of_same_entries {s u : State} {t : Tree} (h : TreeIs s t) (hroot : u.root = s.root) (hncount : u.ncount = s.ncount)
    (hnodes : ∀ k, k < s.ncount.toNat → u.nodeAt (BitVec.ofNat 10 k) = s.nodeAt (BitVec.ofNat 10 k)) : TreeIs u t := by
  have hsame : ∀ j ∈ indices s s.root t, u.nodeAt j = s.nodeAt j := fun j hj => by
    have hat := hnodes j.toNat ((treeIs_mem_indices h).mp hj)
    rwa [BitVec.ofNat_toNat, BitVec.setWidth_eq] at hat
  obtain ⟨hholds, hperm, hle, ht⟩ := h
  obtain ⟨hholds', hindices⟩ := holds_indices_congr hsame
  exact ⟨by rw [hroot, hholds', hholds], by rw [hroot, hncount, hindices]; exact hperm, hncount ▸ hle, ht⟩

/-- BUILD on another block with the same counts makes the same tree. -/
theorem treeIs_of_same_counts {c u b b' : State} {t : Tree} (hbody : buildBody c = .ok u) (ht : TreeIs u t) (hb : Ready b)
    (hfreq : b.freq = c.freq) (hexec : exec .build b = .next b') : TreeIs b' t := by
  have hready : Ready (c.relabel b.cmd b.seq) := hb
  have hrun : exec .build (c.relabel b.cmd b.seq) = .next (u.relabel 0x03 .done) := by
    refine (runCommand_eq_finish hready rfl buildBody_commutes).trans ?_
    rw [buildBody_commutes, hbody]
    rfl
  obtain ⟨hroot, hncount, hnodes⟩ := buildDependsOnFreqOnly _ _ _ _ hready hb hfreq.symm hrun hexec
  exact treeIs_of_same_entries (treeIs_congr ht rfl rfl rfl) hroot.symm hncount.symm fun k hk => (hnodes k hk).symm

/-- What the first three steps leave: the tree of the counts of SIN, and its codes. -/
structure Tabled (s d : State) (t : Tree) : Prop where
  frame : d = { s with
    treeValid := true, codeValid := true, freq := d.freq, node := d.node, code := d.code, root := d.root, ncount := d.ncount,
    pq := [], sinPos := s.sin.length, sinCnt := d.sinCnt, freeCtr := d.freeCtr }
  tree : TreeIs d t
  codes : HasCodesOf d t
  counts : d.Counts s.sin
  covers : t.codes s.sin = true
  same : ∀ b b' : State, Ready b → b.freq = d.freq → exec .build b = .next b' → TreeIs b' t

theorem count_build_derive {s : State} (hpos : s.sinPos = 0) (hroom : ∀ x : Byte, s.sin.count x < 2 ^ 32) :
    ∃ d t, (((countBody s).andThen buildBody).andThen deriveBody) = .ok d ∧ Tabled s d t := by
  have hrest : s.sinRest = s.sin := by rw [State.sinRest, hpos, List.drop_zero]
  obtain ⟨hcount, hcounts⟩ := countBody_ok (s := s) (hrest.symm ▸ hroom)
  rw [hrest] at hcount hcounts
  have hc := foldl_countByte s.sin s.zeroFreq
  generalize s.sin.foldl State.countByte s.zeroFreq = c at hcount hcounts hc
  obtain ⟨b, hbuild, hbuilt⟩ := buildBody_built c
  obtain ⟨t, ht, hleaves⟩ := hbuilt.treeIs
  obtain ⟨d, hderive, hd, hcodes⟩ := deriveBody_treeIs ht
  have hb := hbuilt.frame
  have hfreq : d.freq = c.freq := by rw [hd, hb]
  refine ⟨d, t, by rw [hcount, Run.andThen, hbuild, Run.andThen, hderive], ?frame,
    treeIs_congr ht (by rw [hd]) (by rw [hd]) (by rw [hd]), hcodes, ?counts, codes_of_counts hleaves hcounts, ?same⟩
  case frame =>
    rw [hd, hb, hc]
    simp only [State.zeroFreq, hpos, Nat.zero_add]
  case counts => exact fun y => (congrArg BitVec.toNat (freqAt_of_freq_eq hfreq y.toNat)).trans (hcounts y)
  case same => exact fun b1 b2 hb1 hfreq1 hexec => treeIs_of_same_counts hbuild ht hb1 (hfreq1.trans hfreq) hexec

/-! ## The container (the last four steps) -/

/-- The bits of the container after what BOUT held, and SIN read to its end. -/
def State.compressed (d : State) (bits : List Bit) : State :=
  { d with
    sinPos := d.sin.length, sinCnt := BitVec.ofNat 64 d.sin.length, bout := d.bout ++ bits,
    boutCnt := d.boutCnt + BitVec.ofNat 64 bits.length }

theorem foldl_bitWrite_eq_encode (bits : List Bit) (s : State) : bits.foldl State.bitWrite s = s.encode 0 bits := by
  rw [foldl_bitWrite, State.encode, BitVec.add_zero]
  rfl

theorem payloadBits_of_code_eq {s u : State} (h : u.code = s.code) (xs : List Byte) : payloadBits u xs = payloadBits s xs := by
  simp only [payloadBits, codeBits_of_code_eq h]

/-- MAGW and HDRW write the magic and the tree. -/
theorem magw_hdrw_treeIs {d : State} {t : Tree} (h : TreeIs d t) :
    (magwBody d).andThen hdrwBody = .ok (d.encode 0 (bitsN 32 d.magic.toNat ++ t.ser)) := by
  have hmagic : magwBody d = .ok (d.encode 0 (bitsN 32 d.magic.toNat)) := congrArg Run.ok (foldl_bitWrite_eq_encode _ d)
  have hheader := hdrwBody_treeIs (treeIs_congr (u := d.encode 0 (bitsN 32 d.magic.toNat)) h rfl rfl rfl)
  rw [← foldl_bitWrite, foldl_bitWrite_eq_encode, State.encode_encode] at hheader
  rw [hmagic]
  exact hheader

/-- ENC after a rewind writes the payload of SIN. -/
theorem encBody_rewound {s d : State} {t : Tree} (h : Tabled s d t) (bits : List Bit) :
    encBody (d.encode 0 bits).symRewind = .ok (d.compressed (bits ++ payloadBits d d.sin)) := by
  have hsin : d.sin = s.sin := by rw [h.frame]
  obtain ⟨hbytes, heos⟩ := codes_iff.mp h.covers
  have hcode : ∀ x ∈ d.sin, (d.codeAt x.toNat).len ≠ 0 := fun x hx => by
    refine codeAt_len_ne_zero h.tree h.codes x.isLt.le ?_
    rw [BitVec.ofNat_toNat]
    exact hbytes x (hsin ▸ hx)
  have hpayload := encBody_ok (s := (d.encode 0 bits).symRewind) hcode (codeAt_len_ne_zero h.tree h.codes le_rfl heos)
  rw [payloadBits_of_code_eq (s := d) (u := (d.encode 0 bits).symRewind) rfl] at hpayload
  refine hpayload.trans (congrArg Run.ok ?_)
  change State.encode (State.symRewind (d.encode 0 bits)) d.sin.length (payloadBits d d.sin) = _
  simp only [State.encode, State.symRewind, State.compressed, List.length_append, List.append_assoc, BitVec.ofNat_add,
    BitVec.add_assoc, zero_add]

theorem magw_hdrw_rewind_enc {s d : State} {t : Tree} (h : Tabled s d t) :
    ((((magwBody d).andThen hdrwBody).andThen rewindBody).andThen encBody) =
      .ok (d.compressed (container d.magic t (payloadBits d d.sin))) := by
  rw [magw_hdrw_treeIs h.tree]
  exact encBody_rewound h _

/-- The steps of COMPRESS from SIN's start (R205). -/
theorem compressBody_container {s : State} (hpos : s.sinPos = 0) (hroom : ∀ x : Byte, s.sin.count x < 2 ^ 32) :
    ∃ d t, compressBody s = .ok (d.compressed (container d.magic t (payloadBits d d.sin))) ∧ Tabled s d t := by
  obtain ⟨d, t, htables, h⟩ := count_build_derive hpos hroom
  refine ⟨d, t, ?_, h⟩
  rw [compressBody, htables]
  exact magw_hdrw_rewind_enc h

/-- Settles O55: the counts of SIN give the tree and its codes, and the rest of the steps write to BOUT. -/
theorem compressWritesTheContainer : Obligations.CompressWritesTheContainer := by
  unfold Obligations.CompressWritesTheContainer
  intro s hs hpos hroom
  obtain ⟨d, t, hbody, h⟩ := compressBody_container (s := { s with cmd := 0x0C, seq := .busy }) hpos hroom
  have hmagic : d.magic = s.magic := by rw [h.frame]
  have hsin : d.sin = s.sin := by rw [h.frame]
  rw [hmagic, hsin] at hbody
  refine ⟨_, t, (runCommand_ready hs).trans (accept_ok rfl hbody), treeIs_congr h.tree rfl rfl rfl, h.covers, ?frame, h.counts,
    h.same, payloadBits_eq_payload h.tree h.codes s.sin⟩
  case frame =>
    rw [h.frame]
    rfl

end Sys2Proof.Machine
end

section
/-!
PROOFS. DECOMPRESS (46_orchestration R206, R210, R215): a container read back, the round trip, and a container that is cut short.
-/
namespace Sys2Proof.Machine

/-! ## A whole container -/

theorem exec_decompress_container {s : State} {t : Tree} {xs : List Byte} {rest : List Bit} (hs : Ready s) (hnode : t.isNode = true)
    (hsize : t.size ≤ 513) (hsym : t.symsOk = true) (hcodes : t.codes xs = true)
    (hbin : s.binRest = container s.magic t (t.payload xs) ++ rest) :
    ∃ i, exec .decompress s = .next { State.decoded
      (State.headerRead (State.skipBin { s with cmd := 0x0D, seq := .busy } 32) t) (xs.map (byteWalk t)) (eosPath t) i with
      seq := .done } := by
  rw [payload_eq_walks] at hbin
  obtain ⟨-, heos⟩ := codes_iff.mp hcodes
  obtain ⟨i, hbody⟩ := decompressBody_container (s := { s with cmd := 0x0D, seq := .busy }) hnode hsym hsize
    (isByteWalk_of_codes hcodes) (reach_eosPath heos) hbin
  exact ⟨i, (runCommand_ready hs).trans (accept_ok rfl hbody)⟩

/-- Settles O56: the magic, the tree and the payload are read one after another. -/
theorem decompressReadsTheContainer : Obligations.DecompressReadsTheContainer := by
  unfold Obligations.DecompressReadsTheContainer
  intro s t xs rest hs hnode hsize hsym hcodes hbin
  obtain ⟨i, hexec⟩ := exec_decompress_container hs hnode hsize hsym hcodes hbin
  refine ⟨_, hexec, treeIs_congr (treeIs_headerRead hnode hsym hsize) rfl rfl rfl, ?frame⟩
  case frame =>
    have hlen : (container s.magic t (t.payload xs)).length = 32 + t.ser.length + (t.payload xs).length := by
      rw [container, List.length_append, List.length_append, bitsN_length]
    rw [headerRead_frame, hlen]
    simp only [State.decoded, State.skipBin, byteWalk_bytes, ← payload_eq_walks, List.length_map, BitVec.ofNat_add,
      BitVec.add_assoc, Nat.add_assoc]

/-! ## What COMPRESS wrote -/

/-- The container that COMPRESS writes to an empty BOUT. -/
theorem exec_compress_container {a a' : State} (ha : Ready a) (hpos : a.sinPos = 0) (hbout : a.bout = [])
    (hroom : ∀ x : Byte, a.sin.count x < 2 ^ 32) (hexec : exec .compress a = .next a') :
    ∃ t, TreeIs a' t ∧ t.codes a.sin = true ∧ a'.bout = container a.magic t (t.payload a.sin) := by
  obtain ⟨u, t, hexec', ht, hcodes, hu, -, -, hpayload⟩ := compressWritesTheContainer a ha hpos hroom
  obtain rfl : u = a' := by rw [hexec'] at hexec; cases hexec; rfl
  refine ⟨t, ht, hcodes, ?_⟩
  have hout : u.bout = a.bout ++ container a.magic t (payloadBits u a.sin) := congrArg State.bout hu
  rw [hout, hbout, List.nil_append, hpayload]

/-- Settles O57: what was written, with its padding, is a container and a rest. -/
theorem roundTrip : Obligations.RoundTrip := by
  unfold Obligations.RoundTrip
  intro a a' b ha hpos hbout hroom hexec hb hmagic hsout hbin
  obtain ⟨t, ht, hcodes, hout⟩ := exec_compress_container ha hpos hbout hroom hexec
  have hsize := (treeIs_size ht).trans_le (treeIs_ncount_le ht)
  have ⟨_, _, _, hnode, hsym⟩ := ht
  rw [unpack_pack, padded, hout, ← hmagic] at hbin
  obtain ⟨u, hdecompress, -, hu⟩ := decompressReadsTheContainer b t a.sin _ hb hnode hsize hsym hcodes hbin
  have hsoutU : u.sout = b.sout ++ a.sin := congrArg State.sout hu
  exact ⟨u, hdecompress, congrArg State.seq hu, by rw [hsoutU, hsout, List.nil_append]⟩

/-! ## A container that is cut short -/

/-- A cut after the first of two parts leaves the first whole. -/
theorem take_append_of_le {p q : List Bit} {k : Nat} (h : p.length ≤ k) : (p ++ q).take k = p ++ q.take (k - p.length) := by
  rw [List.take_append, List.take_of_length_le h]

/-- The bits of the first `m` bytes. -/
theorem unpack_take (bytes : List Byte) (m : Nat) : unpack (bytes.take m) = (unpack bytes).take (8 * m) := by
  induction bytes generalizing m with
  | nil => rw [List.take_nil]; exact List.take_nil.symm
  | cons c cs ih =>
    cases m with
    | zero => rfl
    | succ m =>
      have hcons : ∀ ds, unpack (c :: ds) = bitsN 8 c.toNat ++ unpack ds := fun _ => rfl
      have hlen : (bitsN 8 c.toNat).length = 8 := bitsN_length 8 _
      rw [List.take_succ_cons, hcons, hcons, ih, take_append_of_le (by omega), hlen, Nat.mul_succ, Nat.add_sub_cancel]

/-- HDRR where the header of a tree is cut (R171). -/
theorem hdrrBody_ser_cut {s : State} {t : Tree} (hsym : t.symsOk = true) (hsize : t.size ≤ 513) (hp : s.binRest <+: t.ser)
    (hlen : s.binRest.length < t.ser.length) : ∃ info u, hdrrBody s = .raised .fmtEosTree info u := by
  obtain ⟨n, q, hn, hunfinished, hbits, hq⟩ := ser_cut t s.binRest hsym hp hlen
  have hrecs : (t.recs.take n).length = n := by rw [List.length_take, recs_length]; omega
  have hraises : ∃ info k, RdRaises 0 s.binRest .fmtEosTree info k := by
    rw [hbits]
    obtain rfl | ⟨field, rfl, hfield⟩ := hq
    · exact ⟨_, _, .of_records hunfinished (by omega) (rdRaises_end _)⟩
    · exact ⟨_, _, .of_records hunfinished (by omega) (rdRaises_leaf_cut (by omega) hfield)⟩
  obtain ⟨info, k, hraises⟩ := hraises
  obtain ⟨node, hrd⟩ := hraises Config.nnode s.dropTree.dropCodes le_rfl rfl
  exact ⟨info, _, hdrrBody_raised hrd⟩

/-- DEC where the payload of bytes is cut (R195). -/
theorem decBody_payload_cut {s : State} {t : Tree} {xs : List Byte} (hholds : holds s s.root t = true) (hnode : t.isNode = true)
    (hcodes : t.codes xs = true) (hp : s.binRest <+: t.payload xs) (hlen : s.binRest.length < (t.payload xs).length) :
    ∃ info u, decBody s = .raised .fmtEosPayload info u := by
  obtain ⟨n, path, v, hbits, hv, hvnode⟩ := payload_cut hcodes hp hlen
  have hwalks : ∀ w ∈ (xs.take n).map (byteWalk t), IsByteWalk t w := fun w hw =>
    isByteWalk_of_codes hcodes w (List.map_subset _ (List.take_subset n xs) hw)
  obtain ⟨i, -, hbody⟩ := decBody_eq_decArrive hholds hnode hwalks hv (hbits.trans (List.append_nil _).symm)
  cases v with
  | leaf x => cases hvnode
  | node l r => exact ⟨_, _, hbody⟩

/-- The error of a container that is cut after `k` bits, by where it is cut. -/
def cutError (t : Tree) (k : Nat) : ErrKind :=
  if k < 32 then .fmtEosMagic else if k < 32 + t.ser.length then .fmtEosTree else .fmtEosPayload

/-- DECOMPRESS on the first `k` bits of a container. -/
theorem decompressBody_cut {s : State} {t : Tree} {xs : List Byte} {k : Nat} (hnode : t.isNode = true) (hsize : t.size ≤ 513)
    (hsym : t.symsOk = true) (hcodes : t.codes xs = true) (hk : k < (container s.magic t (t.payload xs)).length)
    (hbin : s.binRest = (container s.magic t (t.payload xs)).take k) :
    ∃ info u, decompressBody s = .raised (cutError t k) info u := by
  have hmagicLen : (bitsN 32 s.magic.toNat).length = 32 := bitsN_length 32 _
  have hlen : s.binRest.length = k := by rw [hbin, List.length_take]; omega
  rw [container, List.append_assoc] at hbin
  rw [container, List.length_append, List.length_append, hmagicLen] at hk
  by_cases hmagic : k < 32
  · have hmagr := magrBody_ended (hlen.symm ▸ hmagic)
    rw [cutError, if_pos hmagic]
    exact ⟨_, _, congrArg (fun run : Run => (run.andThen hdrrBody).andThen decBody) hmagr⟩
  rw [take_append_of_le (by omega), hmagicLen] at hbin
  have hrest : (s.skipBin 32).binRest = (t.ser ++ t.payload xs).take (k - 32) := by
    rw [binRest_skipBin, hbin, List.drop_left' hmagicLen]
  by_cases hheader : k < 32 + t.ser.length
  · rw [List.take_append_of_le_length (by omega)] at hrest
    obtain ⟨info, u, hbody⟩ := hdrrBody_ser_cut (s := s.skipBin 32) hsym hsize (hrest ▸ List.take_prefix ..)
      (by rw [hrest, List.length_take]; omega)
    refine ⟨info, u, ?_⟩
    rw [decompressBody, magrBody_match hbin, Run.andThen, hbody, cutError, if_neg hmagic, if_pos hheader]
    rfl
  · rw [take_append_of_le (by omega)] at hrest
    have hpayload := binRest_headerRead hrest
    obtain ⟨info, u, hbody⟩ := decBody_payload_cut (s := (s.skipBin 32).headerRead t) (holds_headerRead hsize) hnode hcodes
      (hpayload ▸ List.take_prefix ..) (by rw [hpayload, List.length_take]; omega)
    refine ⟨info, u, ?_⟩
    rw [decompressBody, magrBody_match hbin, Run.andThen, hdrrBody_tree hrest hnode hsym hsize, Run.andThen, hbody, cutError,
      if_neg hmagic, if_neg hheader]

/-- Settles O58: a cut container ends inside the magic, the header or the payload. -/
theorem truncatedContainerRaises : Obligations.TruncatedContainerRaises := by
  unfold Obligations.TruncatedContainerRaises
  intro a a' b t m ha hpos hbout hroom hexec ht hm hb hmagic hbin
  obtain ⟨t', ht', hcodes, hout⟩ := exec_compress_container ha hpos hbout hroom hexec
  obtain rfl := treeIs_unique ht ht'
  have hsize := (treeIs_size ht).trans_le (treeIs_ncount_le ht)
  have ⟨_, _, _, hnode, hsym⟩ := ht
  rw [unpack_take, unpack_pack, padded, List.take_append_of_le_length hm.le, hout, ← hmagic] at hbin
  rw [hout, ← hmagic] at hm
  obtain ⟨info, u, hbody⟩ := decompressBody_cut (s := { b with cmd := 0x0D, seq := .busy }) hnode hsize hsym hcodes hm hbin
  refine ⟨_, runCommand_raised hb rfl hbody, rfl, ?_⟩
  change (cutError t' (8 * m)).code = _
  unfold cutError
  split
  · rfl
  · split
    · rfl
    · rfl

end Sys2Proof.Machine
end

section
/-!
PROOFS. The invariant of the block along the steps of the commands (10_state section 3, 20_memory R65): what they keep of the tables
and where they leave the cursors.
-/
namespace Sys2Proof.Machine

/-! ## What the invariant looks at -/

/-- PQ, and the tables that a flag vouches for. -/
def tables (s : State) :
    List NodeIdx × Bool × Bool × Vector NodeRec 513 × NodeIdx × BitVec 10 × Vector CodeRec 257 :=
  (s.pq, s.treeValid, s.codeValid, s.node, s.root, s.ncount, s.code)

def errors (s : State) : BitVec 8 × BitVec 32 := (s.err, s.einfo)

def SinIn (s : State) : Prop := s.sinPos ≤ s.sin.length
def BinIn (s : State) : Prop := s.binPos ≤ s.bin.length

/-- The invariant's clauses on the tables and the streams. -/
structure TablesOk (s : State) : Prop where
  pqEmpty : s.pq = []
  sinRange : SinIn s
  binRange : BinIn s
  tree : s.treeValid = true → TreeOk s
  codes : s.codeValid = true → s.treeValid = true ∧ CodesOk s

/-- The invariant but for STATE, where no error is pending. -/
structure Sound (s : State) : Prop extends TablesOk s where
  noError : errors s = (0, 0)

section Tables
variable {s u : State} (htables : tables u = tables s)
include htables

theorem treeIs_of_tables {t : Tree} : TreeIs u t ↔ TreeIs s t := by
  simp only [tables, Prod.mk.injEq] at htables
  obtain ⟨-, -, -, hnode, hroot, hncount, -⟩ := htables
  exact ⟨fun h => treeIs_congr h hnode.symm hroot.symm hncount.symm, fun h => treeIs_congr h hnode hroot hncount⟩

theorem codesOk_of_tables (h : CodesOk s) : CodesOk u := by
  have hcode : u.code = s.code := congrArg (fun p => p.2.2.2.2.2.2) htables
  intro t ht x hx
  rw [codeAt_of_code_eq hcode]
  exact h t ((treeIs_of_tables htables).mp ht) x hx

theorem TablesOk.congr (h : TablesOk s) (hsin : SinIn u) (hbin : BinIn u) : TablesOk u := by
  have htree : TreeOk s → TreeOk u := fun ⟨t, ht⟩ => ⟨t, (treeIs_of_tables htables).mpr ht⟩
  have hcodes : CodesOk s → CodesOk u := codesOk_of_tables htables
  simp only [tables, Prod.mk.injEq] at htables
  obtain ⟨hpq, htreeValid, hcodeValid, -⟩ := htables
  refine ⟨hpq.trans h.pqEmpty, hsin, hbin, fun hv => htree (h.tree (htreeValid ▸ hv)), fun hv => ?_⟩
  obtain ⟨hvalid, hok⟩ := h.codes (hcodeValid ▸ hv)
  exact ⟨htreeValid.trans hvalid, hcodes hok⟩

end Tables

/-- All that a command without a table of its own leaves alone. -/
def kept (s : State) := (tables s, errors s)

theorem Sound.congr {s u : State} (hkept : kept u = kept s) (h : Sound s) (hsin : SinIn u) (hbin : BinIn u) : Sound u := by
  simp only [kept, Prod.mk.injEq] at hkept
  obtain ⟨htables, herrors⟩ := hkept
  exact ⟨h.toTablesOk.congr htables hsin hbin, herrors.trans h.noError⟩

/-- What commands leave sound: where the steps all ran, in a state that meets `Q`; and a walk never fails to end. -/
def SoundRun (Q : State → Prop) : Run → Prop
  | .ok t => Sound t ∧ Q t
  | .raised _ _ t => Sound t
  | .stuck => False

def KeepsSound (P Q : State → Prop) (body : State → Run) : Prop := ∀ s, Sound s → P s → SoundRun Q (body s)

theorem KeepsSound.andThen {P Q R : State → Prop} {f g : State → Run} (hf : KeepsSound P Q f) (hg : KeepsSound Q R g) :
    KeepsSound P R (fun s => (f s).andThen g) := by
  intro s hs hp
  have hfirst := hf s hs hp
  dsimp only
  cases hrun : f s with
  | ok t =>
    rw [hrun] at hfirst
    obtain ⟨ht, hq⟩ := hfirst
    exact hg t ht hq
  | raised e info t => rw [hrun] at hfirst; exact hfirst
  | stuck => rw [hrun] at hfirst; exact hfirst.elim

/-- A run that keeps what the invariant looks at. -/
theorem soundRun_of_all {r : Run} {s : State} (h : Sound s) (hstuck : r ≠ .stuck)
    (hall : r.All fun t => kept t = kept s ∧ SinIn t ∧ BinIn t) : SoundRun AnyState r := by
  cases r with
  | ok t =>
    obtain ⟨hkept, hsin, hbin⟩ := hall
    exact ⟨h.congr hkept hsin hbin, trivial⟩
  | raised e info t =>
    obtain ⟨hkept, hsin, hbin⟩ := hall
    exact h.congr hkept hsin hbin
  | stuck => exact absurd rfl hstuck

theorem Run.All.and {P Q : State → Prop} {r : Run} (hp : r.All P) (hq : r.All Q) : r.All fun t => P t ∧ Q t := by
  cases r with
  | ok t => exact ⟨hp, hq⟩
  | raised e info t => exact ⟨hp, hq⟩
  | stuck => trivial

/-! ## Frames -/

theorem kept_maskSin (s : State) : kept (maskSin s) = kept s := rfl
theorem kept_maskEnc (s : State) : kept (maskEnc s) = kept s := rfl
theorem kept_maskDec (s : State) : kept (maskDec s) = kept s := rfl

/-- A frame by a mask that blanks nothing the invariant looks at. -/
theorem kept_of_mask {mask : State → State} {s t : State} (h : mask t = mask s) (hmask : ∀ u, kept (mask u) = kept u) :
    kept t = kept s := by
  rw [← hmask t, h, hmask s]

theorem binIn_of_mask {mask : State → State} {s t : State} (h : mask t = mask s) (hpos : ∀ u, (mask u).binPos = u.binPos)
    (hbin : ∀ u, (mask u).bin = u.bin) (hs : BinIn s) : BinIn t := by
  rw [BinIn, ← hpos t, ← hbin t, h, hpos, hbin]
  exact hs

theorem sinIn_of_mask {mask : State → State} {s t : State} (h : mask t = mask s) (hpos : ∀ u, (mask u).sinPos = u.sinPos)
    (hsin : ∀ u, (mask u).sin = u.sin) (hs : SinIn s) : SinIn t := by
  rw [SinIn, ← hpos t, ← hsin t, h, hpos, hsin]
  exact hs

theorem sinIn_of_maskBout {s t : State} (h : maskBout t = maskBout s) (hs : SinIn s) : SinIn t :=
  sinIn_of_mask h (fun _ => rfl) (fun _ => rfl) hs

/-! ## COUNT and ENC: the cursor of SIN -/

/-- Bytes still to be read stand between SIN's cursor and its end. -/
theorem countLoop_sinIn (xs : List Byte) {s : State} (h : s.sinPos + xs.length ≤ s.sin.length) : (countLoop xs s).All SinIn := by
  induction xs generalizing s with
  | nil => exact h
  | cons x xs ih =>
    rw [List.length_cons] at h
    rw [countLoop_cons]
    split
    · change s.sinPos + 1 ≤ s.sin.length
      omega
    · refine ih ?_
      change s.sinPos + 1 + xs.length ≤ s.sin.length
      omega

theorem encLoop_sinIn (xs : List Byte) {s : State} (h : s.sinPos + xs.length ≤ s.sin.length) : (encLoop xs s).All SinIn := by
  induction xs generalizing s with
  | nil => exact (writeCode_frame _ s).mono fun t ht => sinIn_of_maskBout ht h
  | cons x xs ih =>
    rw [List.length_cons] at h
    rw [encLoop]
    refine (writeCode_frame x.toNat s.advanceSin).andThen (fun t ht => sinIn_of_maskBout ht ?_) fun t ht => ih ?_
    · change s.sinPos + 1 ≤ s.sin.length
      omega
    · have hpos : t.sinPos = s.sinPos + 1 := (congrArg State.sinPos ht :)
      have hsin : t.sin = s.sin := (congrArg State.sin ht :)
      rw [hpos, hsin]
      omega

theorem sinRest_length {s : State} (h : SinIn s) : s.sinPos + s.sinRest.length = s.sin.length := by
  rw [State.sinRest, List.length_drop]
  exact Nat.add_sub_cancel' h

theorem binRest_length {s : State} (h : BinIn s) : s.binPos + s.binRest.length = s.bin.length := by
  rw [State.binRest, List.length_drop]
  exact Nat.add_sub_cancel' h

theorem countBody_keepsSound : KeepsSound AnyState AnyState countBody := by
  intro s h _
  refine soundRun_of_all h (countLoop_not_stuck _ _) ?_
  refine Run.All.mono ((countLoop_frame s.sinRest s.zeroFreq).and (countLoop_sinIn s.sinRest (sinRest_length h.sinRange).le))
    fun t ht => ?_
  obtain ⟨hmask, hsin⟩ := ht
  exact ⟨kept_of_mask (s := s.zeroFreq) hmask kept_maskSin, hsin,
    binIn_of_mask (s := s.zeroFreq) hmask (fun _ => rfl) (fun _ => rfl) h.binRange⟩

theorem encBody_keepsSound : KeepsSound AnyState AnyState encBody := by
  intro s h _
  refine soundRun_of_all h (encLoop_not_stuck _ _) ?_
  refine Run.All.mono ((encLoop_frame s.sinRest s).and (encLoop_sinIn s.sinRest (sinRest_length h.sinRange).le)) fun t ht => ?_
  obtain ⟨hmask, hsin⟩ := ht
  exact ⟨kept_of_mask hmask kept_maskEnc, hsin, binIn_of_mask hmask (fun _ => rfl) (fun _ => rfl) h.binRange⟩

/-! ## DEC, MAGR and HDRR: the cursor of BIN -/

theorem decLoop_binIn (bits : List Bit) {s : State} (h : s.binPos + bits.length ≤ s.bin.length) : (decLoop bits s).All BinIn := by
  induction bits generalizing s with
  | nil => exact h
  | cons b bits ih =>
    rw [List.length_cons] at h
    have hnext : s.binPos + 1 + bits.length ≤ s.bin.length := by omega
    simp only [decLoop]
    split
    · split
      · change s.binPos + 1 ≤ s.bin.length
        omega
      · exact ih hnext
    · exact ih hnext

theorem decBody_keepsSound : KeepsSound AnyState AnyState decBody := by
  intro s h _
  refine soundRun_of_all h (decLoop_not_stuck _ _) ?_
  refine Run.All.mono ((decLoop_frame s.binRest (s.setCur s.root)).and
    (decLoop_binIn s.binRest (s := s.setCur s.root) (binRest_length h.binRange).le)) fun t ht => ?_
  obtain ⟨hmask, hbin⟩ := ht
  exact ⟨kept_of_mask (s := s.setCur s.root) hmask kept_maskDec,
    sinIn_of_mask (s := s.setCur s.root) hmask (fun _ => rfl) (fun _ => rfl) h.sinRange, hbin⟩

theorem binIn_skipBin {s : State} {n : Nat} (h : BinIn s) (hn : n ≤ s.binRest.length) : BinIn (s.skipBin n) := by
  have hlen := binRest_length h
  change s.binPos + n ≤ s.bin.length
  omega

/-- A group read consumes the bits of the group, or all that are left. -/
theorem bitsRead_cases (s : State) (n : Nat) :
    (n ≤ s.binRest.length ∧ s.bitsRead n = .value (bitsVal (s.binRest.take n)) (s.skipBin n)) ∨
      (s.binRest.length < n ∧ s.bitsRead n = .ended s.binRest.length (s.skipBin s.binRest.length)) := by
  by_cases hn : n ≤ s.binRest.length
  · have hread := bitsRead_value (s := s) (p := s.binRest.take n) (List.take_append_drop n s.binRest).symm
    rw [List.length_take_of_le hn] at hread
    exact .inl ⟨hn, hread⟩
  · exact .inr ⟨Nat.lt_of_not_le hn, bitsRead_ended (Nat.lt_of_not_le hn)⟩

theorem magrBody_keepsSound : KeepsSound AnyState AnyState magrBody := by
  intro s h _
  have hskip : ∀ n, n ≤ s.binRest.length → Sound (s.skipBin n) := fun n hn =>
    Sound.congr (s := s) (u := s.skipBin n) rfl h h.sinRange (binIn_skipBin h.binRange hn)
  obtain ⟨hn, hread⟩ | ⟨-, hread⟩ := bitsRead_cases s 32
  · simp only [magrBody, hread]
    split
    · exact ⟨hskip 32 hn, trivial⟩
    · exact hskip 32 hn
  · simp only [magrBody, hread]
    exact hskip _ le_rfl

/-- The state `rd()` comes to. -/
def RdResult.state : RdResult → State
  | .ok _ _ t => t
  | .raised _ _ t => t

theorem rd_binIn (levels n : Nat) {s : State} (h : BinIn s) : BinIn (rd levels n s).state := by
  induction levels generalizing n s with
  | zero => exact h
  | succ levels ih =>
    cases hbin : s.binRest with
    | nil => rw [rd_end hbin]; exact h
    | cons tag bits =>
      have hadvance : BinIn s.advanceBin := binIn_skipBin (n := 1) h (by rw [hbin]; exact Nat.le_add_left ..)
      by_cases hn : n = Config.nnode
      · simp only [rd, bitRead_cons hbin, if_pos hn]
        exact hadvance
      · cases tag with
        | true =>
          simp only [rd, bitRead_cons hbin, if_neg hn, if_true]
          obtain ⟨hlen, hread⟩ | ⟨-, hread⟩ := bitsRead_cases s.advanceBin 9
          · simp only [hread]
            split
            · exact binIn_skipBin hadvance hlen
            · exact binIn_skipBin hadvance hlen
          · simp only [hread]
            exact binIn_skipBin hadvance le_rfl
        | false =>
          simp only [rd, bitRead_cons hbin, if_neg hn, Bool.false_eq_true, if_false]
          have hleft := ih (n + 1) hadvance
          cases hrdL : rd levels (n + 1) s.advanceBin with
          | raised e info t => rw [hrdL] at hleft; exact hleft
          | ok l m t =>
            rw [hrdL] at hleft
            have hright := ih m hleft
            simp only [RdResult.state] at hright ⊢
            cases hrdR : rd levels m t with
            | raised e info u => rw [hrdR] at hright; exact hright
            | ok r k u => rw [hrdR] at hright; exact hright

/-- What `rd()` reads to its end is the serialisation of a tree that fits. -/
theorem rd_ok_tree {levels n m : Nat} {s u : State} {i : NodeIdx} (h : rd levels n s = .ok i m u) (hn : n ≤ 513) :
    ∃ t : Tree, s.binRest = t.ser ++ u.binRest ∧ t.symsOk = true ∧ m = n + t.size ∧ m ≤ 513 := by
  induction levels generalizing n m s u i with
  | zero => cases h
  | succ levels ih =>
    cases hbin : s.binRest with
    | nil => rw [rd_end hbin] at h; cases h
    | cons tag bits =>
      have hbits : s.advanceBin.binRest = bits := binRest_advanceBin_of_cons hbin
      by_cases hfull : n = Config.nnode
      · simp only [rd, bitRead_cons hbin, if_pos hfull] at h
        cases h
      have hroom : n + 1 ≤ 513 := Nat.lt_of_le_of_ne hn hfull
      cases tag with
      | true =>
        simp only [rd, bitRead_cons hbin, if_neg hfull, if_true] at h
        obtain ⟨hlen, hread⟩ | ⟨-, hread⟩ := bitsRead_cases s.advanceBin 9
        · rw [hbits] at hlen hread
          have hfield : bitsN 9 (BitVec.ofNat 9 (bitsVal (bits.take 9))).toNat = bits.take 9 :=
            bitsN_ofNat_bitsVal (List.length_take_of_le hlen)
          simp only [hread] at h
          split at h
          · cases h
          next hsym =>
            cases h
            refine ⟨.leaf (BitVec.ofNat 9 (bitsVal (bits.take 9))), ?_, ?_, rfl, hroom⟩
            · change true :: bits = true :: (bitsN 9 _ ++ (s.advanceBin.skipBin 9).binRest)
              rw [hfield, binRest_skipBin, hbits, List.take_append_drop]
            · have hle : bitsVal (bits.take 9) ≤ Config.eos := Nat.le_of_not_lt hsym
              simp only [Tree.symsOk, Tree.leaves, List.all_cons, List.all_nil, Bool.and_true]
              refine decide_eq_true ?_
              rw [← bitsVal_bitsN_toNat, hfield]
              exact hle
        · simp only [hread] at h
          cases h
      | false =>
        simp only [rd, bitRead_cons hbin, if_neg hfull, Bool.false_eq_true, if_false] at h
        cases hrdL : rd levels (n + 1) s.advanceBin with
        | raised e info t => simp only [hrdL] at h; cases h
        | ok l k t =>
          simp only [hrdL] at h
          cases hrdR : rd levels k t with
          | raised e info v => simp only [hrdR] at h; cases h
          | ok r k' v =>
            simp only [hrdR] at h
            cases h
            obtain ⟨lt, hbinL, hsymL, rfl, hle⟩ := ih hrdL hroom
            obtain ⟨rt, hbinR, hsymR, rfl, hle'⟩ := ih hrdR hle
            refine ⟨.node lt rt, ?_, ?_, ?_, hle'⟩
            · rw [hbits] at hbinL
              rw [Tree.ser, List.cons_append, List.append_assoc, hbinL, hbinR]
              rfl
            · simpa only [Tree.symsOk, Tree.leaves, List.all_append, Bool.and_eq_true] using And.intro hsymL hsymR
            · rw [Tree.size]
              omega

/-- Where HDRR's steps all ran they read a tree and stored it. -/
theorem hdrrBody_ok {s u : State} (h : hdrrBody s = .ok u) :
    ∃ t rest, s.binRest = t.ser ++ rest ∧ u = s.headerRead t ∧ TreeIs u t := by
  have hbody := h
  unfold hdrrBody at h
  cases hrd : rd (Config.nnode + 1) 0 s.dropTree.dropCodes with
  | raised e info v => simp only [hrd] at h; cases h
  | ok r n v =>
    obtain ⟨t, hbin, hsym, rfl, hsize⟩ := rd_ok_tree hrd (by decide)
    rw [Nat.zero_add] at hsize
    have hbin' : s.binRest = t.ser ++ v.binRest := hbin
    cases t with
    | leaf x =>
      have hx : x.toNat ≤ 256 := of_decide_eq_true (List.all_eq_true.mp hsym x (List.mem_singleton_self x))
      rw [hdrrBody_lone_leaf hbin' hx] at hbody
      cases hbody
    | node l r =>
      rw [hdrrBody_tree hbin' rfl hsym hsize] at hbody
      cases hbody
      exact ⟨_, _, hbin', rfl, treeIs_headerRead rfl hsym hsize⟩

/-- After a raise of HDRR there is neither a tree nor a code. -/
theorem hdrrBody_eq_raised {s u : State} {e : ErrKind} {info : BitVec 32} (hs : BinIn s) (h : hdrrBody s = .raised e info u) :
    ∃ v, maskBin v = maskBin s.dropTree.dropCodes ∧ BinIn v ∧ u = v.dropTree := by
  have hframe := rd_frame (Config.nnode + 1) 0 s.dropTree.dropCodes
  have hbin := rd_binIn (Config.nnode + 1) 0 (s := s.dropTree.dropCodes) hs
  unfold hdrrBody at h
  cases hrd : rd (Config.nnode + 1) 0 s.dropTree.dropCodes with
  | raised e' info' v =>
    simp only [hrd] at h hframe hbin
    cases h
    exact ⟨v, hframe, hbin, rfl⟩
  | ok r n v =>
    simp only [hrd] at h hframe hbin
    split at h
    · cases h; exact ⟨v, hframe, hbin, rfl⟩
    · cases h

theorem hdrrBody_not_stuck (s : State) : hdrrBody s ≠ .stuck := by
  unfold hdrrBody
  split
  · exact Run.noConfusion
  · split
    · exact Run.noConfusion
    · exact Run.noConfusion

theorem hdrrBody_keepsSound : KeepsSound AnyState HasTree hdrrBody := by
  intro s h _
  cases hrun : hdrrBody s with
  | ok u =>
    obtain ⟨t, rest, hbin, rfl, ht⟩ := hdrrBody_ok hrun
    refine ⟨?_, hdrrBody_hasTree hrun⟩
    have hlen : t.ser.length ≤ s.binRest.length := by rw [hbin, List.length_append]; exact Nat.le_add_right ..
    have hbinIn := binIn_skipBin h.binRange hlen
    have hframe := headerRead_frame s t
    refine ⟨⟨?_, ?_, ?_, fun _ => ⟨t, ht⟩, fun hv => ?_⟩, ?_⟩
    · rw [hframe]; exact h.pqEmpty
    · rw [hframe]; exact h.sinRange
    · rw [hframe]; exact hbinIn
    · rw [hframe] at hv; cases hv
    · rw [hframe]; exact h.noError
  | raised e info u =>
    obtain ⟨v, hframe, hbinIn, rfl⟩ := hdrrBody_eq_raised h.binRange hrun
    refine ⟨⟨?_, ?_, hbinIn, fun hv => Bool.noConfusion hv, fun hv => ?_⟩, ?_⟩
    · exact (congrArg State.pq hframe).trans h.pqEmpty
    · exact sinIn_of_mask (mask := maskBin) (t := v) hframe (fun _ => rfl) (fun _ => rfl) h.sinRange
    · have hcodes : v.codeValid = false := congrArg State.codeValid hframe
      exact Bool.noConfusion (hcodes.symm.trans hv)
    · exact (congrArg errors hframe).trans h.noError
  | stuck => exact hdrrBody_not_stuck s hrun

end Sys2Proof.Machine
end

section
/-!
PROOFS. Every step keeps the invariant of the block, and none faults (10_state sections 3 and 4, 42_code_table_deriver R152,
43_header_codec R163).
-/
namespace Sys2Proof.Machine

/-! ## BUILD, DERIVE, the writers and the sequences -/

theorem buildBody_keepsSound : KeepsSound AnyState HasTree buildBody := by
  intro s h _
  obtain ⟨t, hbody, hbuilt⟩ := buildBody_built s
  obtain ⟨u, hu, -⟩ := hbuilt.treeIs
  have hframe := hbuilt.frame
  rw [hbody]
  refine ⟨⟨⟨?_, ?_, ?_, fun _ => ⟨u, hu⟩, fun hv => ?_⟩, ?_⟩, buildBody_hasTree hbody⟩
  · rw [hframe]
  · rw [hframe]; exact h.sinRange
  · rw [hframe]; exact h.binRange
  · rw [hframe] at hv; cases hv
  · rw [hframe]; exact h.noError

theorem deriveBody_keepsSound : KeepsSound HasTree HasTree deriveBody := by
  intro s h hvalid
  obtain ⟨t, ht⟩ := h.tree hvalid
  obtain ⟨u, hbody, hframe, hcode⟩ := deriveBody_treeIs ht
  rw [hbody]
  have htree : TreeIs u t := 
    treeIs_congr ht (congrArg State.node hframe :) (congrArg State.root hframe :) (congrArg State.ncount hframe :)
  have hheld : u.treeValid = true := (congrArg State.treeValid hframe).trans hvalid
  refine ⟨⟨⟨?_, ?_, ?_, fun _ => ⟨t, htree⟩, fun _ => ⟨hheld, fun v hv x hx => ?_⟩⟩, ?_⟩, hheld⟩
  · rw [hframe]; exact h.pqEmpty
  · rw [hframe]; exact h.sinRange
  · rw [hframe]; exact h.binRange
  · rw [treeIs_unique htree hv]
    exact hcode x hx
  · rw [hframe]; exact h.noError

/-- Bits written to BOUT are nothing the invariant looks at. -/
theorem Sound.of_maskBout {s t : State} (h : Sound s) (hmask : maskBout t = maskBout s) : Sound t :=
  h.congr (kept_of_mask hmask fun _ => rfl) (sinIn_of_maskBout hmask h.sinRange)
    (binIn_of_mask hmask (fun _ => rfl) (fun _ => rfl) h.binRange)

theorem hasTree_of_maskBout {s t : State} (h : maskBout t = maskBout s) (hs : HasTree s) : HasTree t :=
  (congrArg State.treeValid h).trans hs

theorem magwBody_keepsSound {P : State → Prop} (hP : ∀ {s t}, maskBout t = maskBout s → P s → P t) :
    KeepsSound P P magwBody := by
  intro s h hp
  have hmask := bitsWrite_frame s 32 s.magic.toNat
  exact ⟨h.of_maskBout hmask, hP hmask hp⟩

theorem hdrwBody_keepsSound : KeepsSound HasTree AnyState hdrwBody := by
  intro s h hvalid
  obtain ⟨t, ht⟩ := h.tree hvalid
  rw [hdrwBody_treeIs ht]
  exact ⟨h.of_maskBout rfl, trivial⟩

theorem rewindBody_keepsSound : KeepsSound AnyState AnyState rewindBody :=
  fun s h _ => ⟨Sound.congr (s := s) (u := s.symRewind) rfl h (Nat.zero_le _) h.binRange, trivial⟩

theorem KeepsSound.weaken {P P' Q : State → Prop} {body : State → Run} (h : KeepsSound P Q body) (hp : ∀ s, P' s → P s) :
    KeepsSound P' Q body :=
  fun s hs hp' => h s hs (hp s hp')

theorem compressBody_keepsSound : KeepsSound AnyState AnyState compressBody := by
  have htree := countBody_keepsSound.andThen buildBody_keepsSound
  have hcodes := htree.andThen deriveBody_keepsSound
  have hmagic := hcodes.andThen (magwBody_keepsSound hasTree_of_maskBout)
  have hheader := hmagic.andThen hdrwBody_keepsSound
  have hrewound := hheader.andThen rewindBody_keepsSound
  exact hrewound.andThen encBody_keepsSound

theorem decompressBody_keepsSound : KeepsSound AnyState AnyState decompressBody := by
  have hheader := magrBody_keepsSound.andThen hdrrBody_keepsSound
  exact hheader.andThen (decBody_keepsSound.weaken fun _ _ => trivial)

/-! ## The invariant, and what is sound -/

section Inv
variable {s u : State}

theorem Inv.tablesOk (h : Inv s) : TablesOk s := ⟨h.pqEmpty, h.sinRange, h.binRange, h.tree, h.codes⟩

theorem Inv.sound (h : Inv s) (hseq : s.seq ≠ .error) : Sound s :=
  ⟨h.tablesOk, Prod.ext (h.noError hseq).1 (h.noError hseq).2⟩

theorem Sound.inv (h : Sound s) (hbusy : s.seq ≠ .busy) (herror : s.seq ≠ .error) : Inv s :=
  ⟨hbusy, h.pqEmpty, fun _ => Prod.mk.inj h.noError, fun hseq => absurd hseq herror, h.sinRange, h.binRange, h.tree, h.codes⟩

/-- CMD and STATE are nothing it looks at. -/
theorem Sound.relabel (h : Sound s) (w : Byte) (q : Seq) : Sound (s.relabel w q) :=
  Sound.congr (s := s) (u := s.relabel w q) rfl h h.sinRange h.binRange

theorem Sound.inv_raiseError (h : Sound s) (e : ErrKind) (info : BitVec 32) : Inv (s.raiseError e info) := by
  obtain ⟨hpq, hsin, hbin, htree, hcodes⟩ := 
    TablesOk.congr (s := s) (u := s.raiseError e info) rfl h.toTablesOk h.sinRange h.binRange
  exact ⟨Seq.noConfusion, hpq, fun hseq => absurd rfl hseq, fun _ => ⟨e, rfl⟩, hsin, hbin, htree, hcodes⟩

theorem Inv.congr (h : Inv s) (hkept : kept u = kept s) (hseq : u.seq = s.seq) (hsin : SinIn u) (hbin : BinIn u) : Inv u := by
  simp only [kept, errors, Prod.mk.injEq] at hkept
  obtain ⟨htables, herr, heinfo⟩ := hkept
  obtain ⟨hpq, hsin, hbin, htree, hcodes⟩ := h.tablesOk.congr htables hsin hbin
  refine ⟨?_, hpq, ?_, ?_, hsin, hbin, htree, hcodes⟩
  · rw [hseq]; exact h.notBusy
  · rw [hseq, herr, heinfo]; exact h.noError
  · rw [hseq, herr]; exact h.errCode

end Inv

/-! ## The steps -/

/-- What a step comes to under the invariant: no fault, and the invariant again. -/
def Safe : Host.Outcome State Fault Refusal → Prop
  | .next t => Inv t
  | .fault _ => False
  | .refused _ => True

theorem SoundRun.safe_finish {Q : State → Prop} {r : Run} (w : Byte) (h : SoundRun Q r) : Safe (finish w r) := by
  cases r with
  | ok t =>
    obtain ⟨ht, -⟩ := h
    have hdone : Sound { t with seq := if w = 0x01 then .idle else .done } := ht.relabel t.cmd _
    refine hdone.inv ?_ ?_
    · dsimp only; split <;> exact Seq.noConfusion
    · dsimp only; split <;> exact Seq.noConfusion
  | raised e info t => exact Sound.inv_raiseError h e info
  | stuck => exact h

/-- A command other than CLEAR: ignored in ERROR, refused where its precondition fails, or run. -/
theorem runCommand_safe {w : Byte} {pre : State → Bool} {P Q : State → Prop} {body : State → Run} (hbody : KeepsSound P Q body)
    (hpre : ∀ u, pre u = true → P u) (hw : w ≠ 0x01) {s : State} (h : Inv s) : Safe (runCommand w pre body s) := by
  by_cases herror : s.seq = .error
  · rw [runCommand_error herror hw]
    exact h
  · have hstart : Sound { s with cmd := w, seq := .busy } := (h.sound herror).relabel w .busy
    have haccept : Safe (accept w pre body s) := by
      cases hp : pre { s with cmd := w, seq := .busy } with
      | false =>
        rw [accept_precondition hp]
        exact hstart.inv_raiseError _ _
      | true =>
        rw [accept]
        exact (congrArg Safe (if_pos hp)).mpr ((hbody _ hstart (hpre _ hp)).safe_finish w)
    have hready : Ready s := by
      cases hseq : s.seq with
      | idle => exact .inl hseq
      | done => exact .inr hseq
      | busy => exact absurd hseq h.notBusy
      | error => exact absurd hseq herror
    rw [runCommand_ready hready]
    exact haccept

theorem clearBlock_inv {s : State} (h : Inv s) (ie : Bool) : Inv { s.clearBlock with seq := .idle, ie := ie } where
  notBusy := Seq.noConfusion
  pqEmpty := rfl
  noError _ := ⟨rfl, rfl⟩
  errCode hseq := Seq.noConfusion hseq
  sinRange := h.sinRange
  binRange := h.binRange
  tree hv := Bool.noConfusion hv
  codes hv := Bool.noConfusion hv

theorem deliverBits_safe {s : State} (h : Inv s) (bits : List Bit) : Safe (deliverBits bits s) := by
  rw [deliverBits_of_not_busy bits h.notBusy]
  refine h.congr (u := { s with bin := s.bin ++ bits }) rfl rfl h.sinRange ?_
  change s.binPos ≤ (s.bin ++ bits).length
  rw [List.length_append]
  exact h.binRange.trans (Nat.le_add_right ..)

theorem exec_safe (i : Instr) {s : State} (h : Inv s) : Safe (exec i s) := by
  cases i with
  | clear =>
    rw [exec_clear h.notBusy]
    exact clearBlock_inv h s.ie
  | count => exact runCommand_safe countBody_keepsSound (fun _ _ => trivial) (by decide) h
  | build => exact runCommand_safe buildBody_keepsSound (fun _ _ => trivial) (by decide) h
  | derive => exact runCommand_safe deriveBody_keepsSound (fun _ hp => hp) (by decide) h
  | hdrw => exact runCommand_safe hdrwBody_keepsSound (fun _ hp => hp) (by decide) h
  | hdrr => exact runCommand_safe hdrrBody_keepsSound (fun _ _ => trivial) (by decide) h
  | enc => exact runCommand_safe encBody_keepsSound (fun _ _ => trivial) (by decide) h
  | dec => exact runCommand_safe decBody_keepsSound (fun _ _ => trivial) (by decide) h
  | magw => exact runCommand_safe (magwBody_keepsSound (P := AnyState) fun _ _ => trivial) (fun _ _ => trivial) (by decide) h
  | magr => exact runCommand_safe magrBody_keepsSound (fun _ _ => trivial) (by decide) h
  | rewind => exact runCommand_safe rewindBody_keepsSound (fun _ _ => trivial) (by decide) h
  | compress => exact runCommand_safe compressBody_keepsSound (fun _ _ => trivial) (by decide) h
  | decompress => exact runCommand_safe decompressBody_keepsSound (fun _ _ => trivial) (by decide) h
  | magicField m => exact deliverBits_safe h _
  | nodeRecord => exact deliverBits_safe h _
  | leafRecord sym => exact deliverBits_safe h _

theorem writeCmd_safe (w : Byte) {s : State} (h : Inv s) : Safe (writeCmd w s) := by
  cases hdecode : decodeCommand w with
  | ok i =>
    rw [writeCmd_ok hdecode]
    exact exec_safe i h
  | error e =>
    have hw : w ≠ 0x01 := by
      rintro rfl
      cases hdecode
    rw [writeCmd_illegal hdecode]
    exact runCommand_safe (P := AnyState) (Q := AnyState) (body := fun t => .raised .illCmd (w.setWidth 32) t) (fun _ hs _ => hs)
      (fun _ _ => trivial) hw h

/-! ## The host's moves -/

theorem readReg_safe (n : Nat) {s : State} (h : Inv s) : Safe (readReg n s) := by
  rw [readReg, if_neg fun hbusy => h.notBusy hbusy.1]
  split
  · exact h.congr rfl rfl h.sinRange h.binRange
  · trivial

theorem writeReg_safe (n : Nat) (v : BitVec 64) {s : State} (h : Inv s) : Safe (writeReg n v s) := by
  rw [writeReg, if_neg h.notBusy]
  split
  · exact writeCmd_safe _ h
  split
  · exact h.congr (u := s.writeCtrl (v.setWidth 32)) rfl rfl h.sinRange h.binRange
  split
  · exact h
  · trivial

theorem tableAccess_safe {size i : Nat} {f : State → State} {s : State} (hf : Inv s → Inv (f s)) (h : Inv s) :
    Safe (tableAccess size i f s) := by
  rw [tableAccess, if_neg h.notBusy]
  split
  · exact hf h
  · trivial

theorem streamMove_safe {f : State → State} {s : State} (hf : Inv s → Inv (f s)) (h : Inv s) : Safe (streamMove f s) := by
  rw [streamMove, if_neg h.notBusy]
  exact hf h

theorem hostSetFreq_inv (i : Nat) (c : Count) {s : State} (h : Inv s) : Inv (s.hostSetFreq i c) := by
  rw [State.hostSetFreq]
  split
  · exact h
  · exact h.congr (u := s.setFreq i c) rfl rfl h.sinRange h.binRange

theorem deliver_safe (bits : List Bit) {s : State} (h : Inv s) : Safe (deliver bits s) := by
  rw [deliver]
  split
  · exact exec_safe _ h
  · exact deliverBits_safe h bits

theorem hostMove_safe (a : HostAction) {s : State} (h : Inv s) : Safe (hostMove a s) := by
  unfold hostMove
  cases a with
  | readReg n => exact readReg_safe n h
  | writeReg n v => exact writeReg_safe n v h
  | readFreq i => exact tableAccess_safe (fun _ => h.congr rfl rfl h.sinRange h.binRange) h
  | writeFreq i c => exact tableAccess_safe (hostSetFreq_inv i c) h
  | readNode i => exact tableAccess_safe (fun _ => h.congr rfl rfl h.sinRange h.binRange) h
  | writeNode i r => exact tableAccess_safe id h
  | readCode i => exact tableAccess_safe (fun _ => h.congr rfl rfl h.sinRange h.binRange) h
  | writeCode i r => exact tableAccess_safe id h
  | reset =>
    change Inv s.hardReset
    rw [hardReset_of_not_busy h.notBusy]
    exact clearBlock_inv h false
  | presentSin bytes => exact streamMove_safe (fun _ => h.congr rfl rfl (Nat.zero_le _) h.binRange) h
  | presentBin bits => exact streamMove_safe (fun _ => h.congr rfl rfl h.sinRange (Nat.zero_le _)) h
  | deliver bits => exact deliver_safe bits h
  | freshBout => exact streamMove_safe (fun _ => h.congr rfl rfl h.sinRange h.binRange) h
  | freshSout => exact streamMove_safe (fun _ => h.congr rfl rfl h.sinRange h.binRange) h
  | closeBout => exact streamMove_safe (fun _ => h.congr rfl rfl h.sinRange h.binRange) h
  | closeSout => exact streamMove_safe id h

theorem step_safe {s : State} (h : Inv s) : Safe (step s) := by
  obtain ⟨-, hstep⟩ | ⟨a, rest, -, hstep⟩ := step_cases s
  · rw [hstep]
    exact h
  · rw [hstep]
    exact hostMove_safe a (h.congr (u := { s with host := rest }) rfl rfl h.sinRange h.binRange)

/-- Settles O19: every command leaves its tables and cursors sound whether it ends or raises, and every other move leaves alone what
the invariant looks at, or starts over. -/
theorem stepKeepsInvariant : Obligations.StepKeepsInvariant := by
  unfold Obligations.StepKeepsInvariant
  intro s t h hstep
  have hsafe := step_safe h
  rw [hstep] at hsafe
  exact hsafe

/-- Settles O21: the walks of DERIVE and HDRW run on a tree that the invariant vouches for, and no other step is a walk. -/
theorem noFaultUnderInvariant : Obligations.NoFaultUnderInvariant := by
  unfold Obligations.NoFaultUnderInvariant
  intro s f h hstep
  have hsafe := step_safe h
  rw [hstep] at hsafe
  exact hsafe

end Sys2Proof.Machine
end
